-- ==== Sys2Proof/Word.lean ====
section
/-! DEFINITION. The words of the machine: bytes, 24-bit flash addresses, time and line identifiers. -/

namespace Sys2Proof

/-- A byte, "octet" in the source: 8 bits (R8). -/
abbrev Byte := BitVec 8

/-- A flash Address: "a 24-bit byte offset into the flash address space" (R31). -/
abbrev Address := BitVec 24

/-- A value of the millisecond counter: a natural number, no wrap (R7, decision D5).
DESIGN CHOICE of the spec; unsafe across the wrap of a real counter (log 8). -/
abbrev Time := Nat

/-- The chip-select line identifier, `LineId` of R7 and R14: "any type with equality".
DESIGN CHOICE: the natural numbers (log 25); safe, no rule computes with an identifier. -/
abbrev LineId := Nat

end Sys2Proof
end

