-- ==== Sys2Proof/Config.lean ====
section
/-! DEFINITION. What an implementation fixes, and the free values: constants without a body stand for what the
spec leaves open (nothing can be proved of their values), constants with a body are reset values the log names. -/

namespace Sys2Proof

/-- The n-th free answer byte: what is shifted in where neither State nor the reference responder fixes it
(R10, R54, U2 to U4; log 6). -/
opaque Config.freeByte : Nat → Byte

/-- How many times the counter repeats its reading after its j-th advance, in the free fair clock (D5, D26; log 7). -/
opaque Config.freeStall : Nat → Nat

/-- By how much more than one millisecond the counter's j-th advance moves it (D5, D26; log 7). -/
opaque Config.freeAdvance : Nat → Nat

/-- The counter's reading at creation: its origin is not in the source (R136; log 7). -/
opaque Config.clockOrigin : Time

/-- CHIP_SR2 of the chip at reset, OPEN in R52 (log 4). -/
opaque Config.chipSr2 : Byte

/-- CHIP_UID[k] of the chip at reset, OPEN in R52 (log 4). -/
opaque Config.chipUid : Nat → Byte

/-- CHIP_SFDP[a] of the chip at reset, OPEN in R52 (log 4). -/
opaque Config.chipSfdp : Nat → Byte

/-- The line bound at creation. DESIGN CHOICE 10, the start value of 95_test_vectors.md (log 2); unsafe. -/
def Config.boundLine : LineId := 10

/-- HAS_TXN of the transport bound at creation, OPEN in R7 (D3). DESIGN CHOICE false, the start value of
95_test_vectors.md (log 2); unsafe. -/
def Config.hasTxn : Bool := false

/-- FLASH_BYTES of the chip at reset: 2^23 for a 64 Mbit part. PRESUMED, R52 marks it general knowledge (log 3); unsafe. -/
def Config.flashBytes : Nat := 8388608

/-- CHIP_MFR of the chip at reset. DESIGN CHOICE 0xEF, the source's example chip (R52; log 2); unsafe. -/
def Config.chipMfr : Byte := 0xEF

/-- CHIP_DEV of the chip at reset. DESIGN CHOICE 0x17, the source's example chip (R52; log 2); unsafe. -/
def Config.chipDev : Byte := 0x17

/-- CHIP_JTYPE of the chip at reset. DESIGN CHOICE 0x40, the source's example chip (R52; log 2); unsafe. -/
def Config.chipJtype : Byte := 0x40

/-- CHIP_JCAP of the chip at reset. DESIGN CHOICE 0x17, the source's example chip (R52; log 2); unsafe. -/
def Config.chipJcap : Byte := 0x17

end Sys2Proof
end

