-- ==== Sys2Proof/Syntax.lean ====
section
/-! DEFINITION. The instructions: one constructor per row of spec/opcode_table.json. The first 19 are the frames of
R69 (what the block sends inside one bracket), the last 24 the host operations of R73 (symbolic, no encoding). -/

namespace Sys2Proof

/-- The instruction set: the 19 frames (`frame…`) and the 24 host operations (`op…`). A frame's address is the 24-bit
field it carries (R65). A host operation's numbers are naturals, so that an operand outside its domain (R72) can be
written down and is refused. -/
inductive Instr where
  /-- READ_STATUS_1, 0x05 (R80). -/
  | frameReadStatus1
  /-- READ_STATUS_2, 0x35 (R81). -/
  | frameReadStatus2
  /-- WRITE_ENABLE, 0x06 (R88). -/
  | frameWriteEnable
  /-- WRITE_DISABLE, 0x04 (R89). -/
  | frameWriteDisable
  /-- READ_BYTES, 0x03, with `n` read cycles (R94). -/
  | frameReadBytes (addr : Address) (n : Nat)
  /-- PAGE_PROGRAM, 0x02 (R95). -/
  | framePageProgram (addr : Address) (payload : List Byte)
  /-- CHIP_ERASE, 0x60 (R99). -/
  | frameChipErase
  /-- SECTOR_ERASE_4KB, 0x20 (R100). -/
  | frameSectorErase4KB (addr : Address)
  /-- BLOCK_ERASE_32KB, 0x52 (R101). -/
  | frameBlockErase32KB (addr : Address)
  /-- BLOCK_ERASE_64KB, 0xD8 (R102). -/
  | frameBlockErase64KB (addr : Address)
  /-- MFR_DEVICE_ID, 0x90 (R108). -/
  | frameMfrDeviceId
  /-- JEDEC_ID, 0x9F (R111). -/
  | frameJedecId
  /-- READ_UNIQUE_ID, 0x4B (R113). -/
  | frameReadUniqueId
  /-- READ_SFDP, 0x5A (R115). -/
  | frameReadSfdp (a : Byte)
  /-- POWER_DOWN, 0xB9 (R117). -/
  | framePowerDown
  /-- RELEASE_POWER_DOWN, 0xAB, one byte (R118). -/
  | frameReleasePowerDown
  /-- RELEASE_POWER_DOWN_ID, 0xAB, five bytes (R119). -/
  | frameReleasePowerDownId
  /-- ENABLE_RESET, 0x66 (R120). -/
  | frameEnableReset
  /-- RESET, 0x99 (R121). -/
  | frameReset
  /-- `begin` (R109). -/
  | opBegin
  /-- `begin(cs)` (R110). -/
  | opBeginCs (cs : LineId)
  /-- `status_register_1` (R82). -/
  | opStatusRegister1
  /-- `status_register_2` (R83). -/
  | opStatusRegister2
  /-- `ready` (R84). -/
  | opReady
  /-- `ready_wait(timeout)`; `none` is the call without operand (R74, R85). -/
  | opReadyWait (timeout : Option Time)
  /-- `read(addr,len)` (R96). -/
  | opRead (addr : Nat) (len : Nat)
  /-- `read(addr)` (R97). -/
  | opReadByte (addr : Nat)
  /-- `write_page(addr,bytes)` (R98). -/
  | opWritePage (addr : Nat) (bytes : List Byte)
  /-- `erase_chip` (R103). -/
  | opEraseChip
  /-- `erase_sector_4KB(addr)` (R105). -/
  | opEraseSector4KB (addr : Nat)
  /-- `erase_block_32KB(addr)` (R106). -/
  | opEraseBlock32KB (addr : Nat)
  /-- `erase_block_64KB(addr)` (R107). -/
  | opEraseBlock64KB (addr : Nat)
  /-- `enable_write` (R90). -/
  | opEnableWrite
  /-- `disable_write` (R91). -/
  | opDisableWrite
  /-- `jedec_id` (R112). -/
  | opJedecId
  /-- `read_unique_id` (R114). -/
  | opReadUniqueId
  /-- `read_sfdp_register(addr)` (R116). -/
  | opReadSfdpRegister (addr : Nat)
  /-- `power_down` (R122). -/
  | opPowerDown
  /-- `release_power_down` (R123). -/
  | opReleasePowerDown
  /-- `release_power_down_id` (R124). -/
  | opReleasePowerDownId
  /-- `reset` (R125). -/
  | opReset
  /-- `error_code` (R126). -/
  | opErrorCode
  /-- `clear_error` (R127). -/
  | opClearError
  deriving DecidableEq, Repr

/-- The frame formats of R64, with the spec's own names. -/
inductive Format where
  | fOp | fOpR1 | fOpA3 | fOpA3RN | fOpA3WN | fOpD3R2 | fOpR3 | fOpD4R8 | fOpZ2A1D1R1 | fOpD3R1
  deriving DecidableEq, Repr

/-- True of the 19 frames, false of the 24 host operations ("kind" of spec/opcode_table.json). -/
def Instr.isFrame : Instr → Bool
  | .frameReadStatus1 | .frameReadStatus2 | .frameWriteEnable | .frameWriteDisable => true
  | .frameReadBytes _ _ | .framePageProgram _ _ => true
  | .frameChipErase | .frameSectorErase4KB _ | .frameBlockErase32KB _ | .frameBlockErase64KB _ => true
  | .frameMfrDeviceId | .frameJedecId | .frameReadUniqueId | .frameReadSfdp _ => true
  | .framePowerDown | .frameReleasePowerDown | .frameReleasePowerDownId => true
  | .frameEnableReset | .frameReset => true
  | .opBegin | .opBeginCs _ | .opStatusRegister1 | .opStatusRegister2 | .opReady | .opReadyWait _ => false
  | .opRead _ _ | .opReadByte _ | .opWritePage _ _ => false
  | .opEraseChip | .opEraseSector4KB _ | .opEraseBlock32KB _ | .opEraseBlock64KB _ => false
  | .opEnableWrite | .opDisableWrite | .opJedecId | .opReadUniqueId | .opReadSfdpRegister _ => false
  | .opPowerDown | .opReleasePowerDown | .opReleasePowerDownId | .opReset | .opErrorCode | .opClearError => false

end Sys2Proof
end

