-- ==== Sys2Proof/WellFormed.lean ====
section
/-! DEFINITION. Well-formed instructions: every operand inside the domain of R72 (decision D13). -/

namespace Sys2Proof

/-- The operand domains of R72: an address below 2^24, a payload of at most 256 bytes ("length≤256"), an SFDP address
below 256. A read length, a timeout and a line identifier are any natural number. -/
def Instr.wellFormed : Instr → Bool
  | .framePageProgram _ payload => decide (payload.length ≤ 256)
  | .opRead addr _ => decide (addr < 2 ^ 24)
  | .opReadByte addr => decide (addr < 2 ^ 24)
  | .opWritePage addr bytes => decide (addr < 2 ^ 24) && decide (bytes.length ≤ 256)
  | .opEraseSector4KB addr => decide (addr < 2 ^ 24)
  | .opEraseBlock32KB addr => decide (addr < 2 ^ 24)
  | .opEraseBlock64KB addr => decide (addr < 2 ^ 24)
  | .opReadSfdpRegister addr => decide (addr < 256)
  | .frameReadStatus1 | .frameReadStatus2 | .frameWriteEnable | .frameWriteDisable => true
  | .frameReadBytes _ _ | .frameChipErase => true
  | .frameSectorErase4KB _ | .frameBlockErase32KB _ | .frameBlockErase64KB _ => true
  | .frameMfrDeviceId | .frameJedecId | .frameReadUniqueId | .frameReadSfdp _ => true
  | .framePowerDown | .frameReleasePowerDown | .frameReleasePowerDownId => true
  | .frameEnableReset | .frameReset => true
  | .opBegin | .opBeginCs _ | .opStatusRegister1 | .opStatusRegister2 | .opReady | .opReadyWait _ => true
  | .opEraseChip | .opEnableWrite | .opDisableWrite | .opJedecId | .opReadUniqueId => true
  | .opPowerDown | .opReleasePowerDown | .opReleasePowerDownId | .opReset | .opErrorCode | .opClearError => true

end Sys2Proof
end

