-- ==== Sys2Proof/Decode.lean ====
section
/-! DEFINITION. The frames as bytes: the decoder, total on any byte string and refusing by name, and the encoder the
block itself uses (30_encoding.md). The block only encodes (R71); a decoder reads a bracket of its trace (R70). -/

namespace Sys2Proof

/-- Why a byte string is no frame of the block (R71: "a first byte of a bracket that is not one of the 18 values, or a
bracket whose length does not match the format of its opcode, cannot occur"). -/
inductive DecodeError where
  /-- No byte at all: "there is no empty bracket in any rule" (R77). -/
  | emptyBracket
  /-- The first byte is none of the 18 opcodes of R69. -/
  | unknownOpcode (op : Byte)
  /-- The length is none the opcode's format allows (R64). -/
  | wrongLength (op : Byte)
  /-- A dummy, zero or read-cycle byte is not 0x00 (R66, R67). -/
  | nonZeroFiller (op : Byte)
  deriving DecidableEq, Repr

/-- The three octets of an address, most significant first: bits 23–16, 15–8, 7–0 (R35, R65). -/
def addressBytes (addr : Address) : List Byte :=
  [addr.extractLsb' 16 8, addr.extractLsb' 8 8, addr.extractLsb' 0 8]

/-- The address whose octets are `a2 a1 a0`, most significant first (R35, R57: `A = a2 ++ a1 ++ a0`). -/
def addressOf (a2 a1 a0 : Byte) : Address := a2 ++ a1 ++ a0

/-- The byte sent in dummy positions and read cycles (R66, R67). That read cycles send 0x00 is the spec's decision D4
(log 11). -/
def fillerByte : Byte := 0x00

/-- `n` dummy bytes or read cycles. -/
def fillers (n : Nat) : List Byte := List.replicate n fillerByte

/-- The bytes of each frame, in the order sent (R64, R69). A host operation has no binary encoding (R73, N26). -/
def encode : Instr → List Byte
  | .frameReadStatus1 => 0x05 :: fillers 1
  | .frameReadStatus2 => 0x35 :: fillers 1
  | .frameWriteEnable => [0x06]
  | .frameWriteDisable => [0x04]
  | .frameReadBytes addr n => 0x03 :: (addressBytes addr ++ fillers n)
  | .framePageProgram addr payload => 0x02 :: (addressBytes addr ++ payload)
  | .frameChipErase => [0x60]
  | .frameSectorErase4KB addr => 0x20 :: addressBytes addr
  | .frameBlockErase32KB addr => 0x52 :: addressBytes addr
  | .frameBlockErase64KB addr => 0xD8 :: addressBytes addr
  | .frameMfrDeviceId => 0x90 :: (fillers 3 ++ fillers 2)
  | .frameJedecId => 0x9F :: fillers 3
  | .frameReadUniqueId => 0x4B :: (fillers 4 ++ fillers 8)
  | .frameReadSfdp a => 0x5A :: (fillers 2 ++ a :: (fillers 1 ++ fillers 1))
  | .framePowerDown => [0xB9]
  | .frameReleasePowerDown => [0xAB]
  | .frameReleasePowerDownId => 0xAB :: (fillers 3 ++ fillers 1)
  | .frameEnableReset => [0x66]
  | .frameReset => [0x99]
  | .opBegin | .opBeginCs _ | .opStatusRegister1 | .opStatusRegister2 | .opReady | .opReadyWait _ => []
  | .opRead _ _ | .opReadByte _ | .opWritePage _ _ => []
  | .opEraseChip | .opEraseSector4KB _ | .opEraseBlock32KB _ | .opEraseBlock64KB _ => []
  | .opEnableWrite | .opDisableWrite | .opJedecId | .opReadUniqueId | .opReadSfdpRegister _ => []
  | .opPowerDown | .opReleasePowerDown | .opReleasePowerDownId | .opReset | .opErrorCode | .opClearError => []

/-- The format of each frame (R64, column "used by opcodes"). -/
def frameFormat : Instr → Option Format
  | .frameReadStatus1 | .frameReadStatus2 => some .fOpR1
  | .frameWriteEnable | .frameWriteDisable | .frameChipErase | .framePowerDown => some .fOp
  | .frameReleasePowerDown | .frameEnableReset | .frameReset => some .fOp
  | .frameSectorErase4KB _ | .frameBlockErase32KB _ | .frameBlockErase64KB _ => some .fOpA3
  | .frameReadBytes _ _ => some .fOpA3RN
  | .framePageProgram _ _ => some .fOpA3WN
  | .frameMfrDeviceId => some .fOpD3R2
  | .frameJedecId => some .fOpR3
  | .frameReadUniqueId => some .fOpD4R8
  | .frameReadSfdp _ => some .fOpZ2A1D1R1
  | .frameReleasePowerDownId => some .fOpD3R1
  | .opBegin | .opBeginCs _ | .opStatusRegister1 | .opStatusRegister2 | .opReady | .opReadyWait _ => none
  | .opRead _ _ | .opReadByte _ | .opWritePage _ _ => none
  | .opEraseChip | .opEraseSector4KB _ | .opEraseBlock32KB _ | .opEraseBlock64KB _ => none
  | .opEnableWrite | .opDisableWrite | .opJedecId | .opReadUniqueId | .opReadSfdpRegister _ => none
  | .opPowerDown | .opReleasePowerDown | .opReleasePowerDownId | .opReset | .opErrorCode | .opClearError => none

/-- The total length a format gives, where `n` is the length operand of the two open-ended formats (R64). -/
def Format.totalLength (n : Nat) : Format → Nat
  | .fOp => 1
  | .fOpR1 => 2
  | .fOpA3 => 4
  | .fOpA3RN => 4 + n
  | .fOpA3WN => 4 + n
  | .fOpD3R2 => 6
  | .fOpR3 => 4
  | .fOpD4R8 => 13
  | .fOpZ2A1D1R1 => 6
  | .fOpD3R1 => 5

/-- The positions, counted from 1, whose answers the block keeps (R64, column "answers kept"). -/
def Format.keptPositions (n : Nat) : Format → List Nat
  | .fOp => []
  | .fOpR1 => [2]
  | .fOpA3 => []
  | .fOpA3RN => (List.range n).map (5 + ·)
  | .fOpA3WN => []
  | .fOpD3R2 => [5, 6]
  | .fOpR3 => [2, 3, 4]
  | .fOpD4R8 => [6, 7, 8, 9, 10, 11, 12, 13]
  | .fOpZ2A1D1R1 => [6]
  | .fOpD3R1 => [5]

/-- The length operand of a frame: the read cycles of 0x03, the payload bytes of 0x02 (R63, R64). -/
def lengthOperand : Instr → Nat
  | .frameReadBytes _ n => n
  | .framePageProgram _ payload => payload.length
  | _ => 0

/-- The kept positions of a frame (R64, R69). -/
def keptPositions (i : Instr) : List Nat :=
  ((frameFormat i).map (Format.keptPositions (lengthOperand i))).getD []

/-- Accept exactly `n` filler bytes after the opcode (`F_OP`, `F_OP_R1`, `F_OP_D3_R2`, `F_OP_R3`, `F_OP_D4_R8`,
`F_OP_D3_R1`). -/
def decodeFillers (op : Byte) (n : Nat) (i : Instr) (rest : List Byte) : Except DecodeError Instr :=
  if rest.length ≠ n then .error (.wrongLength op)
  else if rest = fillers n then .ok i
  else .error (.nonZeroFiller op)

/-- Accept exactly three address bytes after the opcode (`F_OP_A3`). -/
def decodeAddress (op : Byte) (f : Address → Instr) : List Byte → Except DecodeError Instr
  | [a2, a1, a0] => .ok (f (addressOf a2 a1 a0))
  | _ => .error (.wrongLength op)

/-- `F_OP_A3_RN`: three address bytes, then any number of read cycles. -/
def decodeRead (op : Byte) : List Byte → Except DecodeError Instr
  | a2 :: a1 :: a0 :: rest =>
    if rest = fillers rest.length then .ok (.frameReadBytes (addressOf a2 a1 a0) rest.length)
    else .error (.nonZeroFiller op)
  | _ => .error (.wrongLength op)

/-- `F_OP_A3_WN`: three address bytes, then at most 256 payload bytes. -/
def decodeProgram (op : Byte) : List Byte → Except DecodeError Instr
  | a2 :: a1 :: a0 :: payload =>
    if payload.length ≤ 256 then .ok (.framePageProgram (addressOf a2 a1 a0) payload)
    else .error (.wrongLength op)
  | _ => .error (.wrongLength op)

/-- `F_OP_Z2_A1_D1_R1`: two zero bytes, the address byte, a dummy byte, a read cycle. -/
def decodeSfdp (op : Byte) : List Byte → Except DecodeError Instr
  | [z1, z0, a, d, r] =>
    if [z1, z0, d, r] = fillers 4 then .ok (.frameReadSfdp a) else .error (.nonZeroFiller op)
  | _ => .error (.wrongLength op)

/-- The two frames of opcode 0xAB, told apart by their length alone (R70). -/
def decodeRelease (op : Byte) (rest : List Byte) : Except DecodeError Instr :=
  if rest = [] then .ok .frameReleasePowerDown else decodeFillers op 4 .frameReleasePowerDownId rest

/-- The opcode map of R69, by the first byte. -/
def decodeOpcode (op : Byte) (rest : List Byte) : Except DecodeError Instr :=
  if op = 0x05 then decodeFillers op 1 .frameReadStatus1 rest
  else if op = 0x35 then decodeFillers op 1 .frameReadStatus2 rest
  else if op = 0x06 then decodeFillers op 0 .frameWriteEnable rest
  else if op = 0x04 then decodeFillers op 0 .frameWriteDisable rest
  else if op = 0x03 then decodeRead op rest
  else if op = 0x02 then decodeProgram op rest
  else if op = 0x60 then decodeFillers op 0 .frameChipErase rest
  else if op = 0x20 then decodeAddress op .frameSectorErase4KB rest
  else if op = 0x52 then decodeAddress op .frameBlockErase32KB rest
  else if op = 0xD8 then decodeAddress op .frameBlockErase64KB rest
  else if op = 0x90 then decodeFillers op 5 .frameMfrDeviceId rest
  else if op = 0x9F then decodeFillers op 3 .frameJedecId rest
  else if op = 0x4B then decodeFillers op 12 .frameReadUniqueId rest
  else if op = 0x5A then decodeSfdp op rest
  else if op = 0xB9 then decodeFillers op 0 .framePowerDown rest
  else if op = 0xAB then decodeRelease op rest
  else if op = 0x66 then decodeFillers op 0 .frameEnableReset rest
  else if op = 0x99 then decodeFillers op 0 .frameReset rest
  else .error (.unknownOpcode op)

/-- The frame whose bytes these are: total, and every byte string that is no frame is refused by name (R69, R71). -/
def decode : List Byte → Except DecodeError Instr
  | [] => .error .emptyBracket
  | op :: rest => decodeOpcode op rest

/-- The least length an opcode's formats allow (R64): 0xAB has the short one, an unknown opcode none. -/
def shortestLength (op : Byte) : Nat :=
  if op = 0x05 ∨ op = 0x35 then 2
  else if op = 0x03 ∨ op = 0x02 ∨ op = 0x20 ∨ op = 0x52 ∨ op = 0xD8 ∨ op = 0x9F then 4
  else if op = 0x90 ∨ op = 0x5A then 6
  else if op = 0x4B then 13
  else 1

/-- The first `n` bytes of the word `w`: bits 7..0 are the first byte sent, bits 15..8 the second, and so on. -/
def wordBytes (w : Nat) : Nat → List Byte
  | 0 => []
  | n + 1 => BitVec.ofNat 8 w :: wordBytes (w / 256) n

/-- The bytes of the table word `w` of `nbits` bits, zeros after them up to the least length of its opcode. Between the
two frames of 0xAB only the number of bits decides (R70; log 28). -/
def tableWordBytes (nbits w : Nat) : List Byte :=
  let op : Byte := BitVec.ofNat 8 w
  let given := (nbits + 7) / 8
  if op = 0xAB then wordBytes (w % 2 ^ nbits) (if given ≤ 1 then 1 else max given 5)
  else wordBytes (w % 2 ^ nbits) (max given (shortestLength op))

/-- The instruction the decoder reads from a table word, if any. -/
def decodeTableWord (nbits w : Nat) : Option Instr :=
  match decode (tableWordBytes nbits w) with
  | .ok i => some i
  | .error _ => none

end Sys2Proof
end

