-- ==== Sys2Proof/Machine/State.lean ====
section
/-! DEFINITION. The state: the Device Handle, the sequencer's control state, the interface (events, answers, clock),
the caller's side and the chip as environment, all plain data; the stops; the state right after creation. -/

namespace Sys2Proof.Machine

/-- The Error Code: "one of {NONE, TIMEOUT}" (R17). -/
inductive ErrorCode where
  | none
  | timeout
  deriving DecidableEq, Repr

/-- The level of the chip-select line; `unspecified` is the spec's own value (R30, U10: no claim may depend on the
level there; log 24). -/
inductive LineLevel where
  | unspecified
  | low
  | high
  deriving DecidableEq, Repr

/-- The event alphabet of R10: one event per use of a consumed capability. -/
inductive Event where
  /-- `PinOut(l)`: configure line `l` as output. -/
  | pinOut (l : LineId)
  /-- `CsLow(l)`: drive line `l` low. -/
  | csLow (l : LineId)
  /-- `CsHigh(l)`: drive line `l` high. -/
  | csHigh (l : LineId)
  /-- `TxnBegin`: `begin_transaction()`. -/
  | txnBegin
  /-- `TxnEnd`: `end_transaction()`. -/
  | txnEnd
  /-- `Xfer(o, i)`: byte `o` sent, byte `i` shifted in. -/
  | xfer (o i : Byte)
  /-- `Now(t)`: the millisecond counter answers `t`. -/
  | now (t : Time)
  /-- `DelayUs(n)`: a blocking delay of `n` microseconds. -/
  | delayUs (n : Nat)
  deriving DecidableEq, Repr

/-- What an operation or a frame routine returns (R12, R73). -/
inductive Result where
  | unit
  | bool (b : Bool)
  | byte (b : Byte)
  | bytes (bs : List Byte)
  | u24 (v : BitVec 24)
  | u64 (v : BitVec 64)
  | okBytes (bs : List Byte)
  | okByte (b : Byte)
  | fail
  | code (e : ErrorCode)
  deriving DecidableEq, Repr

/-- "a natural number or `never`" (R52, R53): how many status reads still answer BUSY. -/
inductive BusyCount where
  | reads (n : Nat)
  | never
  deriving DecidableEq, Repr

/-- The kinds of program and erase frame BUSY_READS distinguishes (R52, R58, R59). -/
inductive MutationKind where
  | program | sector | block32 | block64 | chip
  deriving DecidableEq, Repr

/-- BUSY_READS(kind) of R52, a value per kind. -/
structure BusyReads where
  program : BusyCount
  sector : BusyCount
  block32 : BusyCount
  block64 : BusyCount
  chip : BusyCount
  deriving DecidableEq, Repr

/-- The flash array as a list of cells in canonical form: addresses strictly rising, no entry equal to what an
unlisted address reads as (`erasedByte`). -/
abbrev Memory := List Host.Cell

/-- What an unlisted address of the array reads as: the erased value, all ones (R43).
DESIGN CHOICE for an array nothing has written (log 5); unsafe. -/
def erasedByte : Byte := 0xFF

/-- The canonical form of `Memory`. -/
abbrev Memory.wf (m : Memory) : Prop :=
  m.Pairwise (fun a b => a.1 < b.1) ∧ ∀ c ∈ m, c.2 ≠ erasedByte

/-- The reference responder: parameters (R52) and state (R53). -/
structure Chip where
  flashBytes : Nat
  mfr : Byte
  dev : Byte
  jtype : Byte
  jcap : Byte
  uid : List Byte
  sfdp : List Byte
  sr2 : Byte
  busyReads : BusyReads
  mem : Memory
  nBusy : BusyCount
  wel : Bool
  pd : Bool
  armed : Bool
  deriving DecidableEq, Repr

/-- The other side of the link: the reference responder, or a chip of which nothing is known and whose every answer is
a free byte (U2; "A model should keep the environment a parameter", 20_memory.md part 5; log 1). -/
inductive Environment where
  | responder (c : Chip)
  | anyChip
  deriving DecidableEq, Repr

/-- The millisecond counter as the block sees it (R10, R136; log 7): the last answer, the answers the environment has
fixed, and after those a free fair clock given by how often the reading repeats before its next advance. -/
structure Clock where
  last : Time
  samples : List Time
  stall : Nat
  advances : Nat
  frozen : Bool
  deriving DecidableEq, Repr

/-- The state of the machine. -/
structure State where
  /-- H.CS_LINE (R14). -/
  csLine : LineId
  /-- H.MFR_ID; `none` is "holds no value until the first `begin`" (R15, R30). -/
  mfrId : Option Byte
  /-- H.DEV_ID; `none` is "holds no value until the first `begin`" (R16, R30). -/
  devId : Option Byte
  /-- H.ERR (R17, R18). -/
  err : ErrorCode
  /-- S.CS_ACTIVE (R26). -/
  csActive : Bool
  /-- S.TXN_OPEN (R26). -/
  txnOpen : Bool
  /-- S.CONFIGURED (R26). -/
  configured : Bool
  /-- The level of the chip-select line (R30). -/
  csLevel : LineLevel
  /-- HAS_TXN of the bound transport (R7). -/
  hasTxn : Bool
  /-- The operations the caller will still invoke, next one first (R25, D19; log 16). -/
  pending : List Instr
  /-- How many operations have returned (R25, D19). -/
  opIndex : Nat
  /-- A frame routine placed from outside to run alone, for looking at one row of R69. It is no part of the block: creation
  leaves none and no step places one, so no run of the block has one (R71, R74; log 15). -/
  loneFrame : Option Instr
  /-- What the last operation returned. -/
  result : Option Result
  /-- Every event emitted so far, oldest first (R10). -/
  trace : List Event
  /-- The millisecond counter. -/
  clock : Clock
  /-- The next free answers, where the environment has fixed them. -/
  draws : List Byte
  /-- How many free answers `Config.freeByte` has given. -/
  drawCount : Nat
  /-- The chip. -/
  env : Environment
  deriving DecidableEq, Repr

/-- Why the machine stops with a fault. -/
inductive Fault where
  /-- Raised by `ready_wait` when the chip is not ready and the millisecond counter never advances again (U16: "stuck").
  Safe: the hardware does not return there, and the model stops. -/
  | waitStuck
  deriving DecidableEq, Repr

/-- Why an instruction is given no meaning. -/
inductive Refusal where
  /-- An instruction without a meaning yet; no arm of `exec` uses it. Safe. -/
  | notModelled (mnemonic : String)
  /-- Raised by every operation but `begin`, `begin(cs)`, `error_code`, `clear_error`, and by every frame, while
  S.CONFIGURED is false (R79, U8). Safe. -/
  | notConfigured
  /-- Raised by an operation whose operand is outside its domain (R72, U7). Safe. -/
  | operandOutOfDomain
  /-- Raised by `select` while a bracket is open: "nesting is forbidden" (R75, R78, U15). Safe. -/
  | nestedSelect
  /-- Raised by `deselect` while no bracket is open (R76, R78, U15). Safe. -/
  | unmatchedDeselect
  /-- Raised by `step` when the caller's next entry is no operation of the public surface: "there is no raw-frame operation
  in the public surface" (R71), "a caller cannot invoke them on their own" (R74). Safe. -/
  | notPublic
  deriving DecidableEq, Repr

/-- The chip at reset: the start state and example identity bytes of 95_test_vectors.md (log 2), FLASH_BYTES of R52
(log 3), free constants for what has no such value (log 4), nothing listed in the array (log 5). -/
def Chip.atReset : Chip where
  flashBytes := Config.flashBytes
  mfr := Config.chipMfr
  dev := Config.chipDev
  jtype := Config.chipJtype
  jcap := Config.chipJcap
  uid := (List.range 8).map Config.chipUid
  sfdp := (List.range 256).map Config.chipSfdp
  sr2 := Config.chipSr2
  busyReads := ⟨.reads 0, .reads 0, .reads 0, .reads 0, .reads 0⟩
  mem := []
  nBusy := .reads 0
  wel := false
  pd := false
  armed := false

/-- The millisecond counter at reset: its origin and every later answer are free (log 7). -/
def Clock.atReset : Clock where
  last := Config.clockOrigin
  samples := []
  stall := Config.freeStall 0
  advances := 0
  frozen := false

/-- The machine right after the creation of the handle, which is its reset (R30, R141). -/
def State.reset : State where
  csLine := Config.boundLine
  mfrId := none
  devId := none
  err := .none
  csActive := false
  txnOpen := false
  configured := false
  csLevel := .unspecified
  hasTxn := Config.hasTxn
  pending := []
  opIndex := 0
  loneFrame := none
  result := none
  trace := []
  clock := Clock.atReset
  draws := []
  drawCount := 0
  env := .responder Chip.atReset

end Sys2Proof.Machine
end

