-- ==== Sys2Proof/Machine/Flags.lean ====
section
/-! DEFINITION. The status bits the block decodes, and the status byte the responder answers (10_state.md R20 to R23,
20_memory.md R55). There is no condition-code register (R23). -/

namespace Sys2Proof.Machine

/-- SR_BUSY_MASK: BUSY is bit 0 of status register 1 (R7, R21). -/
def busyMask : Byte := 0x01

/-- SR_WEL_MASK: WRITE_ENABLE is bit 1 of status register 1 (R7, R21). -/
def welMask : Byte := 0x02

/-- `(s & 0x01) == 0`: the chip is ready (R84). -/
def statusReady (s : Byte) : Bool := s &&& busyMask == 0

/-- `(s & 0x02) != 0`: the write-enable latch is set (R90; R91 tests its negation). -/
def statusWel (s : Byte) : Bool := s &&& welMask != 0

/-- BUSY is 1 iff `n_busy` is not 0 (R53). -/
def BusyCount.isBusy : BusyCount → Bool
  | .reads 0 => false
  | .reads (_ + 1) => true
  | .never => true

/-- `0b000000 ++ wel ++ busy` (R55). That bits 7:2 are answered as 0 is decision D23 (log 27). -/
def statusByte (wel busy : Bool) : Byte :=
  (if wel then welMask else 0) ||| (if busy then busyMask else 0)

end Sys2Proof.Machine
end

