-- ==== Sys2Proof/Machine/Memory.lean ====
section
/-! DEFINITION. The flash array: reading, writing, programming and erasing bytes of the canonical list of cells
(20_memory.md R39, R43, R53). -/

namespace Sys2Proof.Machine

/-- The byte at address `a` (MemRead of R9, one byte). -/
def Memory.read (m : Memory) (a : Nat) : Byte :=
  match m with
  | [] => erasedByte
  | c :: rest => if c.1 = a then c.2 else Memory.read rest a

/-- Put byte `v` at address `a` (MemWrite of R9, one byte), keeping the canonical form. -/
def Memory.write (m : Memory) (a : Nat) (v : Byte) : Memory :=
  match m with
  | [] => if v = erasedByte then [] else [(a, v)]
  | c :: rest =>
    if a < c.1 then (if v = erasedByte then c :: rest else (a, v) :: c :: rest)
    else if a = c.1 then (if v = erasedByte then rest else (a, v) :: rest)
    else c :: Memory.write rest a v

/-- Every byte of `a .. a + n - 1` becomes 0xFF (R43, R59). -/
def Memory.erase (m : Memory) (a n : Nat) : Memory :=
  m.filter (fun c => decide (c.1 < a) || decide (a + n ≤ c.1))

/-- Where byte `i` of a page program at `addr` lands: `(page_base) + ((i + A_low) mod 256)` (R39). -/
def pageAddress (addr : Address) (i : Nat) : Nat :=
  addr.toNat / 256 * 256 + (i + addr.toNat % 256) % 256

/-- Program the payload from its byte `i` on: each landing byte becomes `old & data` (R43, R58). -/
def Memory.program (addr : Address) (m : Memory) (i : Nat) : List Byte → Memory
  | [] => m
  | d :: rest =>
    Memory.program addr (m.write (pageAddress addr i) (m.read (pageAddress addr i) &&& d)) (i + 1) rest

end Sys2Proof.Machine
end

