-- ==== Sys2Proof/Machine/Chip.lean ====
section
/-! DEFINITION. The chip as environment: what the reference responder answers to each transfer and how a frame changes
it at `CsHigh` (20_memory.md R52 to R62). Where the responder gives no meaning the chip becomes `anyChip` (log 18). -/

namespace Sys2Proof.Machine

/-- SECTOR_BYTES of R52; "KB" as 1024 bytes is general knowledge, PRESUMED (log 32). -/
def sectorBytes : Nat := 4096
/-- BLOCK32_BYTES of R52 (log 32). -/
def block32Bytes : Nat := 32768
/-- BLOCK64_BYTES of R52 (log 32). -/
def block64Bytes : Nat := 65536

/-- BUSY_READS(kind) (R52). -/
def BusyReads.of (b : BusyReads) : MutationKind → BusyCount
  | .program => b.program
  | .sector => b.sector
  | .block32 => b.block32
  | .block64 => b.block64
  | .chip => b.chip

/-- The frame is ignored: (a) powered down and not 0xAB; (b) busy and no status read (R54). Clause (b) is general
knowledge, PRESUMED (log 32). -/
def Chip.ignores (c : Chip) (op : Byte) : Bool :=
  (c.pd && op != 0xAB) || (c.nBusy.isBusy && op != 0x05 && op != 0x35)

/-- The answer to read cycle `k` of a read at `A`: the array byte at `A + k`; beyond the array nothing is stated, and
the answer is free (R57; log 18). -/
def Chip.arrayAnswer (c : Chip) (addr k : Nat) : Option Byte :=
  if addr + k < c.flashBytes then some (c.mem.read (addr + k)) else none

/-- What the responder answers to the transfer at position `sent.length`, where `sent` are the bytes sent in the bracket
so far, this one included; `none` is a draw (R54, R55, R57, R60, R61). -/
def Chip.answer (c : Chip) (sent : List Byte) : Option Byte :=
  let op := sent.getD 0 0
  let j := sent.length
  if c.ignores op then none
  else if op = 0x05 then (if j = 2 then some (statusByte c.wel c.nBusy.isBusy) else none)
  else if op = 0x35 then (if j = 2 then some c.sr2 else none)
  else if op = 0x03 then
    (if 5 ≤ j then c.arrayAnswer (addressOf (sent.getD 1 0) (sent.getD 2 0) (sent.getD 3 0)).toNat (j - 5) else none)
  else if op = 0x90 then (if j = 5 then some c.mfr else if j = 6 then some c.dev else none)
  else if op = 0x9F then (if j = 2 then some c.mfr else if j = 3 then some c.jtype else if j = 4 then some c.jcap else none)
  else if op = 0x4B then (if 6 ≤ j then c.uid[j - 6]? else none)
  else if op = 0x5A then (if j = 6 then c.sfdp[(sent.getD 3 0).toNat]? else none)
  else if op = 0xAB then (if j = 5 then some c.dev else none)
  else none

/-- What the chip answers to a transfer; `none` is a draw: any byte. -/
def Environment.answer : Environment → List Byte → Option Byte
  | .responder c, sent => c.answer sent
  | .anyChip, _ => none

/-- "every frame whose `o1` is neither 0x66 nor 0x99, ignored or not, sets `armed <- false`" (R54, R62). -/
def Chip.disarm (c : Chip) (op : Byte) : Chip :=
  if op = 0x66 ∨ op = 0x99 then c else { c with armed := false }

/-- After a status read: a positive count falls by one, and reaching 0 clears the latch (R55). -/
def Chip.afterStatusRead (c : Chip) : Chip :=
  match c.nBusy with
  | .reads (n + 1) => { c with nBusy := .reads n, wel := if n = 0 then false else c.wel }
  | .reads 0 => c
  | .never => c

/-- After an accepted program or erase: `n_busy <- BUSY_READS(kind)`, "and if that is 0, `wel <- false`" (R58, R59). -/
def Chip.beginBusy (c : Chip) (kind : MutationKind) : Chip :=
  { c with nBusy := c.busyReads.of kind, wel := if c.busyReads.of kind = .reads 0 then false else c.wel }

/-- An accepted page program (R58): no effect without the latch; a landing address beyond the array, or a header that
is not whole, has no stated meaning. -/
def Chip.pageProgram (c : Chip) : List Byte → Environment
  | a2 :: a1 :: a0 :: payload =>
    let addr := addressOf a2 a1 a0
    if !c.wel then .responder c
    else if payload.length ≤ 256 ∧ ∀ i < payload.length, pageAddress addr i < c.flashBytes then
      .responder ({ c with mem := c.mem.program addr 0 payload }.beginBusy .program)
    else .anyChip
  | _ => .anyChip

/-- An accepted addressed erase of a unit of `size` bytes (R59): no effect without the latch; a misaligned address or a
unit beyond the array has no stated meaning (R40, U1). -/
def Chip.unitErase (c : Chip) (kind : MutationKind) (size : Nat) : List Byte → Environment
  | [a2, a1, a0] =>
    let addr := (addressOf a2 a1 a0).toNat
    if !c.wel then .responder c
    else if addr % size = 0 ∧ addr + size ≤ c.flashBytes then
      .responder ({ c with mem := c.mem.erase addr size }.beginBusy kind)
    else .anyChip
  | _ => .anyChip

/-- An accepted chip erase: "Frame 0x60 sets every byte of `mem` to 0xFF" (R59). -/
def Chip.chipErase (c : Chip) : Environment :=
  if !c.wel then .responder c else .responder ({ c with mem := [] }.beginBusy .chip)

/-- Frame 0x99: with `armed`, clears latch, arm and busy; else no effect (R62). -/
def Chip.resetFrame (c : Chip) : Chip :=
  if c.armed then { c with wel := false, armed := false, nBusy := .reads 0 } else c

/-- The effect at `CsHigh` of a frame that is not ignored, by its opcode (R55 to R62). -/
def Chip.accept (c : Chip) (op : Byte) (rest : List Byte) : Environment :=
  if op = 0x05 then .responder c.afterStatusRead
  else if op = 0x06 then .responder { c with wel := true }
  else if op = 0x04 then .responder { c with wel := false }
  else if op = 0x02 then c.pageProgram rest
  else if op = 0x60 then c.chipErase
  else if op = 0x20 then c.unitErase .sector sectorBytes rest
  else if op = 0x52 then c.unitErase .block32 block32Bytes rest
  else if op = 0xD8 then c.unitErase .block64 block64Bytes rest
  else if op = 0xB9 then .responder { c with pd := true }
  else if op = 0xAB then .responder { c with pd := false }
  else if op = 0x66 then .responder { c with armed := true }
  else if op = 0x99 then .responder c.resetFrame
  else if op = 0x35 ∨ op = 0x03 ∨ op = 0x90 ∨ op = 0x9F ∨ op = 0x4B ∨ op = 0x5A then .responder c
  else .anyChip

/-- What the chip is after the bracket of the frame with these bytes ends (R54): 0x66 and 0x99 while busy have no stated
meaning; an ignored frame changes nothing but the reset arm; an accepted one has its effect. -/
def Chip.endFrame (c : Chip) : List Byte → Environment
  | [] => .responder c
  | op :: rest =>
    if (op = 0x66 ∨ op = 0x99) ∧ c.nBusy.isBusy then .anyChip
    else if c.ignores op then .responder (c.disarm op)
    else (c.disarm op).accept op rest

/-- What the other side of the link is after a bracket ends. -/
def Environment.endFrame : Environment → List Byte → Environment
  | .responder c, frame => c.endFrame frame
  | .anyChip, _ => .anyChip

/-- How many status reads the responder will still answer BUSY, where that is a number. -/
def Environment.busyBound : Environment → Nat
  | .responder c => match c.nBusy with | .reads n => n | .never => 0
  | .anyChip => 0

end Sys2Proof.Machine
end

