-- ==== Sys2Proof/Machine/Operands.lean ====
section
/-! DEFINITION. Operands and parameters: the budgets and settle delays (R7, R154), the operand domains of the host
operations (R72), the default timeout (R74), picking kept answers (R77) and packing them (R36, R45, R112, R114). -/

namespace Sys2Proof.Machine

/-- T_DEFAULT_MS: "default timeout is 100 time-units when unspecified" (R7, R85; the unit is decision D5). -/
def tDefaultMs : Time := 100
/-- T_PP_MS, the page-program budget, "≤ 3 ms" (R7). -/
def tPageProgramMs : Time := 3
/-- T_CE_MS, the chip-erase budget, "≤ 100 s", not 60 s (R7, conflict C6). -/
def tChipEraseMs : Time := 100000
/-- T_SE4_MS, the 4 KB sector-erase budget, "≤ 400 ms" (R7). -/
def tSectorErase4Ms : Time := 400
/-- T_BE32_MS, the 32 KB block-erase budget, "≤ 1600 ms" (R7). -/
def tBlockErase32Ms : Time := 1600
/-- T_BE64_MS, the 64 KB block-erase budget, "≤ 2000 ms" (R7). -/
def tBlockErase64Ms : Time := 2000
/-- T_RES_US, the settle delay after release from power-down, "~3 µs"; exactly 3 is decision D16 (log 23). -/
def tReleaseUs : Nat := 3
/-- T_RST_US, the settle delay after reset, "~30 µs"; exactly 30 is decision D16 (log 23). -/
def tResetUs : Nat := 30

/-- The timeout of a `ready_wait` call: its operand, or 100 when it has none (R74, R85). -/
def timeoutOperand (timeout : Option Time) : Time := timeout.getD tDefaultMs

/-- The domain of `addr` of `read`, `write_page` and the addressed erases (R72). -/
def addressInDomain (addr : Nat) : Bool := decide (addr < 2 ^ 24)

/-- The domain of the payload of `write_page`: "length≤256" (R72). -/
def payloadInDomain (bytes : List Byte) : Bool := decide (bytes.length ≤ 256)

/-- The domain of `addr` of `read_sfdp_register`: "1 address byte" (R72). -/
def sfdpAddressInDomain (addr : Nat) : Bool := decide (addr < 256)

/-- The 24-bit operand of an address in its domain. -/
def toAddress (addr : Nat) : Address := BitVec.ofNat 24 addr

/-- The answer to the transfer at position `j`, counted from 1 (R64, R77). Every position a rule keeps exists in its
frame, so the value given beyond the end is never used. -/
def answerAt (answers : List Byte) (j : Nat) : Byte := answers.getD (j - 1) 0

/-- `(i_j for j in K, in order)` of R77. -/
def keptAnswers (kept : List Nat) (answers : List Byte) : List Byte := kept.map (answerAt answers)

/-- `(zext_24(m) << 16) | (zext_24(t) << 8) | zext_24(c)` (R112). -/
def packJedec (m t c : Byte) : BitVec 24 :=
  (m.zeroExtend 24 <<< 16) ||| (t.zeroExtend 24 <<< 8) ||| c.zeroExtend 24

/-- `acc <- (acc << 8) | zext_64(u_k)`, from 0, first byte received first (R114). -/
def packUid (us : List Byte) : BitVec 64 :=
  us.foldl (fun acc u => (acc <<< 8) ||| u.zeroExtend 64) 0

/-- The numeric coding of the error code: NONE is 0; TIMEOUT is 1 by decision D7 (R17; log 21). -/
def ErrorCode.number : ErrorCode → Nat
  | .none => 0
  | .timeout => 1

end Sys2Proof.Machine
end

