-- ==== Sys2Proof/Machine/Ops.lean ====
section
/-! DEFINITION. The shared operations: updates of State, the inputs (answers and clock samples), select, deselect and
the exchange (40_chip_select.md), taking the one error and leaving it (60_exceptions.md), and running an operation
for the caller. -/

namespace Sys2Proof.Machine

/-- An operation in progress: a state and a value, or a stop. -/
abbrev Ran (α : Type) := Host.Outcome (State × α) Fault Refusal

/-- Run `k` on where `o` ended, unless `o` stopped. -/
def andThen {α β : Type} (o : Ran α) (k : State → α → Host.Outcome β Fault Refusal) : Host.Outcome β Fault Refusal :=
  match o with
  | .next p => k p.1 p.2
  | .fault r => .fault r
  | .refused r => .refused r

/-! ### Updates of State -/

/-- `emit e` (R9): append an event to the trace. -/
def State.emit (s : State) (e : Event) : State := { s with trace := s.trace ++ [e] }

/-- What the operation returns to the caller. -/
def State.setResult (s : State) (r : Result) : State := { s with result := some r }

/-- `H.ERR <- e`. -/
def State.setErr (s : State) (e : ErrorCode) : State := { s with err := e }

/-- `H.CS_LINE <- l`. -/
def State.setCsLine (s : State) (l : LineId) : State := { s with csLine := l }

/-- `H.MFR_ID <- m` and `H.DEV_ID <- d` (R108). -/
def State.setIds (s : State) (m d : Byte) : State := { s with mfrId := some m, devId := some d }

/-- The chip after a bracket of the bytes `frame` has ended (R54). -/
def State.chipSees (s : State) (frame : List Byte) : State := { s with env := s.env.endFrame frame }

/-! ### Inputs -/

/-- The next free answer byte: what the environment has fixed, else the next free value (R10, U2 to U4; log 6). -/
def State.draw (s : State) : State × Byte :=
  match s.draws with
  | b :: rest => ({ s with draws := rest }, b)
  | [] => ({ s with drawCount := s.drawCount + 1 }, Config.freeByte s.drawCount)

/-- The next answer of the millisecond counter: never less than the last one (D5). After the fixed answers the free
clock repeats its reading `stall` more times, then advances by at least one (D26), unless it is frozen (U16; log 7). -/
def Clock.read (c : Clock) : Clock × Time :=
  match c.samples with
  | t :: rest => ({ c with last := max c.last t, samples := rest }, max c.last t)
  | [] =>
    if c.frozen then (c, c.last)
    else
      match c.stall with
      | n + 1 => ({ c with stall := n }, c.last)
      | 0 =>
        ({ c with
            last := c.last + Config.freeAdvance c.advances + 1
            advances := c.advances + 1
            stall := Config.freeStall (c.advances + 1) },
          c.last + Config.freeAdvance c.advances + 1)

/-- `t <- Now()` (R9). -/
def State.now (s : State) : State × Time :=
  ({ s with clock := s.clock.read.1, trace := s.trace ++ [.now s.clock.read.2] }, s.clock.read.2)

/-! ### Chip select and exchange -/

/-- `select()` (R75). The order of its two events is decision D2 (log 10). -/
def select (s : State) : Host.Outcome State Fault Refusal :=
  if s.csActive then .refused .nestedSelect
  else .next { s with
    trace := s.trace ++ .csLow s.csLine :: (if s.hasTxn then [.txnBegin] else [])
    txnOpen := s.hasTxn || s.txnOpen
    csActive := true
    csLevel := .low }

/-- `deselect()` (R76). The order of its two events is decision D2 (log 10). -/
def deselect (s : State) : Host.Outcome State Fault Refusal :=
  if s.csActive then .next { s with
    trace := s.trace ++ (if s.hasTxn then [.txnEnd] else []) ++ [.csHigh s.csLine]
    txnOpen := !s.hasTxn && s.txnOpen
    csActive := false
    csLevel := .high }
  else .refused .unmatchedDeselect

/-- `i <- Xfer(o)` (R9) as the last of the bytes `sent ++ [o]` of the open bracket: the chip's answer, or a draw. -/
def xfer (sent : List Byte) (o : Byte) (s : State) : State × Byte :=
  match s.env.answer (sent ++ [o]) with
  | some i => (s.emit (.xfer o i), i)
  | none => (s.draw.1.emit (.xfer o s.draw.2), s.draw.2)

/-- The transfers of the bytes `out` in order, after those of `sent` in the same bracket. -/
def transfers (sent : List Byte) : List Byte → State → State × List Byte
  | [], s => (s, [])
  | o :: rest, s =>
    let first := xfer sent o s
    let others := transfers (sent ++ [o]) rest first.1
    (others.1, first.2 :: others.2)

/-- `Exchange(o1 .. on)` (R77): select, the transfers, deselect; the chip takes the frame at `CsHigh` (R54). It gives
every answer; a rule keeps those it names. -/
def exchange (out : List Byte) (s : State) : Ran (List Byte) :=
  match select s with
  | .next s1 =>
    match deselect (transfers [] out s1).1 with
    | .next s2 => .next (s2.chipSees out, (transfers [] out s1).2)
    | .fault r => .fault r
    | .refused r => .refused r
  | .fault r => .fault r
  | .refused r => .refused r

/-- The exchange of a frame, by its encoding (R69). -/
def sendFrame (i : Instr) (s : State) : Ran (List Byte) := exchange (encode i) s

/-! ### Delay, error -/

/-- `DelayUs(n)` (R9). -/
def delayUs (n : Nat) (s : State) : State := s.emit (.delayUs n)

/-- Taking the one error (R131): `raise Timeout` is `H.ERR <- TIMEOUT; return false` (R9). No state is saved, no mode or
mask changes, no control goes to a handler or vector. -/
def raiseTimeout (s : State) : Ran Bool := .next (s.setErr .timeout, false)

/-- Leaving the error condition (R132): there is no return instruction and nothing to restore; `H.ERR <- NONE`, done by
a successful `read` (R96) and by `clear_error` (R127). -/
def clearError (s : State) : State := s.setErr .none

/-! ### Running an operation or a frame for the caller -/

/-- Return the operation's result to the caller. -/
def complete (o : Ran Result) : Host.Outcome State Fault Refusal := andThen o fun s r => .next (s.setResult r)

/-- A host operation other than `begin`, `begin(cs)`, `error_code`, `clear_error`: refused while S.CONFIGURED is false
(R79, decision D9; log 14). -/
def whenConfigured (s : State) (body : State → Ran Result) : Host.Outcome State Fault Refusal :=
  if s.configured then complete (body s) else .refused .notConfigured

/-- Refuse an operand outside its domain (R72, decision D13; log 17). -/
def whenInDomain (inDomain : Bool) (body : Host.Outcome State Fault Refusal) : Host.Outcome State Fault Refusal :=
  if inDomain then body else .refused .operandOutOfDomain

/-- The caller's invocation is over: the next operation is the first again, and one more has returned (D19). -/
def State.advance (s : State) : State := { s with pending := s.pending.tail, opIndex := s.opIndex + 1 }

/-- The lone frame routine has run. -/
def State.clearLone (s : State) : State := { s with loneFrame := none }

/-- `f` of the state a run ended in, unless it stopped. -/
def onNext (f : State → State) : Host.Outcome State Fault Refusal → Host.Outcome State Fault Refusal
  | .next t => .next (f t)
  | .fault r => .fault r
  | .refused r => .refused r

end Sys2Proof.Machine
end

