-- ==== Sys2Proof/Machine/Status.lean ====
section
/-! DEFINITION. Status registers and the busy poll (41_status_ready.md, R80 to R87). -/

namespace Sys2Proof.Machine

/-- `X_RDSR1()` (R80). -/
def xReadStatus1 (s : State) : Ran Byte :=
  andThen (sendFrame .frameReadStatus1 s) fun s1 ins => .next (s1, answerAt ins 2)

/-- `X_RDSR2()` (R81). -/
def xReadStatus2 (s : State) : Ran Byte :=
  andThen (sendFrame .frameReadStatus2 s) fun s1 ins => .next (s1, answerAt ins 2)

/-- `ready()` (R84): one fresh status read, true iff BUSY is clear. -/
def ready (s : State) : Ran Bool :=
  andThen (xReadStatus1 s) fun s1 b => .next (s1, statusReady b)

/-- The loop of `ready_wait` (R85, shape by decision D6; log 9): poll; ready ends it with true; else sample the clock;
strictly more than `timeout` since `t0` raises Timeout; else again. The list has one entry for each poll the clock still
allows. -/
def readyLoop (t0 timeout : Time) : List Unit → State → Ran Bool
  | [], _ => .fault .waitStuck
  | _ :: polls, s =>
    andThen (ready s) fun s1 isReady =>
      if isReady then .next (s1, true)
      else if s1.now.2 - t0 > timeout then raiseTimeout s1.now.1
      else readyLoop t0 timeout polls s1.now.1

/-- One entry for each sample the free clock gives until it has advanced `n` more times, now with `stall` repeats ahead
and `advances` advances behind. -/
def freePolls : Nat → Nat → Nat → List Unit
  | 0, _, _ => []
  | n + 1, stall, advances =>
    List.replicate (stall + 1) () ++ freePolls n (Config.freeStall (advances + 1)) (advances + 1)

/-- As many polls as the wait can need: every fixed sample, then the free ones until the counter has advanced by more than
`timeout`. With a frozen counter the polls until the fixed answers and the responder's busy count are used up; after that
nothing ends the wait (U16; log 7). -/
def waitPolls (timeout : Time) (s : State) : List Unit :=
  List.replicate (s.clock.samples.length + s.draws.length + s.env.busyBound + 1) () ++
    (if s.clock.frozen then [] else freePolls (timeout + 1) s.clock.stall s.clock.advances)

/-- `ready_wait(timeout)` (R85). -/
def readyWait (timeout : Time) (s : State) : Ran Bool :=
  readyLoop s.now.2 timeout (waitPolls timeout s.now.1) s.now.1

/-- Frame READ_STATUS_1 on its own (R80). -/
def execFrameReadStatus1 (s : State) : Host.Outcome State Fault Refusal :=
  whenConfigured s fun s => andThen (xReadStatus1 s) fun s1 b => .next (s1, .byte b)

/-- Frame READ_STATUS_2 on its own (R81). -/
def execFrameReadStatus2 (s : State) : Host.Outcome State Fault Refusal :=
  whenConfigured s fun s => andThen (xReadStatus2 s) fun s1 b => .next (s1, .byte b)

/-- `status_register_1()` (R82). -/
def execOpStatusRegister1 (s : State) : Host.Outcome State Fault Refusal :=
  whenConfigured s fun s => andThen (xReadStatus1 s) fun s1 b => .next (s1, .byte b)

/-- `status_register_2()` (R83). -/
def execOpStatusRegister2 (s : State) : Host.Outcome State Fault Refusal :=
  whenConfigured s fun s => andThen (xReadStatus2 s) fun s1 b => .next (s1, .byte b)

/-- `ready()` (R84). -/
def execOpReady (s : State) : Host.Outcome State Fault Refusal :=
  whenConfigured s fun s => andThen (ready s) fun s1 b => .next (s1, .bool b)

/-- `ready_wait(timeout)` (R85). -/
def execOpReadyWait (timeout : Option Time) (s : State) : Host.Outcome State Fault Refusal :=
  whenConfigured s fun s => andThen (readyWait (timeoutOperand timeout) s) fun s1 b => .next (s1, .bool b)

end Sys2Proof.Machine
end

