-- ==== Sys2Proof/Machine/WriteEnable.lean ====
section
/-! DEFINITION. The write-enable handshake, the gate of mutating commands and its recovery (42_write_enable.md, R88 to
R93). -/

namespace Sys2Proof.Machine

/-- `X_WREN()` (R88). -/
def xWriteEnable (s : State) : Ran Unit :=
  andThen (sendFrame .frameWriteEnable s) fun s1 _ => .next (s1, ())

/-- `X_WRDI()` (R89). -/
def xWriteDisable (s : State) : Ran Unit :=
  andThen (sendFrame .frameWriteDisable s) fun s1 _ => .next (s1, ())

/-- `enable_write()` (R90): 0x06, then a status read that must show WRITE_ENABLE set. -/
def enableWrite (s : State) : Ran Bool :=
  andThen (xWriteEnable s) fun s1 _ => andThen (xReadStatus1 s1) fun s2 b => .next (s2, statusWel b)

/-- `disable_write()` (R91): 0x04, then a status read that must show WRITE_ENABLE clear. -/
def disableWrite (s : State) : Ran Bool :=
  andThen (xWriteDisable s) fun s1 _ => andThen (xReadStatus1 s1) fun s2 b => .next (s2, !statusWel b)

/-- `Gate()` (R92): wait (100 ms, decision D29; log 26), then the write-enable handshake; the first failure ends it. -/
def gate (s : State) : Ran Bool :=
  andThen (readyWait tDefaultMs s) fun s1 isReady =>
    if isReady then enableWrite s1 else .next (s1, false)

/-- `Settle(budget)` (R93): wait; on timeout `disable_write()`, its result ignored (decision D24; log 26), and false. -/
def settle (budget : Time) (s : State) : Ran Bool :=
  andThen (readyWait budget s) fun s1 isReady =>
    if isReady then .next (s1, true) else andThen (disableWrite s1) fun s2 _ => .next (s2, false)

/-- A mutating command: the gate, the frame, the settling (R92, R93, R98, R103, R104). -/
def mutate (frame : Instr) (budget : Time) (s : State) : Ran Bool :=
  andThen (gate s) fun s1 passed =>
    if passed then andThen (sendFrame frame s1) fun s2 _ => settle budget s2 else .next (s1, false)

/-- Frame WRITE_ENABLE on its own (R88). -/
def execFrameWriteEnable (s : State) : Host.Outcome State Fault Refusal :=
  whenConfigured s fun s => andThen (xWriteEnable s) fun s1 _ => .next (s1, .unit)

/-- Frame WRITE_DISABLE on its own (R89). -/
def execFrameWriteDisable (s : State) : Host.Outcome State Fault Refusal :=
  whenConfigured s fun s => andThen (xWriteDisable s) fun s1 _ => .next (s1, .unit)

/-- `enable_write()` (R90). -/
def execOpEnableWrite (s : State) : Host.Outcome State Fault Refusal :=
  whenConfigured s fun s => andThen (enableWrite s) fun s1 b => .next (s1, .bool b)

/-- `disable_write()` (R91). -/
def execOpDisableWrite (s : State) : Host.Outcome State Fault Refusal :=
  whenConfigured s fun s => andThen (disableWrite s) fun s1 b => .next (s1, .bool b)

end Sys2Proof.Machine
end

