-- ==== Sys2Proof/Machine/Erase.lean ====
section
/-! DEFINITION. Erase (44_erase.md, R99 to R107). -/

namespace Sys2Proof.Machine

/-- An erase frame on its own: one exchange, nothing kept (R99 to R102). -/
def xErase (frame : Instr) (s : State) : Ran Unit := andThen (sendFrame frame s) fun s1 _ => .next (s1, ())

/-- `EraseGeneric(op, addr, settle)` (R104), with the frame that carries the opcode and the address (decision D14;
log 33). -/
def eraseGeneric (frame : Address → Instr) (addr : Nat) (budget : Time) (s : State) : Ran Bool :=
  mutate (frame (toAddress addr)) budget s

/-- Frame CHIP_ERASE on its own (R99). -/
def execFrameChipErase (s : State) : Host.Outcome State Fault Refusal :=
  whenConfigured s fun s => andThen (xErase .frameChipErase s) fun s1 _ => .next (s1, .unit)

/-- Frame SECTOR_ERASE_4KB on its own (R100). -/
def execFrameSectorErase4KB (addr : Address) (s : State) : Host.Outcome State Fault Refusal :=
  whenConfigured s fun s => andThen (xErase (.frameSectorErase4KB addr) s) fun s1 _ => .next (s1, .unit)

/-- Frame BLOCK_ERASE_32KB on its own (R101). -/
def execFrameBlockErase32KB (addr : Address) (s : State) : Host.Outcome State Fault Refusal :=
  whenConfigured s fun s => andThen (xErase (.frameBlockErase32KB addr) s) fun s1 _ => .next (s1, .unit)

/-- Frame BLOCK_ERASE_64KB on its own (R102). -/
def execFrameBlockErase64KB (addr : Address) (s : State) : Host.Outcome State Fault Refusal :=
  whenConfigured s fun s => andThen (xErase (.frameBlockErase64KB addr) s) fun s1 _ => .next (s1, .unit)

/-- `erase_chip()` (R103). -/
def execOpEraseChip (s : State) : Host.Outcome State Fault Refusal :=
  whenConfigured s fun s => andThen (mutate .frameChipErase tChipEraseMs s) fun s1 b => .next (s1, .bool b)

/-- `erase_sector_4KB(addr)` (R105). -/
def execOpEraseSector4KB (addr : Nat) (s : State) : Host.Outcome State Fault Refusal :=
  whenInDomain (addressInDomain addr)
    (whenConfigured s fun s =>
      andThen (eraseGeneric .frameSectorErase4KB addr tSectorErase4Ms s) fun s1 b => .next (s1, .bool b))

/-- `erase_block_32KB(addr)` (R106). -/
def execOpEraseBlock32KB (addr : Nat) (s : State) : Host.Outcome State Fault Refusal :=
  whenInDomain (addressInDomain addr)
    (whenConfigured s fun s =>
      andThen (eraseGeneric .frameBlockErase32KB addr tBlockErase32Ms s) fun s1 b => .next (s1, .bool b))

/-- `erase_block_64KB(addr)` (R107). -/
def execOpEraseBlock64KB (addr : Nat) (s : State) : Host.Outcome State Fault Refusal :=
  whenInDomain (addressInDomain addr)
    (whenConfigured s fun s =>
      andThen (eraseGeneric .frameBlockErase64KB addr tBlockErase64Ms s) fun s1 b => .next (s1, .bool b))

end Sys2Proof.Machine
end

