-- ==== Sys2Proof/Machine/ErrorOps.lean ====
section
/-! DEFINITION. The error-slot operations (47_error_ops.md, R126, R127): no event, allowed before `begin` (R79). -/

namespace Sys2Proof.Machine

/-- `error_code()` (R126): the slot's value, unchanged by reading (decision D18; log 21). -/
def execOpErrorCode (s : State) : Host.Outcome State Fault Refusal := complete (.next (s, .code s.err))

/-- `clear_error()` (R127): `H.ERR <- NONE` (decision D18; log 21). -/
def execOpClearError (s : State) : Host.Outcome State Fault Refusal := complete (.next (clearError s, .unit))

end Sys2Proof.Machine
end

