-- ==== Sys2Proof/Machine/Identification.lean ====
section
/-! DEFINITION. Initialisation and identification (45_identification.md, R108 to R116). -/

namespace Sys2Proof.Machine

/-- `X_MFRDEV()` (R108): the only writer of both IDs. -/
def xMfrDeviceId (s : State) : Ran Unit :=
  andThen (sendFrame .frameMfrDeviceId s) fun s1 ins => .next (s1.setIds (answerAt ins 5) (answerAt ins 6), ())

/-- `X_JEDEC()` (R111): `(m, t, c)`. -/
def xJedecId (s : State) : Ran (List Byte) :=
  andThen (sendFrame .frameJedecId s) fun s1 ins => .next (s1, keptAnswers (keptPositions .frameJedecId) ins)

/-- `X_UID()` (R113): `u_0 .. u_7`. -/
def xReadUniqueId (s : State) : Ran (List Byte) :=
  andThen (sendFrame .frameReadUniqueId s) fun s1 ins => .next (s1, keptAnswers (keptPositions .frameReadUniqueId) ins)

/-- `X_SFDP(a)` (R115). -/
def xReadSfdp (a : Byte) (s : State) : Ran Byte :=
  andThen (sendFrame (.frameReadSfdp a) s) fun s1 ins => .next (s1, answerAt ins 6)

/-- "initializes the chip-select line as an output" (R109): `PinOut(H.CS_LINE)`, S.CONFIGURED becomes true. The line's
level is unspecified from here to the first `CsLow` (decision D25; log 24). -/
def configureLine (s : State) : State :=
  { s with trace := s.trace ++ [.pinOut s.csLine], configured := true, csLevel := .unspecified }

/-- `begin()` (R109). -/
def beginBlock (s : State) : Ran Unit := xMfrDeviceId (configureLine s)

/-- Frame MFR_DEVICE_ID on its own (R108). -/
def execFrameMfrDeviceId (s : State) : Host.Outcome State Fault Refusal :=
  whenConfigured s fun s => andThen (xMfrDeviceId s) fun s1 _ => .next (s1, .unit)

/-- Frame JEDEC_ID on its own (R111). -/
def execFrameJedecId (s : State) : Host.Outcome State Fault Refusal :=
  whenConfigured s fun s => andThen (xJedecId s) fun s1 bs => .next (s1, .bytes bs)

/-- Frame READ_UNIQUE_ID on its own (R113). -/
def execFrameReadUniqueId (s : State) : Host.Outcome State Fault Refusal :=
  whenConfigured s fun s => andThen (xReadUniqueId s) fun s1 bs => .next (s1, .bytes bs)

/-- Frame READ_SFDP on its own (R115). -/
def execFrameReadSfdp (a : Byte) (s : State) : Host.Outcome State Fault Refusal :=
  whenConfigured s fun s => andThen (xReadSfdp a s) fun s1 b => .next (s1, .byte b)

/-- `begin()` (R109). -/
def execOpBegin (s : State) : Host.Outcome State Fault Refusal :=
  complete (andThen (beginBlock s) fun s1 _ => .next (s1, .unit))

/-- `begin(cs)` (R110): H.CS_LINE first, then `begin`. -/
def execOpBeginCs (cs : LineId) (s : State) : Host.Outcome State Fault Refusal :=
  complete (andThen (beginBlock (s.setCsLine cs)) fun s1 _ => .next (s1, .unit))

/-- `jedec_id()` (R112): manufacturer in the high byte; the handle's IDs are not written (decision D15; log 22). -/
def execOpJedecId (s : State) : Host.Outcome State Fault Refusal :=
  whenConfigured s fun s =>
    andThen (xJedecId s) fun s1 bs => .next (s1, .u24 (packJedec (answerAt bs 1) (answerAt bs 2) (answerAt bs 3)))

/-- `read_unique_id()` (R114). -/
def execOpReadUniqueId (s : State) : Host.Outcome State Fault Refusal :=
  whenConfigured s fun s => andThen (xReadUniqueId s) fun s1 bs => .next (s1, .u64 (packUid bs))

/-- `read_sfdp_register(addr)` (R116). -/
def execOpReadSfdpRegister (addr : Nat) (s : State) : Host.Outcome State Fault Refusal :=
  whenInDomain (sfdpAddressInDomain addr)
    (whenConfigured s fun s => andThen (xReadSfdp (BitVec.ofNat 8 addr) s) fun s1 b => .next (s1, .byte b))

end Sys2Proof.Machine
end

