-- ==== Sys2Proof/Machine/PowerReset.lean ====
section
/-! DEFINITION. Power management and reset of the chip (46_power_reset.md, R117 to R125). "None of the five writes any
state of the block or can fail." -/

namespace Sys2Proof.Machine

/-- `X_PD()` (R117). -/
def xPowerDown (s : State) : Ran Unit := andThen (sendFrame .framePowerDown s) fun s1 _ => .next (s1, ())

/-- `X_RPD()` (R118). -/
def xReleasePowerDown (s : State) : Ran Unit :=
  andThen (sendFrame .frameReleasePowerDown s) fun s1 _ => .next (s1, ())

/-- `X_RPDID()` (R119). -/
def xReleasePowerDownId (s : State) : Ran Byte :=
  andThen (sendFrame .frameReleasePowerDownId s) fun s1 ins => .next (s1, answerAt ins 5)

/-- `X_RSTEN()` (R120). -/
def xEnableReset (s : State) : Ran Unit := andThen (sendFrame .frameEnableReset s) fun s1 _ => .next (s1, ())

/-- `X_RST()` (R121). -/
def xReset (s : State) : Ran Unit := andThen (sendFrame .frameReset s) fun s1 _ => .next (s1, ())

/-- Frame POWER_DOWN on its own (R117). -/
def execFramePowerDown (s : State) : Host.Outcome State Fault Refusal :=
  whenConfigured s fun s => andThen (xPowerDown s) fun s1 _ => .next (s1, .unit)

/-- Frame RELEASE_POWER_DOWN on its own (R118). -/
def execFrameReleasePowerDown (s : State) : Host.Outcome State Fault Refusal :=
  whenConfigured s fun s => andThen (xReleasePowerDown s) fun s1 _ => .next (s1, .unit)

/-- Frame RELEASE_POWER_DOWN_ID on its own (R119). -/
def execFrameReleasePowerDownId (s : State) : Host.Outcome State Fault Refusal :=
  whenConfigured s fun s => andThen (xReleasePowerDownId s) fun s1 b => .next (s1, .byte b)

/-- Frame ENABLE_RESET on its own (R120). -/
def execFrameEnableReset (s : State) : Host.Outcome State Fault Refusal :=
  whenConfigured s fun s => andThen (xEnableReset s) fun s1 _ => .next (s1, .unit)

/-- Frame RESET on its own (R121). -/
def execFrameReset (s : State) : Host.Outcome State Fault Refusal :=
  whenConfigured s fun s => andThen (xReset s) fun s1 _ => .next (s1, .unit)

/-- `power_down()` (R122): one exchange, no polling, no delay. -/
def execOpPowerDown (s : State) : Host.Outcome State Fault Refusal :=
  whenConfigured s fun s => andThen (xPowerDown s) fun s1 _ => .next (s1, .unit)

/-- `release_power_down()` (R123): the exchange, then the settle delay. -/
def execOpReleasePowerDown (s : State) : Host.Outcome State Fault Refusal :=
  whenConfigured s fun s => andThen (xReleasePowerDown s) fun s1 _ => .next (delayUs tReleaseUs s1, .unit)

/-- `release_power_down_id()` (R124): the device ID, after the same delay; H.DEV_ID is not written (decision D15;
log 22). -/
def execOpReleasePowerDownId (s : State) : Host.Outcome State Fault Refusal :=
  whenConfigured s fun s => andThen (xReleasePowerDownId s) fun s1 d => .next (delayUs tReleaseUs s1, .byte d)

/-- `reset()` (R125): 0x66 and 0x99 back to back, then the settle delay. The reset is of the chip, not of the block. -/
def execOpReset (s : State) : Host.Outcome State Fault Refusal :=
  whenConfigured s fun s =>
    andThen (xEnableReset s) fun s1 _ =>
      andThen (xReset s1) fun s2 _ => .next (delayUs tResetUs s2, .unit)

end Sys2Proof.Machine
end

