-- ==== Sys2Proof/Machine/ReadProgram.lean ====
section
/-! DEFINITION. Array read and page program (43_read_program.md, R94 to R98). -/

namespace Sys2Proof.Machine

/-- `X_READ(addr, N)` (R94). -/
def xReadBytes (addr : Address) (n : Nat) (s : State) : Ran (List Byte) :=
  andThen (sendFrame (.frameReadBytes addr n) s) fun s1 ins =>
    .next (s1, keptAnswers (keptPositions (.frameReadBytes addr n)) ins)

/-- `X_PP(addr, d)` (R95). -/
def xPageProgram (addr : Address) (payload : List Byte) (s : State) : Ran Unit :=
  andThen (sendFrame (.framePageProgram addr payload) s) fun s1 _ => .next (s1, ())

/-- `read(addr, len)` (R96): wait; on timeout fail, with no 0x03 frame (decision D10; log 19); else the frame, and
H.ERR becomes NONE. -/
def readArray (addr : Address) (len : Nat) (s : State) : Ran (Option (List Byte)) :=
  andThen (readyWait tDefaultMs s) fun s1 isReady =>
    if isReady then andThen (xReadBytes addr len s1) fun s2 bs => .next (clearError s2, some bs)
    else .next (s1, none)

/-- `ok(bytes) | fail` of `read(addr, len)` (R12, R96). -/
def readResult : Option (List Byte) → Result
  | some bs => .okBytes bs
  | none => .fail

/-- `ok(byte) | fail` of `read(addr)`: the one byte of `read(addr, 1)` (R97). -/
def readByteResult : Option (List Byte) → Result
  | some bs => .okByte (answerAt bs 1)
  | none => .fail

/-- Frame READ_BYTES on its own (R94). -/
def execFrameReadBytes (addr : Address) (n : Nat) (s : State) : Host.Outcome State Fault Refusal :=
  whenConfigured s fun s => andThen (xReadBytes addr n s) fun s1 bs => .next (s1, .bytes bs)

/-- Frame PAGE_PROGRAM on its own (R95): a payload above 256 bytes is outside its format. -/
def execFramePageProgram (addr : Address) (payload : List Byte) (s : State) : Host.Outcome State Fault Refusal :=
  whenInDomain (payloadInDomain payload)
    (whenConfigured s fun s => andThen (xPageProgram addr payload s) fun s1 _ => .next (s1, .unit))

/-- `read(addr, len)` (R96). -/
def execOpRead (addr len : Nat) (s : State) : Host.Outcome State Fault Refusal :=
  whenInDomain (addressInDomain addr)
    (whenConfigured s fun s => andThen (readArray (toAddress addr) len s) fun s1 r => .next (s1, readResult r))

/-- `read(addr)`: `read(addr, 1)` with its byte unwrapped (R74, R97). -/
def execOpReadByte (addr : Nat) (s : State) : Host.Outcome State Fault Refusal :=
  whenInDomain (addressInDomain addr)
    (whenConfigured s fun s => andThen (readArray (toAddress addr) 1 s) fun s1 r => .next (s1, readByteResult r))

/-- `write_page(addr, bytes)` (R98). -/
def execOpWritePage (addr : Nat) (bytes : List Byte) (s : State) : Host.Outcome State Fault Refusal :=
  whenInDomain (addressInDomain addr && payloadInDomain bytes)
    (whenConfigured s fun s =>
      andThen (mutate (.framePageProgram (toAddress addr) bytes) tPageProgramMs s) fun s1 b => .next (s1, .bool b))

end Sys2Proof.Machine
end

