-- ==== Sys2Proof/Machine/Dispatch.lean ====
section
/-! DEFINITION. The dispatch: one arm per instruction, each one call of its meaning. -/

namespace Sys2Proof.Machine

def exec (i : Instr) (s : State) : Host.Outcome State Fault Refusal :=
  match i with
  | .frameReadStatus1 => Sys2Proof.Machine.execFrameReadStatus1 s
  | .frameReadStatus2 => Sys2Proof.Machine.execFrameReadStatus2 s
  | .frameWriteEnable => Sys2Proof.Machine.execFrameWriteEnable s
  | .frameWriteDisable => Sys2Proof.Machine.execFrameWriteDisable s
  | .frameReadBytes addr n => Sys2Proof.Machine.execFrameReadBytes addr n s
  | .framePageProgram addr payload => Sys2Proof.Machine.execFramePageProgram addr payload s
  | .frameChipErase => Sys2Proof.Machine.execFrameChipErase s
  | .frameSectorErase4KB addr => Sys2Proof.Machine.execFrameSectorErase4KB addr s
  | .frameBlockErase32KB addr => Sys2Proof.Machine.execFrameBlockErase32KB addr s
  | .frameBlockErase64KB addr => Sys2Proof.Machine.execFrameBlockErase64KB addr s
  | .frameMfrDeviceId => Sys2Proof.Machine.execFrameMfrDeviceId s
  | .frameJedecId => Sys2Proof.Machine.execFrameJedecId s
  | .frameReadUniqueId => Sys2Proof.Machine.execFrameReadUniqueId s
  | .frameReadSfdp a => Sys2Proof.Machine.execFrameReadSfdp a s
  | .framePowerDown => Sys2Proof.Machine.execFramePowerDown s
  | .frameReleasePowerDown => Sys2Proof.Machine.execFrameReleasePowerDown s
  | .frameReleasePowerDownId => Sys2Proof.Machine.execFrameReleasePowerDownId s
  | .frameEnableReset => Sys2Proof.Machine.execFrameEnableReset s
  | .frameReset => Sys2Proof.Machine.execFrameReset s
  | .opBegin => Sys2Proof.Machine.execOpBegin s
  | .opBeginCs cs => Sys2Proof.Machine.execOpBeginCs cs s
  | .opStatusRegister1 => Sys2Proof.Machine.execOpStatusRegister1 s
  | .opStatusRegister2 => Sys2Proof.Machine.execOpStatusRegister2 s
  | .opReady => Sys2Proof.Machine.execOpReady s
  | .opReadyWait timeout => Sys2Proof.Machine.execOpReadyWait timeout s
  | .opRead addr len => Sys2Proof.Machine.execOpRead addr len s
  | .opReadByte addr => Sys2Proof.Machine.execOpReadByte addr s
  | .opWritePage addr bytes => Sys2Proof.Machine.execOpWritePage addr bytes s
  | .opEraseChip => Sys2Proof.Machine.execOpEraseChip s
  | .opEraseSector4KB addr => Sys2Proof.Machine.execOpEraseSector4KB addr s
  | .opEraseBlock32KB addr => Sys2Proof.Machine.execOpEraseBlock32KB addr s
  | .opEraseBlock64KB addr => Sys2Proof.Machine.execOpEraseBlock64KB addr s
  | .opEnableWrite => Sys2Proof.Machine.execOpEnableWrite s
  | .opDisableWrite => Sys2Proof.Machine.execOpDisableWrite s
  | .opJedecId => Sys2Proof.Machine.execOpJedecId s
  | .opReadUniqueId => Sys2Proof.Machine.execOpReadUniqueId s
  | .opReadSfdpRegister addr => Sys2Proof.Machine.execOpReadSfdpRegister addr s
  | .opPowerDown => Sys2Proof.Machine.execOpPowerDown s
  | .opReleasePowerDown => Sys2Proof.Machine.execOpReleasePowerDown s
  | .opReleasePowerDownId => Sys2Proof.Machine.execOpReleasePowerDownId s
  | .opReset => Sys2Proof.Machine.execOpReset s
  | .opErrorCode => Sys2Proof.Machine.execOpErrorCode s
  | .opClearError => Sys2Proof.Machine.execOpClearError s

end Sys2Proof.Machine
end

