-- ==== Sys2Proof/Machine/Step.lean ====
section
/-! DEFINITION. One step: the caller's next operation runs to completion; with none the block waits. -/

namespace Sys2Proof.Machine

/-- One step: the caller invokes its next operation, one atomic transition (R25, R46); when it returns, one more operation
has returned (D19). Only the 24 operations of R73 are the public surface: a frame routine is internal and the caller cannot
invoke it (R71, R74). With nothing to invoke "the block waits for the caller's first operation" (R30; log 16). A frame
routine placed from outside runs first and alone (log 15). -/
def step (s : State) : Host.Outcome State Fault Refusal :=
  match s.loneFrame with
  | some i => onNext State.clearLone (exec i s)
  | none =>
    match s.pending with
    | [] => .next s
    | i :: _ => if i.isFrame then .refused .notPublic else onNext State.advance (exec i s)

/-- `s` with the routine of the frame that a table word decodes to placed to run alone, the line configured as `begin`
leaves it so that a frame has a meaning (R79; log 15, log 16). A word that is no frame of R69 places nothing: the block
decodes no opcode and has no illegal-instruction condition (R71). -/
def State.withFetchWord (s : State) (nbits w : Nat) : State :=
  { s with loneFrame := decodeTableWord nbits w, configured := true }

end Sys2Proof.Machine
end

