-- ==== Sys2Proof/Machine/BusyPoll.lean ====
section
/-! DEFINITION. The busy-poll state machine of R86, the small-step view of `ready_wait` (decision D22). Its registers are
alive only during one wait, so they are no field of State. -/

namespace Sys2Proof.Machine

/-- The states of R86. -/
inductive PollPhase where
  | pIdle | pStart | pPoll | pDecode | pTime | pDoneOk | pDoneTo
  deriving DecidableEq, Repr

/-- The registers of R86: the state, the timeout operand `T`, `t0`, the last status byte `s`, and what the wait has
returned. -/
structure PollRegs where
  phase : PollPhase
  timeout : Time
  t0 : Time
  status : Byte
  returned : Option Bool
  deriving DecidableEq, Repr

/-- "a call `ready_wait(timeout)` loads `T <- timeout`": from `P_IDLE` to `P_START`. -/
def PollRegs.call (timeout : Time) : PollRegs := ⟨.pStart, timeout, 0, 0, none⟩

/-- One transition of R86: the action on entry of the current state, and the next state. -/
def pollStep (r : PollRegs) (s : State) : Ran PollRegs :=
  match r.phase with
  | .pIdle => .next (s, r)
  | .pStart => .next (s.now.1, { r with phase := .pPoll, t0 := s.now.2 })
  | .pPoll => andThen (xReadStatus1 s) fun s1 b => .next (s1, { r with phase := .pDecode, status := b })
  | .pDecode => .next (s, { r with phase := if statusReady r.status then .pDoneOk else .pTime })
  | .pTime =>
    .next (s.now.1, { r with phase := if s.now.2 - r.t0 > r.timeout then .pDoneTo else .pPoll })
  | .pDoneOk => .next (s, { r with phase := .pIdle, returned := some true })
  | .pDoneTo => .next (s.setErr .timeout, { r with phase := .pIdle, returned := some false })

/-- `n` transitions. -/
def pollRun : Nat → PollRegs → State → Ran PollRegs
  | 0, r, s => .next (s, r)
  | n + 1, r, s => andThen (pollStep r s) fun s1 r1 => pollRun n r1 s1

end Sys2Proof.Machine
end

