-- ==== Sys2Proof/Safety.lean ====
section
/-! DEFINITION. The terms claims are stated in: quiet states, what stays the same, the event sequences of the rules, a
checker of traces, and the invariants of the machine. -/

namespace Sys2Proof.Machine

/-! ### States -/

/-- No bracket and no transaction open: "Between operations `S.CS_ACTIVE` and `S.TXN_OPEN` are always false" (R26). -/
abbrev Idle (s : State) : Prop := s.csActive = false ∧ s.txnOpen = false

/-- An idle state after `begin`: every operation has a meaning (R79). -/
abbrev Usable (s : State) : Prop := Idle s ∧ s.configured = true

/-- The fairness assumption of D26: the counter eventually advances (log 7). -/
abbrev ClockLive (s : State) : Prop := s.clock.frozen = false

/-- The chip is the reference responder `c`, awake and not busy. -/
abbrev ChipAwake (s : State) (c : Chip) : Prop :=
  s.env = .responder c ∧ c.pd = false ∧ c.nBusy = .reads 0

/-! ### What stays the same -/

/-- H.CS_LINE, H.MFR_ID and H.DEV_ID are unchanged. -/
abbrev SameLineAndIds (s t : State) : Prop := t.csLine = s.csLine ∧ t.mfrId = s.mfrId ∧ t.devId = s.devId

/-- The whole Device Handle is unchanged (R13). -/
abbrev SameHandle (s t : State) : Prop := SameLineAndIds s t ∧ t.err = s.err

/-- S.CS_ACTIVE, S.TXN_OPEN, S.CONFIGURED and the bound transport are unchanged. -/
abbrev SameControl (s t : State) : Prop :=
  t.csActive = s.csActive ∧ t.txnOpen = s.txnOpen ∧ t.configured = s.configured ∧ t.hasTxn = s.hasTxn

/-- The caller's list of operations, the operation index and the place of a lone frame routine are unchanged. -/
abbrev SameCaller (s t : State) : Prop := t.pending = s.pending ∧ t.opIndex = s.opIndex ∧ t.loneFrame = s.loneFrame

/-- The byte of the flash array at `a`, where the chip is the responder and has that address. -/
def State.arrayByte (s : State) (a : Nat) : Option Byte :=
  match s.env with
  | .responder c => if a < c.flashBytes then some (c.mem.read a) else none
  | .anyChip => none

/-- Every byte of the flash array reads as before. -/
abbrev SameArray (s t : State) : Prop := ∀ a, t.arrayByte a = s.arrayByte a

/-- From `s` to `t` byte `i` of the payload landed at `(page_base) + ((i + A_low) mod 256)` as `old & data`, and every
other byte of the array is unchanged (R39, R43). -/
def ProgramsPage (s t : State) (addr : Nat) (bytes : List Byte) : Prop :=
  (∀ (i : Nat) (h : i < bytes.length), t.arrayByte (addr / 256 * 256 + (i + addr % 256) % 256) =
    (s.arrayByte (addr / 256 * 256 + (i + addr % 256) % 256)).map (· &&& bytes[i])) ∧
  ∀ a, (∀ i < bytes.length, a ≠ addr / 256 * 256 + (i + addr % 256) % 256) → t.arrayByte a = s.arrayByte a

/-- From `s` to `t` the `size` bytes at `addr` became 0xFF, and every other byte of the array is unchanged (R43, R59). -/
def ErasesUnit (s t : State) (addr size : Nat) : Prop :=
  (∀ a, addr ≤ a → a < addr + size → t.arrayByte a = some 0xFF) ∧
  ∀ a, a < addr ∨ addr + size ≤ a → t.arrayByte a = s.arrayByte a

/-! ### The events of the rules -/

/-- The events of one exchange of the bytes `out`, answered by `ins` (R77): `CsLow(l)`, [`TxnBegin`], one `Xfer` per
byte, [`TxnEnd`], `CsHigh(l)`, the bracketed events exactly when HAS_TXN. -/
def exchangeEvents (line : LineId) (txn : Bool) (out ins : List Byte) : List Event :=
  .csLow line :: (if txn then [.txnBegin] else []) ++ List.zipWith .xfer out ins
    ++ (if txn then [.txnEnd] else []) ++ [.csHigh line]

/-- The same, on the line and transport of `s`. -/
abbrev State.bracket (s : State) (out ins : List Byte) : List Event := exchangeEvents s.csLine s.hasTxn out ins

/-- `exec i s` is one exchange of exactly the bytes `out`, with some answers `ins`, returning `res ins`; the chip takes
the frame; the line ends high; everything else of the block, the clock and the caller's side is unchanged. -/
def IsOneExchange (i : Instr) (s : State) (out : List Byte) (res : List Byte → Result) : Prop :=
  ∃ t ins, exec i s = .next t ∧ ins.length = out.length ∧ t.trace = s.trace ++ s.bracket out ins ∧
    t.result = some (res ins) ∧ t.env = s.env.endFrame out ∧ t.csLevel = .high ∧
    SameHandle s t ∧ SameControl s t ∧ SameCaller s t ∧ t.clock = s.clock

/-- The opcodes of the brackets of a trace, in order. -/
def opcodesSent : List Event → List Byte
  | [] => []
  | .csLow _ :: .txnBegin :: .xfer o _ :: rest => o :: opcodesSent rest
  | .csLow _ :: .xfer o _ :: rest => o :: opcodesSent rest
  | _ :: rest => opcodesSent rest

/-- The clock samples of a trace, in order. -/
def clockSamples : List Event → List Time
  | [] => []
  | .now t :: rest => t :: clockSamples rest
  | _ :: rest => clockSamples rest

/-- The line an event names, if any. -/
def eventLine : Event → Option LineId
  | .pinOut l => some l
  | .csLow l => some l
  | .csHigh l => some l
  | _ => none

/-- One poll of a wait that found the chip busy: the answers of its status read and the clock sample after it. -/
structure FailedPoll where
  first : Byte
  status : Byte
  sample : Time

/-- The events of the failed polls of a wait (R85: "each failed poll followed by `now=t`"). -/
def failedPollEvents (s : State) : List FailedPoll → List Event
  | [] => []
  | p :: rest => s.bracket [0x05, 0x00] [p.first, p.status] ++ .now p.sample :: failedPollEvents s rest

/-- Every poll found BUSY set: bit 0 of its status is 1 (R21, R84). -/
def FoundBusy (polls : List FailedPoll) : Prop := ∀ p ∈ polls, p.status.getLsbD 0 = true

/-- Every sample of the polls is within `timeout` of the start `t0`. -/
def WithinTime (t0 timeout : Time) (polls : List FailedPoll) : Prop := ∀ p ∈ polls, p.sample - t0 ≤ timeout

/-- The sample of the last poll is the first that is more than `timeout` after the start `t0` (R85, strict). -/
def RanLate (t0 timeout : Time) (polls : List FailedPoll) : Prop :=
  ∃ init last, polls = init ++ [last] ∧ WithinTime t0 timeout init ∧ last.sample - t0 > timeout

/-- The events of a wait up to its last failed poll: the start sample, then the failed polls (R85). -/
def waitEvents (s : State) (t0 : Time) (polls : List FailedPoll) : List Event := .now t0 :: failedPollEvents s polls

/-- The three octets of an address, bits 23–16, 15–8, 7–0, most significant first (R35). -/
def addressOctets (addr : Nat) : List Byte :=
  [BitVec.ofNat 8 (addr / 65536), BitVec.ofNat 8 (addr / 256), BitVec.ofNat 8 addr]

/-! ### A checker of traces -/

/-- Where a trace stands with respect to the bracket. -/
inductive LinkPhase where
  | between
  | selected (line : LineId)
  | inBracket (line : LineId) (sent : List Byte)
  | closing (line : LineId) (sent : List Byte)
  deriving DecidableEq, Repr

/-- The bytes are one of the 19 frames of R69. -/
def isFrameBytes (bytes : List Byte) : Bool :=
  match decode bytes with
  | .ok _ => true
  | .error _ => false

/-- One event of a legal trace (R27, R71, R77): `Xfer` only inside a bracket, `Now`, `DelayUs` and `PinOut` only outside,
transactions exactly when `txn`, and the bytes of each bracket a frame of R69. -/
def scanEvent (txn : Bool) : LinkPhase → Event → Option LinkPhase
  | .between, .csLow l => some (if txn then .selected l else .inBracket l [])
  | .between, .pinOut _ => some .between
  | .between, .now _ => some .between
  | .between, .delayUs _ => some .between
  | .selected l, .txnBegin => some (.inBracket l [])
  | .inBracket l sent, .xfer o _ => some (.inBracket l (sent ++ [o]))
  | .inBracket l sent, .txnEnd => if txn then some (.closing l sent) else none
  | .inBracket l sent, .csHigh l' => if !txn && l == l' && isFrameBytes sent then some .between else none
  | .closing l sent, .csHigh l' => if l == l' && isFrameBytes sent then some .between else none
  | _, _ => none

/-- Scan a trace from `p`; `none` means it broke a rule. -/
def scanTrace (txn : Bool) : LinkPhase → List Event → Option LinkPhase
  | p, [] => some p
  | p, e :: rest =>
    match scanEvent txn p e with
    | some q => scanTrace txn q rest
    | none => none

/-- Every bracket of the trace is opened and closed in order, is a frame of R69, and encloses nothing but transfers. -/
abbrev LegalTrace (s : State) : Prop := scanTrace s.hasTxn .between s.trace = some .between

/-! ### Invariants -/

/-- The responder's array is canonical and lies in the chip; a powered-down chip is not armed (R62) and not busy. -/
def Environment.Ok : Environment → Prop
  | .responder c => c.mem.wf ∧ (∀ x ∈ c.mem, x.1 < c.flashBytes) ∧ (c.armed = true → c.pd = false) ∧
      (c.pd = true → c.nBusy = .reads 0)
  | .anyChip => True

/-- The invariant of the machine between operations: no bracket or transaction is open (R26); after `begin` the line is
high and both IDs hold what the chip answered (R142), before it they hold no value (R30); the chip is as `Environment.Ok`
says. -/
def Inv (s : State) : Prop :=
  Idle s ∧
  (s.configured = true → s.csLevel = .high ∧ s.mfrId ≠ none ∧ s.devId ≠ none) ∧
  (s.configured = false → s.csLevel = .unspecified ∧ s.mfrId = none ∧ s.devId = none) ∧
  s.env.Ok

/-- The clock samples of the trace never decrease, and none exceeds the counter's last answer (R10, decision D5). -/
def ClockOrdered (s : State) : Prop :=
  (clockSamples s.trace).Pairwise (· ≤ ·) ∧ ∀ t ∈ clockSamples s.trace, t ≤ s.clock.last

end Sys2Proof.Machine

namespace Sys2Proof

/-! ### Classes of instructions -/

/-- The operations that have a meaning before `begin` (R79). -/
def Instr.allowedBeforeBegin : Instr → Bool
  | .opBegin | .opBeginCs _ | .opErrorCode | .opClearError => true
  | _ => false

/-- The operations that can raise TIMEOUT, each through a `ready_wait` it calls (R128). -/
def Instr.canTimeOut : Instr → Bool
  | .opReadyWait _ | .opRead _ _ | .opReadByte _ | .opWritePage _ _ => true
  | .opEraseChip | .opEraseSector4KB _ | .opEraseBlock32KB _ | .opEraseBlock64KB _ => true
  | _ => false

/-- The instructions that clear H.ERR: `read` on success, and `clear_error` (R18). -/
def Instr.canClearError : Instr → Bool
  | .opRead _ _ | .opReadByte _ | .opClearError => true
  | _ => false

/-- The instructions that perform the Manufacturer/Device ID exchange (R108). -/
def Instr.writesIds : Instr → Bool
  | .frameMfrDeviceId | .opBegin | .opBeginCs _ => true
  | _ => false

/-- The instructions that send a page-program frame. -/
def Instr.programs : Instr → Bool
  | .framePageProgram _ _ | .opWritePage _ _ => true
  | _ => false

/-- The instructions that send an erase frame. -/
def Instr.erases : Instr → Bool
  | .frameChipErase | .frameSectorErase4KB _ | .frameBlockErase32KB _ | .frameBlockErase64KB _ => true
  | .opEraseChip | .opEraseSector4KB _ | .opEraseBlock32KB _ | .opEraseBlock64KB _ => true
  | _ => false

/-- The instructions that send a chip-reset frame. -/
def Instr.resetsChip : Instr → Bool
  | .frameEnableReset | .frameReset | .opReset => true
  | _ => false

/-- The opcode of the mutating frame of each gated operation (R98, R103, R105 to R107). -/
def Instr.mutatingOpcode : Instr → Option Byte
  | .opWritePage _ _ => some 0x02
  | .opEraseChip => some 0x60
  | .opEraseSector4KB _ => some 0x20
  | .opEraseBlock32KB _ => some 0x52
  | .opEraseBlock64KB _ => some 0xD8
  | _ => none

/-- The bytes of the mutating frame of each gated operation (R95, R99 to R102): opcode, address octets, payload. -/
def Instr.mutatingBytes : Instr → Option (List Byte)
  | .opWritePage addr bytes => some (0x02 :: Machine.addressOctets addr ++ bytes)
  | .opEraseChip => some [0x60]
  | .opEraseSector4KB addr => some (0x20 :: Machine.addressOctets addr)
  | .opEraseBlock32KB addr => some (0x52 :: Machine.addressOctets addr)
  | .opEraseBlock64KB addr => some (0xD8 :: Machine.addressOctets addr)
  | _ => none

/-- The post-condition budget of each gated operation, in milliseconds (R87, R154). -/
def Instr.settleBudget : Instr → Time
  | .opWritePage _ _ => 3
  | .opEraseChip => 100000
  | .opEraseSector4KB _ => 400
  | .opEraseBlock32KB _ => 1600
  | .opEraseBlock64KB _ => 2000
  | _ => 0

/-- The frames each instruction can send: R69, column "emitted by"; a frame on its own sends itself. -/
def Instr.emits : Instr → List Instr
  | .frameReadStatus1 => [.frameReadStatus1]
  | .frameReadStatus2 => [.frameReadStatus2]
  | .frameWriteEnable => [.frameWriteEnable]
  | .frameWriteDisable => [.frameWriteDisable]
  | .frameReadBytes addr n => [.frameReadBytes addr n]
  | .framePageProgram addr payload => [.framePageProgram addr payload]
  | .frameChipErase => [.frameChipErase]
  | .frameSectorErase4KB addr => [.frameSectorErase4KB addr]
  | .frameBlockErase32KB addr => [.frameBlockErase32KB addr]
  | .frameBlockErase64KB addr => [.frameBlockErase64KB addr]
  | .frameMfrDeviceId => [.frameMfrDeviceId]
  | .frameJedecId => [.frameJedecId]
  | .frameReadUniqueId => [.frameReadUniqueId]
  | .frameReadSfdp a => [.frameReadSfdp a]
  | .framePowerDown => [.framePowerDown]
  | .frameReleasePowerDown => [.frameReleasePowerDown]
  | .frameReleasePowerDownId => [.frameReleasePowerDownId]
  | .frameEnableReset => [.frameEnableReset]
  | .frameReset => [.frameReset]
  | .opBegin => [.frameMfrDeviceId]
  | .opBeginCs _ => [.frameMfrDeviceId]
  | .opStatusRegister1 => [.frameReadStatus1]
  | .opStatusRegister2 => [.frameReadStatus2]
  | .opReady => [.frameReadStatus1]
  | .opReadyWait _ => [.frameReadStatus1]
  | .opRead addr len => [.frameReadStatus1, .frameReadBytes (Machine.toAddress addr) len]
  | .opReadByte addr => [.frameReadStatus1, .frameReadBytes (Machine.toAddress addr) 1]
  | .opWritePage addr bytes =>
    [.frameReadStatus1, .frameWriteEnable, .framePageProgram (Machine.toAddress addr) bytes, .frameWriteDisable]
  | .opEraseChip => [.frameReadStatus1, .frameWriteEnable, .frameChipErase, .frameWriteDisable]
  | .opEraseSector4KB addr =>
    [.frameReadStatus1, .frameWriteEnable, .frameSectorErase4KB (Machine.toAddress addr), .frameWriteDisable]
  | .opEraseBlock32KB addr =>
    [.frameReadStatus1, .frameWriteEnable, .frameBlockErase32KB (Machine.toAddress addr), .frameWriteDisable]
  | .opEraseBlock64KB addr =>
    [.frameReadStatus1, .frameWriteEnable, .frameBlockErase64KB (Machine.toAddress addr), .frameWriteDisable]
  | .opEnableWrite => [.frameWriteEnable, .frameReadStatus1]
  | .opDisableWrite => [.frameWriteDisable, .frameReadStatus1]
  | .opJedecId => [.frameJedecId]
  | .opReadUniqueId => [.frameReadUniqueId]
  | .opReadSfdpRegister addr => [.frameReadSfdp (BitVec.ofNat 8 addr)]
  | .opPowerDown => [.framePowerDown]
  | .opReleasePowerDown => [.frameReleasePowerDown]
  | .opReleasePowerDownId => [.frameReleasePowerDownId]
  | .opReset => [.frameEnableReset, .frameReset]
  | .opErrorCode => []
  | .opClearError => []

end Sys2Proof
end

