-- ==== Sys2Proof/Certificates/Slice0/Obligations.lean ====
section
/-! DEFINITION. The statements for the provers. A statement's docstring names the rule it formalises, and the log entry
where it rests on a choice. -/

open Sys2Proof Sys2Proof.Machine

/-! ### Encoding -/

/-- The 19 rows of R69, each written out from its column "bytes sent". -/
def Obligations.WrittenOutFramesDecode : Prop :=
  decode [0x05, 0x00] = .ok .frameReadStatus1 ∧
  decode [0x35, 0x00] = .ok .frameReadStatus2 ∧
  decode [0x06] = .ok .frameWriteEnable ∧
  decode [0x04] = .ok .frameWriteDisable ∧
  decode [0x03, 0x00, 0x12, 0x34, 0x00, 0x00] = .ok (.frameReadBytes 0x001234 2) ∧
  decode [0x02, 0x00, 0x10, 0xFE, 0x11, 0x22, 0x33] = .ok (.framePageProgram 0x0010FE [0x11, 0x22, 0x33]) ∧
  decode [0x60] = .ok .frameChipErase ∧
  decode [0x20, 0x01, 0x20, 0x00] = .ok (.frameSectorErase4KB 0x012000) ∧
  decode [0x52, 0x01, 0x80, 0x00] = .ok (.frameBlockErase32KB 0x018000) ∧
  decode [0xD8, 0x7F, 0x00, 0x00] = .ok (.frameBlockErase64KB 0x7F0000) ∧
  decode [0x90, 0x00, 0x00, 0x00, 0x00, 0x00] = .ok .frameMfrDeviceId ∧
  decode [0x9F, 0x00, 0x00, 0x00] = .ok .frameJedecId ∧
  decode [0x4B, 0x00, 0x00, 0x00, 0x00, 0x00, 0x00, 0x00, 0x00, 0x00, 0x00, 0x00, 0x00] = .ok .frameReadUniqueId ∧
  decode [0x5A, 0x00, 0x00, 0x04, 0x00, 0x00] = .ok (.frameReadSfdp 0x04) ∧
  decode [0xB9] = .ok .framePowerDown ∧
  decode [0xAB] = .ok .frameReleasePowerDown ∧
  decode [0xAB, 0x00, 0x00, 0x00, 0x00] = .ok .frameReleasePowerDownId ∧
  decode [0x66] = .ok .frameEnableReset ∧
  decode [0x99] = .ok .frameReset

/-- Decoding a frame's encoding gives the frame back, for every operand its format admits (R64, R65, R69, R70). -/
def Obligations.DecodeOfEncodeIsTheFrame : Prop :=
  ∀ i : Instr, i.isFrame = true → i.wellFormed = true → decode (encode i) = .ok i

/-- Bytes that decode are exactly the encoding of a well-formed frame: the frames of R69 are all the byte strings the
decoder admits (R71). -/
def Obligations.DecodedBytesAreTheEncoding : Prop :=
  ∀ (bytes : List Byte) (i : Instr), decode bytes = .ok i →
    i.isFrame = true ∧ i.wellFormed = true ∧ encode i = bytes

/-- The three octets of an address, bits 23–16, 15–8, 7–0, in that order, in each of the five frames that carry one (R35,
R65); and the SFDP frame's single address byte after two bytes of 0x00 (R65). Read cycles are sent as 0x00 (R67; decision
D4, log 11). -/
def Obligations.AddressesSentMostSignificantByteFirst : Prop :=
  ∀ (addr : Address) (n : Nat) (payload : List Byte) (a : Byte),
    let octets : List Byte :=
      [BitVec.ofNat 8 (addr.toNat / 65536), BitVec.ofNat 8 (addr.toNat / 256), BitVec.ofNat 8 addr.toNat]
    encode (.frameReadBytes addr n) = 0x03 :: octets ++ List.replicate n 0x00 ∧
    encode (.framePageProgram addr payload) = 0x02 :: octets ++ payload ∧
    encode (.frameSectorErase4KB addr) = 0x20 :: octets ∧
    encode (.frameBlockErase32KB addr) = 0x52 :: octets ∧
    encode (.frameBlockErase64KB addr) = 0xD8 :: octets ∧
    encode (.frameReadSfdp a) = [0x5A, 0x00, 0x00, a, 0x00, 0x00]

/-- R71: a first byte that is none of the 18 opcodes, and an empty bracket, are no frame. -/
def Obligations.UnknownOpcodesRefused : Prop :=
  decode [] = .error .emptyBracket ∧
  ∀ (op : Byte) (rest : List Byte),
    op ∉ ([0x05, 0x35, 0x06, 0x04, 0x03, 0x02, 0x60, 0x20, 0x52, 0xD8, 0x90, 0x9F, 0x4B, 0x5A, 0xB9, 0xAB, 0x66, 0x99] :
      List Byte) → decode (op :: rest) = .error (.unknownOpcode op)

/-! ### Reset and the step -/

/-- What creation leaves (R30, R141): the values the spec gives, which are its decisions D8 and D9 (log 12, log 13, log
24); and no frame routine placed (log 15). -/
def Obligations.ResetLeavesHandleAsCreated : Prop :=
  State.reset.err = .none ∧ State.reset.mfrId = none ∧ State.reset.devId = none ∧
  State.reset.csActive = false ∧ State.reset.txnOpen = false ∧ State.reset.configured = false ∧
  State.reset.csLevel = .unspecified ∧ State.reset.trace = [] ∧ State.reset.opIndex = 0 ∧
  State.reset.loneFrame = none

/-- The three invariants hold right after creation. -/
def Obligations.InvariantsHoldAtReset : Prop :=
  Inv State.reset ∧ LegalTrace State.reset ∧ ClockOrdered State.reset

/-- With the caller's next operation pending, a step is that operation's `exec`, after which it is gone and the operation
index is one more (R25, D19; log 16). A placed frame routine runs first, alone and once, and a table word whose bytes decode
to a frame places exactly it (log 15). -/
def Obligations.StepRunsTheFirstCommand : Prop :=
  (∀ (s : State) (i : Instr) (rest : List Instr), s.loneFrame = none → s.pending = i :: rest → i.isFrame = false →
    (∀ t, exec i s = .next t → step s = .next { t with pending := t.pending.tail, opIndex := t.opIndex + 1 }) ∧
    (∀ r, exec i s = .fault r → step s = .fault r) ∧
    (∀ r, exec i s = .refused r → step s = .refused r)) ∧
  (∀ (s : State) (i : Instr), s.loneFrame = some i →
    (∀ t, exec i s = .next t → step s = .next { t with loneFrame := none }) ∧
    (∀ r, exec i s = .fault r → step s = .fault r) ∧
    (∀ r, exec i s = .refused r → step s = .refused r)) ∧
  ∀ (s : State) (nbits w : Nat) (i : Instr), decode (tableWordBytes nbits w) = .ok i →
    s.withFetchWord nbits w = { s with loneFrame := some i, configured := true }

/-- The caller has the public operations and nothing else (R71, R73, R74): with none pending the block waits (R30), a frame
routine among the pending entries is refused, no step places a frame routine, so a machine without one never has one, and in
such a machine only `begin` and `begin(cs)` change the IDs (R108). (Log 15, log 16.) -/
def Obligations.CallerCannotSendAFrame : Prop :=
  (∀ s : State, s.loneFrame = none → s.pending = [] → step s = .next s) ∧
  (∀ (s : State) (i : Instr) (rest : List Instr), s.loneFrame = none → s.pending = i :: rest → i.isFrame = true →
    step s = .refused .notPublic) ∧
  ∀ s t : State, step s = .next t → t.loneFrame = none ∧
    (s.loneFrame = none → t.mfrId ≠ s.mfrId ∨ t.devId ≠ s.devId →
      ∃ i rest, s.pending = i :: rest ∧ (i = .opBegin ∨ ∃ cs, i = .opBeginCs cs))

/-- A step that runs the caller's operation consumes exactly that one and counts it, whatever the result (R25, D19; log
16); one that runs a placed frame routine consumes and counts no operation (log 15). -/
def Obligations.StepConsumesOneCommand : Prop :=
  ∀ s t : State, step s = .next t →
    (∀ i rest, s.loneFrame = none → s.pending = i :: rest → t.pending = rest ∧ t.opIndex = s.opIndex + 1) ∧
    (∀ i, s.loneFrame = some i → t.pending = s.pending ∧ t.opIndex = s.opIndex)

/-- Every step keeps the invariant: no bracket open between operations (R26), the line high and both IDs held after
`begin` (R142) and none before it (R30), the array canonical and inside the chip, a powered-down chip neither armed (R62)
nor busy. -/
def Obligations.StepKeepsInvariant : Prop :=
  ∀ s t : State, Inv s → step s = .next t → Inv t

/-- Every step keeps the trace legal: brackets open and close in order, on one line, with transactions exactly when the
transport needs them; only transfers inside, no transfer outside; every bracket one of the 19 frames (R27, R71, R77). -/
def Obligations.StepKeepsTraceLegal : Prop :=
  ∀ s t : State, Idle s → LegalTrace s → step s = .next t → LegalTrace t

/-- Every step keeps the clock samples of the trace in order (R10 with decision D5; log 7). -/
def Obligations.StepKeepsClockOrdered : Prop :=
  ∀ s t : State, ClockOrdered s → step s = .next t → ClockOrdered t

/-! ### What runs, what stops -/

/-- After `begin`, with a clock that advances (D26; log 7), every well-formed instruction completes, whatever the chip
answers. -/
def Obligations.EveryInstructionRunsAfterBegin : Prop :=
  ∀ (i : Instr) (s : State), Usable s → ClockLive s → i.wellFormed = true → ∃ t, exec i s = .next t

/-- The only fault is a wait whose clock never advances again (U16), in an operation that waits. -/
def Obligations.OnlyAStoppedClockFaults : Prop :=
  ∀ (i : Instr) (s : State) (r : Fault), Idle s → exec i s = .fault r →
    r = .waitStuck ∧ s.clock.frozen = true ∧ i.canTimeOut = true

/-- Before `begin` every operation but `begin`, `begin(cs)`, `error_code`, `clear_error` is refused (R79, decision D9), and
so is every frame on its own (log 14). -/
def Obligations.RefusedBeforeBegin : Prop :=
  ∀ (i : Instr) (s : State), i.wellFormed = true → i.allowedBeforeBegin = false → s.configured = false →
    exec i s = .refused .notConfigured

/-- An operand outside its domain is refused (R72, decision D13; log 17). -/
def Obligations.OutOfDomainOperandsRefused : Prop :=
  ∀ (i : Instr) (s : State), i.wellFormed = false → exec i s = .refused .operandOutOfDomain

/-- "nesting is forbidden" (R75, R78, decision D27): with a bracket open every instruction but the error-slot operations is
refused, and so is a deselect with none open (R76). -/
def Obligations.NestedSelectRefused : Prop :=
  (∀ (i : Instr) (s : State), i.wellFormed = true → s.configured = true → s.csActive = true →
    i ≠ .opErrorCode → i ≠ .opClearError → exec i s = .refused .nestedSelect) ∧
  ∀ s : State, s.csActive = false → deselect s = .refused .unmatchedDeselect

/-! ### Who writes what -/

/-- Who changes H.ERR (R18, R128): to TIMEOUT only an operation that waits, and it then returns false or fail; to NONE only
a `read` that succeeded, or `clear_error`. -/
def Obligations.ErrorSlotWriters : Prop :=
  ∀ (i : Instr) (s t : State), exec i s = .next t →
    (s.err = .none → t.err = .timeout → i.canTimeOut = true ∧ (t.result = some (.bool false) ∨ t.result = some .fail)) ∧
    (s.err = .timeout → t.err = .none → i = .opClearError ∨
      ((∃ addr len bs, i = .opRead addr len ∧ t.result = some (.okBytes bs)) ∨
        ∃ addr b, i = .opReadByte addr ∧ t.result = some (.okByte b)))

/-- R14: only `begin(cs)` writes H.CS_LINE, and every `CsLow`, `CsHigh` and `PinOut` carries its current value. -/
def Obligations.ChipSelectLineWriters : Prop :=
  ∀ (i : Instr) (s t : State), exec i s = .next t →
    ((∃ cs, i = .opBeginCs cs ∧ t.csLine = cs) ∨ ((∀ cs, i ≠ .opBeginCs cs) ∧ t.csLine = s.csLine)) ∧
    ∃ events, t.trace = s.trace ++ events ∧ ∀ e ∈ events, ∀ l, eventLine e = some l → l = t.csLine

/-- The IDs are written only by the Manufacturer/Device ID exchange (R15, R16, decision D15; log 22). -/
def Obligations.IdWriters : Prop :=
  ∀ (i : Instr) (s t : State), exec i s = .next t → i.writesIds = false → t.mfrId = s.mfrId ∧ t.devId = s.devId

/-- No instruction touches the caller's list, the operation index or the bound transport, none leaves a bracket or a
transaction open (R26), and none but `begin` and `begin(cs)` writes S.CONFIGURED. -/
def Obligations.ControlStateFrame : Prop :=
  ∀ (i : Instr) (s t : State), Idle s → exec i s = .next t →
    SameCaller s t ∧ t.hasTxn = s.hasTxn ∧ Idle t ∧
    ((i ≠ .opBegin ∧ ∀ cs, i ≠ .opBeginCs cs) → t.configured = s.configured)

/-- Reads, status, identification, power and error operations and their frames leave every byte of the array as it was
(R42, R62); so do the reset frames and `reset` on a chip that is not busy (on a busy one the chip's state is open, R54).
The chip is the reference responder (decision D23; log 1). -/
def Obligations.ArrayUntouchedByOtherInstructions : Prop :=
  ∀ (i : Instr) (s t : State), i.programs = false → i.erases = false →
    (i.resetsChip = true → ∀ c, s.env = .responder c → c.nBusy = .reads 0) →
    exec i s = .next t → SameArray s t

/-- "writes can only clear bits" (R43): after a page program, by the frame or by `write_page`, a byte of the array holds
no bit it did not hold before. The chip is the reference responder (decision D23; log 1). -/
def Obligations.ProgramOnlyClearsBits : Prop :=
  ∀ (i : Instr) (s t : State) (a : Nat) (x y : Byte), i.programs = true → exec i s = .next t →
    s.arrayByte a = some x → t.arrayByte a = some y → y &&& x = y

/-- "erase resets a block to all-ones" (R43): after an erase, by a frame or an operation, a byte of the array is as it
was or 0xFF. The chip is the reference responder (decision D23; log 1). -/
def Obligations.EraseOnlyGivesOnes : Prop :=
  ∀ (i : Instr) (s t : State) (a : Nat) (x y : Byte), i.erases = true → exec i s = .next t →
    s.arrayByte a = some x → t.arrayByte a = some y → y = x ∨ y = 0xFF

/-- R69, column "emitted by": every bracket an instruction sends begins with the opcode of a frame the table lets it
emit. -/
def Obligations.EmittedFramesAreTheTables : Prop :=
  ∀ (i : Instr) (s t : State), exec i s = .next t →
    ∃ events, t.trace = s.trace ++ events ∧
      ∀ o ∈ opcodesSent events, ∃ j ∈ i.emits, (encode j).head? = some o

/-! ### Frames on their own -/

/-- R88, R89, R99, R117, R118, R120, R121: the seven frames of format `F_OP` are one exchange of their opcode, keep
nothing and write nothing. That a frame can run on its own is the model's choice (log 15), its unit result too (log
20). -/
def Obligations.OneByteFrames : Prop :=
  ∀ s : State, Usable s →
    IsOneExchange .frameWriteEnable s [0x06] (fun _ => .unit) ∧
    IsOneExchange .frameWriteDisable s [0x04] (fun _ => .unit) ∧
    IsOneExchange .frameChipErase s [0x60] (fun _ => .unit) ∧
    IsOneExchange .framePowerDown s [0xB9] (fun _ => .unit) ∧
    IsOneExchange .frameReleasePowerDown s [0xAB] (fun _ => .unit) ∧
    IsOneExchange .frameEnableReset s [0x66] (fun _ => .unit) ∧
    IsOneExchange .frameReset s [0x99] (fun _ => .unit)

/-- R80 to R84: the two status frames and the operations on them are one exchange `05 00` or `35 00`; the second answer
is the result, unchanged; `ready` is true iff its bit 0 is clear. That a frame can run on its own is the model's choice
(log 15). -/
def Obligations.StatusReads : Prop :=
  ∀ s : State, Usable s →
    IsOneExchange .frameReadStatus1 s [0x05, 0x00] (fun ins => .byte (ins.getD 1 0)) ∧
    IsOneExchange .frameReadStatus2 s [0x35, 0x00] (fun ins => .byte (ins.getD 1 0)) ∧
    IsOneExchange .opStatusRegister1 s [0x05, 0x00] (fun ins => .byte (ins.getD 1 0)) ∧
    IsOneExchange .opStatusRegister2 s [0x35, 0x00] (fun ins => .byte (ins.getD 1 0)) ∧
    IsOneExchange .opReady s [0x05, 0x00] (fun ins => .bool (!(ins.getD 1 0).getLsbD 0))

/-- R100, R101, R102: an addressed erase frame is one exchange of its opcode and the three address octets, most
significant first, and keeps nothing. That a frame can run on its own is the model's choice (log 15), its unit result too
(log 20). -/
def Obligations.AddressedEraseFrames : Prop :=
  ∀ (s : State) (addr : Address), Usable s →
    let octets : List Byte :=
      [BitVec.ofNat 8 (addr.toNat / 65536), BitVec.ofNat 8 (addr.toNat / 256), BitVec.ofNat 8 addr.toNat]
    IsOneExchange (.frameSectorErase4KB addr) s (0x20 :: octets) (fun _ => .unit) ∧
    IsOneExchange (.frameBlockErase32KB addr) s (0x52 :: octets) (fun _ => .unit) ∧
    IsOneExchange (.frameBlockErase64KB addr) s (0xD8 :: octets) (fun _ => .unit)

/-- R94, R95: the read frame sends its header and `n` read cycles and returns the answers to those; the page-program frame
sends its header and the payload as it is, and keeps nothing. That a frame can run on its own is the model's choice (log
15); read cycles send 0x00 by decision D4 (log 11). -/
def Obligations.ReadAndProgramFrames : Prop :=
  ∀ (s : State) (addr : Address) (n : Nat) (payload : List Byte), Usable s → payload.length ≤ 256 →
    let octets : List Byte :=
      [BitVec.ofNat 8 (addr.toNat / 65536), BitVec.ofNat 8 (addr.toNat / 256), BitVec.ofNat 8 addr.toNat]
    IsOneExchange (.frameReadBytes addr n) s (0x03 :: octets ++ List.replicate n 0x00) (fun ins => .bytes (ins.drop 4)) ∧
    IsOneExchange (.framePageProgram addr payload) s (0x02 :: octets ++ payload) (fun _ => .unit)

/-- R111, R113, R115, R119: the JEDEC-ID, unique-ID, SFDP and long release frames write nothing and keep the answers at
positions 2 to 4, 6 to 13, 6 and 5. That a frame can run on its own is the model's choice (log 15). -/
def Obligations.IdentificationFrames : Prop :=
  ∀ (s : State) (a : Byte), Usable s →
    IsOneExchange .frameJedecId s [0x9F, 0, 0, 0] (fun ins => .bytes (ins.drop 1)) ∧
    IsOneExchange .frameReadUniqueId s [0x4B, 0, 0, 0, 0, 0, 0, 0, 0, 0, 0, 0, 0] (fun ins => .bytes (ins.drop 5)) ∧
    IsOneExchange (.frameReadSfdp a) s [0x5A, 0, 0, a, 0, 0] (fun ins => .byte (ins.getD 5 0)) ∧
    IsOneExchange .frameReleasePowerDownId s [0xAB, 0, 0, 0, 0] (fun ins => .byte (ins.getD 4 0))

/-- R108: one exchange of 0x90 and five 0x00; its answers 5 and 6 become H.MFR_ID and H.DEV_ID, and nothing else of the
handle changes. That a frame can run on its own is the model's choice (log 15), its unit result too (log 20). -/
def Obligations.MfrDeviceIdFrameStoresIds : Prop :=
  ∀ s : State, Usable s → ∃ t ins, exec .frameMfrDeviceId s = .next t ∧ ins.length = 6 ∧
    t.trace = s.trace ++ s.bracket [0x90, 0, 0, 0, 0, 0] ins ∧ t.result = some .unit ∧
    t.mfrId = some (ins.getD 4 0) ∧ t.devId = some (ins.getD 5 0) ∧
    t.csLine = s.csLine ∧ t.err = s.err ∧ SameControl s t ∧ SameCaller s t ∧ t.clock = s.clock ∧
    t.env = s.env.endFrame [0x90, 0, 0, 0, 0, 0] ∧ t.csLevel = .high

/-! ### Identification, power, error operations -/

/-- R112: three read cycles after 0x9F, the first answer in the high byte, the third in the low byte; no field of the
handle is written. (Decision D15; log 22.) -/
def Obligations.JedecIdPacksManufacturerHigh : Prop :=
  ∀ s : State, Usable s → IsOneExchange .opJedecId s [0x9F, 0, 0, 0] (fun ins =>
    .u24 (BitVec.ofNat 24 ((ins.getD 1 0).toNat * 65536 + (ins.getD 2 0).toNat * 256 + (ins.getD 3 0).toNat)))

/-- R114: eight answers after four dummy bytes, the first in bits 63:56, the last in bits 7:0. -/
def Obligations.UniqueIdPacksFirstByteHigh : Prop :=
  ∀ s : State, Usable s →
    IsOneExchange .opReadUniqueId s [0x4B, 0, 0, 0, 0, 0, 0, 0, 0, 0, 0, 0, 0] (fun ins =>
      .u64 (BitVec.ofNat 64 ((ins.drop 5).foldl (fun acc b => acc * 256 + b.toNat) 0)))

/-- R116: one exchange `5A 00 00 a 00 00`, the sixth answer is the result. -/
def Obligations.SfdpRegisterReadsOneByte : Prop :=
  ∀ (s : State) (addr : Nat), Usable s → addr < 256 →
    IsOneExchange (.opReadSfdpRegister addr) s [0x5A, 0, 0, BitVec.ofNat 8 addr, 0, 0] (fun ins => .byte (ins.getD 5 0))

/-- R109, R110: from an idle state, configured or not, `begin` configures H.CS_LINE as an output, then performs the 0x90
exchange and stores its answers 5 and 6; `begin(cs)` binds `cs` first. H.ERR is untouched, and the line ends high. -/
def Obligations.BeginPopulatesTheHandle : Prop :=
  ∀ (s : State) (cs : LineId) (i : Instr) (line : LineId), Idle s →
    (i = .opBegin ∧ line = s.csLine ∨ i = .opBeginCs cs ∧ line = cs) →
    ∃ t ins, exec i s = .next t ∧ ins.length = 6 ∧
      t.trace = s.trace ++ .pinOut line :: exchangeEvents line s.hasTxn [0x90, 0, 0, 0, 0, 0] ins ∧
      t.csLine = line ∧ t.mfrId = some (ins.getD 4 0) ∧ t.devId = some (ins.getD 5 0) ∧ t.err = s.err ∧
      t.configured = true ∧ Idle t ∧ t.hasTxn = s.hasTxn ∧ t.csLevel = .high ∧ t.result = some .unit ∧
      SameCaller s t ∧ t.clock = s.clock ∧ t.env = s.env.endFrame [0x90, 0, 0, 0, 0, 0]

/-- R122, R123, R124: `power_down` is one exchange of 0xB9 and nothing else; the releases are one exchange of 0xAB, short
or long, and then the settle delay of 3 microseconds (decision D16; log 23); the long one returns its fifth answer. -/
def Obligations.PowerOperations : Prop :=
  ∀ s : State, Usable s →
    IsOneExchange .opPowerDown s [0xB9] (fun _ => .unit) ∧
    (∃ t ins, exec .opReleasePowerDown s = .next t ∧ ins.length = 1 ∧
      t.trace = s.trace ++ s.bracket [0xAB] ins ++ [.delayUs 3] ∧ t.result = some .unit ∧
      t.env = s.env.endFrame [0xAB] ∧ t.csLevel = .high ∧ SameHandle s t ∧ SameControl s t ∧ SameCaller s t ∧
      t.clock = s.clock) ∧
    ∃ t ins, exec .opReleasePowerDownId s = .next t ∧ ins.length = 5 ∧
      t.trace = s.trace ++ s.bracket [0xAB, 0, 0, 0, 0] ins ++ [.delayUs 3] ∧
      t.result = some (.byte (ins.getD 4 0)) ∧ t.env = s.env.endFrame [0xAB, 0, 0, 0, 0] ∧ t.csLevel = .high ∧
      SameHandle s t ∧ SameControl s t ∧ SameCaller s t ∧ t.clock = s.clock

/-- R125: `reset` is the exchanges 0x66 and 0x99 with no event between them, then the delay of 30 microseconds (decision
D16; log 23); the block's own state is not reset. -/
def Obligations.ResetSendsThePairBackToBack : Prop :=
  ∀ s : State, Usable s → ∃ t i1 i2, exec .opReset s = .next t ∧
    t.trace = s.trace ++ s.bracket [0x66] [i1] ++ s.bracket [0x99] [i2] ++ [.delayUs 30] ∧
    t.env = (s.env.endFrame [0x66]).endFrame [0x99] ∧ t.result = some .unit ∧ t.csLevel = .high ∧
    SameHandle s t ∧ SameControl s t ∧ SameCaller s t ∧ t.clock = s.clock

/-- R126, R127 (decision D18; log 21): `error_code` returns H.ERR and changes nothing else; `clear_error` makes H.ERR NONE
and changes nothing else; neither emits an event, and both run in every state. -/
def Obligations.ErrorSlotOperations : Prop :=
  ∀ s : State, exec .opErrorCode s = .next { s with result := some (.code s.err) } ∧
    exec .opClearError s = .next { s with err := .none, result := some .unit }

/-! ### Write enable -/

/-- R90: exactly two exchanges, 0x06 and then the status read, nothing between; true iff bit 1 of the status is set; H.ERR
and every other field of the handle untouched either way. -/
def Obligations.EnableWriteVerifiesTheLatch : Prop :=
  ∀ s : State, Usable s → ∃ t i1 i2 st, exec .opEnableWrite s = .next t ∧
    t.trace = s.trace ++ s.bracket [0x06] [i1] ++ s.bracket [0x05, 0x00] [i2, st] ∧
    t.result = some (.bool (st.getLsbD 1)) ∧ t.env = (s.env.endFrame [0x06]).endFrame [0x05, 0x00] ∧
    t.csLevel = .high ∧ SameHandle s t ∧ SameControl s t ∧ SameCaller s t ∧ t.clock = s.clock

/-- R91: exactly two exchanges, 0x04 and then the status read; true iff bit 1 of the status is clear; H.ERR untouched. -/
def Obligations.DisableWriteVerifiesTheLatch : Prop :=
  ∀ s : State, Usable s → ∃ t i1 i2 st, exec .opDisableWrite s = .next t ∧
    t.trace = s.trace ++ s.bracket [0x04] [i1] ++ s.bracket [0x05, 0x00] [i2, st] ∧
    t.result = some (.bool (!st.getLsbD 1)) ∧ t.env = (s.env.endFrame [0x04]).endFrame [0x05, 0x00] ∧
    t.csLevel = .high ∧ SameHandle s t ∧ SameControl s t ∧ SameCaller s t ∧ t.clock = s.clock

/-- The source's property (R56, T4): on an awake chip `enable_write` is true, and `status_register_1` right after it
shows bit 1 set and bit 0 clear; `disable_write` is true there, latch set or clear, and leaves it clear. The chip is the
reference responder (decision D23; log 1). -/
def Obligations.LatchShowsInTheStatus : Prop :=
  ∀ (s : State) (c : Chip), Usable s → ChipAwake s c →
    (∃ t u, exec .opEnableWrite s = .next t ∧ t.result = some (.bool true) ∧
      exec .opStatusRegister1 t = .next u ∧ u.result = some (.byte 0x02)) ∧
    ∃ t u, exec .opDisableWrite s = .next t ∧ t.result = some (.bool true) ∧
      exec .opStatusRegister1 t = .next u ∧ u.result = some (.byte 0x00)

/-! ### The wait -/

/-- R85 (loop shape by decision D6; log 9): `ready_wait` samples the clock once, then polls; each failed poll is followed
by one sample. It ends with true at the first poll that shows BUSY clear, every sample so far within the timeout and H.ERR
untouched; or with false and TIMEOUT at the first sample more than the timeout after the start. Without operand the
timeout is 100. -/
def Obligations.ReadyWaitPollsUntilReadyOrLate : Prop :=
  ∀ (s : State) (operand : Option Time), Usable s → ClockLive s →
    let timeout := operand.getD 100
    ∃ t t0 fails, exec (.opReadyWait operand) s = .next t ∧ SameLineAndIds s t ∧ SameControl s t ∧ SameCaller s t ∧
      (∀ p : FailedPoll, p ∈ fails → p.status.getLsbD 0 = true) ∧
      ((t.result = some (.bool true) ∧ t.err = s.err ∧ (∀ p ∈ fails, p.sample - t0 ≤ timeout) ∧
          ∃ first status, status.getLsbD 0 = false ∧
            t.trace = s.trace ++ .now t0 :: failedPollEvents s fails ++ s.bracket [0x05, 0x00] [first, status]) ∨
       (t.result = some (.bool false) ∧ t.err = .timeout ∧ t.trace = s.trace ++ .now t0 :: failedPollEvents s fails ∧
          ∃ init last, fails = init ++ [last] ∧ (∀ p ∈ init, p.sample - t0 ≤ timeout) ∧ last.sample - t0 > timeout))

/-- "called against an already-ready chip returns true immediately without setting any error" (R85, property T3): one
sample, one poll, H.ERR as it was, whatever the timeout and the clock. The chip is the reference responder (decision
D23; log 1). -/
def Obligations.ReadyChipEndsTheWaitAtOnce : Prop :=
  ∀ (s : State) (c : Chip) (operand : Option Time), Usable s → ChipAwake s c →
    ∃ t t0 first status, exec (.opReadyWait operand) s = .next t ∧ t.result = some (.bool true) ∧ SameHandle s t ∧
      SameControl s t ∧ SameCaller s t ∧
      t.trace = s.trace ++ .now t0 :: s.bracket [0x05, 0x00] [first, status] ∧ SameArray s t

/-- Property T3: a wait on a chip that never clears BUSY returns false and sets TIMEOUT, given a clock that advances
(D26). The chip is the reference responder (decision D23; log 1). -/
def Obligations.NeverReadyChipTimesOut : Prop :=
  ∀ (s : State) (c : Chip) (operand : Option Time), Usable s → ClockLive s → s.env = .responder c → c.pd = false →
    c.nBusy = .never → ∃ t, exec (.opReadyWait operand) s = .next t ∧ t.result = some (.bool false) ∧
      t.err = .timeout ∧ SameArray s t

/-- R86: the busy-poll state machine, started by the call, comes back to `P_IDLE` with the state and the result of
`ready_wait` (decision D22). -/
def Obligations.PollMachineIsReadyWait : Prop :=
  ∀ (timeout : Time) (s t : State) (b : Bool), Idle s → readyWait timeout s = .next (t, b) →
    ∃ n r, pollRun n (PollRegs.call timeout) s = .next (t, r) ∧ r.phase = .pIdle ∧ r.returned = some b

/-! ### Mutating operations -/

/-- The protocol of every mutating operation, event by event (R92, R93, R130, budgets R87). It first waits, up to 100 ms
after the start sample. If that runs late: false, TIMEOUT, no further frame. Else 0x06 and a fresh status. If bit 1 of that
status is clear: false, H.ERR unchanged, no further frame. Else the mutating frame, opcode, address octets and payload, and a
second wait with its own start sample, up to the operation's own budget: if it ends in time, true and H.ERR unchanged; if it
runs late, 0x04 and one status read more, false and TIMEOUT. (Decisions D6, D24 and D29; log 9, log 26.) -/
def Obligations.MutatingOperationsFollowTheHandshake : Prop :=
  ∀ (i : Instr) (bytes : List Byte) (s t : State), Usable s → i.mutatingBytes = some bytes → exec i s = .next t →
    SameLineAndIds s t ∧ SameControl s t ∧ SameCaller s t ∧
    ∃ t0 polls, FoundBusy polls ∧
      ((RanLate t0 100 polls ∧ t.trace = s.trace ++ waitEvents s t0 polls ∧
          t.result = some (.bool false) ∧ t.err = .timeout) ∨
       WithinTime t0 100 polls ∧ ∃ a status b c latch, status.getLsbD 0 = false ∧
        let gate := s.trace ++ waitEvents s t0 polls ++ s.bracket [0x05, 0x00] [a, status] ++
          s.bracket [0x06] [b] ++ s.bracket [0x05, 0x00] [c, latch]
        ((latch.getLsbD 1 = false ∧ t.trace = gate ∧ t.result = some (.bool false) ∧ t.err = s.err) ∨
         latch.getLsbD 1 = true ∧ ∃ ins u0 later, ins.length = bytes.length ∧ FoundBusy later ∧
          let sent := gate ++ s.bracket bytes ins ++ waitEvents s u0 later
          ((WithinTime u0 i.settleBudget later ∧ t.result = some (.bool true) ∧ t.err = s.err ∧
              ∃ d done, done.getLsbD 0 = false ∧ t.trace = sent ++ s.bracket [0x05, 0x00] [d, done]) ∨
           (RanLate u0 i.settleBudget later ∧ t.result = some (.bool false) ∧ t.err = .timeout ∧
              ∃ d e f, t.trace = sent ++ s.bracket [0x04] [d] ++ s.bracket [0x05, 0x00] [e, f]))))

/-- R98 with R39, R43, R58: on an awake chip, and a page inside it, `write_page` completes and each payload byte lands
in its page as `old & data`, wrapping there; every other byte is unchanged. When the chip is done at once the result is
true and H.ERR is unchanged. `Environment.Ok` is part of the invariant `Inv` that `StepKeepsInvariant` states. The chip
is the reference responder (decision D23; log 1). -/
def Obligations.WritePageProgramsThePage : Prop :=
  ∀ (s : State) (c : Chip) (addr : Nat) (bytes : List Byte), Usable s → ClockLive s → ChipAwake s c → s.env.Ok →
    addr < 2 ^ 24 → bytes.length ≤ 256 →
    (∀ i < bytes.length, addr / 256 * 256 + (i + addr % 256) % 256 < c.flashBytes) →
    ∃ t, exec (.opWritePage addr bytes) s = .next t ∧ ProgramsPage s t addr bytes ∧ SameLineAndIds s t ∧
      SameControl s t ∧ SameCaller s t ∧
      (c.busyReads.program = .reads 0 → t.result = some (.bool true) ∧ t.err = s.err)

/-- R103, R105 to R107 with R43, R59: on an awake chip, and an aligned unit inside it, each erase operation completes,
the unit becomes 0xFF and every other byte is unchanged. When the chip is done at once the result is true and H.ERR is
unchanged. The unit sizes are R52's (log 32). The chip is the reference responder (decision D23; log 1). -/
def Obligations.EraseOperationsSetTheUnitToOnes : Prop :=
  ∀ (s : State) (c : Chip) (i : Instr) (addr size : Nat) (busy : BusyCount), Usable s → ClockLive s → ChipAwake s c →
    (i = .opEraseSector4KB addr ∧ size = 4096 ∧ busy = c.busyReads.sector ∨
      i = .opEraseBlock32KB addr ∧ size = 32768 ∧ busy = c.busyReads.block32 ∨
      i = .opEraseBlock64KB addr ∧ size = 65536 ∧ busy = c.busyReads.block64 ∨
      i = .opEraseChip ∧ addr = 0 ∧ size = c.flashBytes ∧ busy = c.busyReads.chip) →
    addr < 2 ^ 24 → addr % size = 0 → addr + size ≤ c.flashBytes →
    ∃ t, exec i s = .next t ∧ ErasesUnit s t addr size ∧ SameLineAndIds s t ∧ SameControl s t ∧ SameCaller s t ∧
      (busy = .reads 0 → t.result = some (.bool true) ∧ t.err = s.err)

/-- R58, R59: on an awake chip with the latch set, the program and erase frames on their own change the array as the
operations do; with the latch clear they change no byte (G4; log 32). The chip is the reference responder (decision D23;
log 1). -/
def Obligations.MutatingFramesNeedTheLatch : Prop :=
  ∀ (s : State) (c : Chip) (addr : Address) (payload : List Byte), Usable s → ChipAwake s c → s.env.Ok →
    payload.length ≤ 256 →
    (∀ i < payload.length, addr.toNat / 256 * 256 + (i + addr.toNat % 256) % 256 < c.flashBytes) →
    (∃ t, exec (.framePageProgram addr payload) s = .next t ∧
      (c.wel = true → ProgramsPage s t addr.toNat payload) ∧ (c.wel = false → SameArray s t)) ∧
    (∃ t, exec .frameChipErase s = .next t ∧
      (c.wel = true → ErasesUnit s t 0 c.flashBytes) ∧ (c.wel = false → SameArray s t)) ∧
    ∀ (i : Instr) (size : Nat),
      (i = .frameSectorErase4KB addr ∧ size = 4096 ∨ i = .frameBlockErase32KB addr ∧ size = 32768 ∨
        i = .frameBlockErase64KB addr ∧ size = 65536) →
      addr.toNat % size = 0 → addr.toNat + size ≤ c.flashBytes →
      ∃ t, exec i s = .next t ∧ (c.wel = true → ErasesUnit s t addr.toNat size) ∧ (c.wel = false → SameArray s t)

/-- R40, U1 (log 18): a misaligned erase runs, sends its frame, and leaves a chip of which nothing is known. The chip is
the reference responder (decision D23; log 1). -/
def Obligations.MisalignedEraseLeavesTheChipOpen : Prop :=
  ∀ (s : State) (c : Chip) (i : Instr) (op : Byte) (addr size : Nat), Usable s → ClockLive s → ChipAwake s c →
    (i = .opEraseSector4KB addr ∧ size = 4096 ∨ i = .opEraseBlock32KB addr ∧ size = 32768 ∨
      i = .opEraseBlock64KB addr ∧ size = 65536) →
    i.mutatingOpcode = some op → addr < 2 ^ 24 → addr % size ≠ 0 →
    ∃ t events, exec i s = .next t ∧ t.trace = s.trace ++ events ∧ op ∈ opcodesSent events ∧ t.env = .anyChip

/-- The source's scenario T7: `erase_chip` on an awake chip whose BUSY bit then never clears returns false with TIMEOUT,
its last two exchanges are `disable_write`'s 0x04 and status read, and the array is all ones nevertheless (R93, R147).
The chip is the reference responder (decision D23; log 1). -/
def Obligations.EraseChipThatNeverFinishes : Prop :=
  ∀ (s : State) (c : Chip), Usable s → ClockLive s → ChipAwake s c → c.busyReads.chip = .never →
    ∃ t events m, exec .opEraseChip s = .next t ∧ t.result = some (.bool false) ∧ t.err = .timeout ∧
      t.trace = s.trace ++ events ∧
      opcodesSent events = [0x05, 0x06, 0x05, 0x60] ++ List.replicate (m + 1) 0x05 ++ [0x04, 0x05] ∧
      ∀ a < c.flashBytes, t.arrayByte a = some 0xFF

/-! ### Read -/

/-- R96, event by event: `read` waits up to 100 ms after its start sample. If that runs late: fail, TIMEOUT, no 0x03 frame.
Else it sends one 0x03 frame with the three address octets and `len` read cycles, returns exactly the answers to those, and
H.ERR is NONE. Nothing else of the handle changes. (Decisions D4, D6, D10, D11, D29; log 9, log 11, log 19, log 26.) -/
def Obligations.ReadWaitsThenClearsTheError : Prop :=
  ∀ (s : State) (addr len : Nat), Usable s → ClockLive s → addr < 2 ^ 24 →
    ∃ t t0 polls, exec (.opRead addr len) s = .next t ∧ FoundBusy polls ∧ SameLineAndIds s t ∧ SameControl s t ∧
      SameCaller s t ∧
      ((RanLate t0 100 polls ∧ t.trace = s.trace ++ waitEvents s t0 polls ∧ t.result = some .fail ∧ t.err = .timeout) ∨
       (WithinTime t0 100 polls ∧ ∃ a status ins, status.getLsbD 0 = false ∧ ins.length = 4 + len ∧
          t.trace = s.trace ++ waitEvents s t0 polls ++ s.bracket [0x05, 0x00] [a, status] ++
            s.bracket (0x03 :: addressOctets addr ++ List.replicate len 0x00) ins ∧
          t.result = some (.okBytes (ins.drop 4)) ∧ t.err = .none))

/-- R44, R57, R96, R97: on an awake chip `read(addr,len)` inside the array returns the array bytes at `addr`, `addr +
1`, …, and `read(addr)` the one at `addr`; H.ERR is NONE and no byte of the array changes. The chip is the reference
responder (decision D23; log 1). (Result type: decisions D10, D12; log 19.) -/
def Obligations.ReadReturnsTheArrayBytes : Prop :=
  ∀ (s : State) (c : Chip) (addr len : Nat), Usable s → ChipAwake s c → addr < 2 ^ 24 →
    (addr + len ≤ c.flashBytes → ∃ t bs, exec (.opRead addr len) s = .next t ∧ t.result = some (.okBytes bs) ∧
      bs.length = len ∧ (∀ k < len, s.arrayByte (addr + k) = bs[k]?) ∧ t.err = .none ∧ SameLineAndIds s t ∧
      SameControl s t ∧ SameCaller s t ∧ SameArray s t) ∧
    (addr < c.flashBytes → ∃ t b, exec (.opReadByte addr) s = .next t ∧ t.result = some (.okByte b) ∧
      s.arrayByte addr = some b ∧ t.err = .none ∧ SameLineAndIds s t ∧ SameControl s t ∧ SameCaller s t ∧ SameArray s t)

/-- R97: `read(addr)` is `read(addr, 1)` with its byte unwrapped: the same state but for the result. (Decision D12; log
19.) -/
def Obligations.ReadByteIsReadOfLengthOne : Prop :=
  ∀ (s t : State) (addr : Nat), exec (.opReadByte addr) s = .next t →
    ∃ u, exec (.opRead addr 1) s = .next u ∧ t = { u with result := t.result } ∧
      ((u.result = some .fail ∧ t.result = some .fail) ∨
        ∃ b, u.result = some (.okBytes [b]) ∧ t.result = some (.okByte b))

/-- R44, the source's first property: after an erase, a page written by `write_page` that returned true, with a payload
of at most the remaining-page bytes, reads back as written. The chip is the reference responder (decision D23; log
1). -/
def Obligations.WrittenPageReadsBack : Prop :=
  ∀ (s t : State) (c : Chip) (addr : Nat) (bytes : List Byte), Usable s → s.env = .responder c → s.env.Ok →
    c.pd = false → addr < 2 ^ 24 → bytes.length ≤ 256 - addr % 256 → addr + bytes.length ≤ c.flashBytes →
    (∀ k < bytes.length, s.arrayByte (addr + k) = some 0xFF) →
    exec (.opWritePage addr bytes) s = .next t → t.result = some (.bool true) →
    ∃ u, exec (.opRead addr bytes.length) t = .next u ∧ u.result = some (.okBytes bytes)

/-! ### The chip -/

/-- R55: a status read of a busy, awake chip shows BUSY and the latch, and counts down; the read that takes the count to
0 clears the latch. The chip is the reference responder (decision D23; log 1). -/
def Obligations.StatusReadCountsDown : Prop :=
  ∀ (s : State) (c : Chip) (n : Nat), Usable s → s.env = .responder c → c.pd = false → c.nBusy = .reads (n + 1) →
    ∃ t, exec .opStatusRegister1 s = .next t ∧ t.result = some (.byte (if c.wel then 0x03 else 0x01)) ∧
      t.env = .responder { c with nBusy := .reads n, wel := if n = 0 then false else c.wel, armed := false }

/-- R54 (a), R140: a powered-down chip ignores every frame but 0xAB: whatever other instruction runs, only its reset arm
can change; and either release wakes it. The chip is the reference responder (decision D23; log 1). -/
def Obligations.PoweredDownChipIgnoresFrames : Prop :=
  ∀ (i : Instr) (s t : State) (c : Chip), s.env = .responder c → c.pd = true → c.nBusy = .reads 0 →
    exec i s = .next t →
    (i ∉ [.frameReleasePowerDown, .frameReleasePowerDownId, .opReleasePowerDown, .opReleasePowerDownId] →
      ∃ armed, t.env = .responder { c with armed := armed }) ∧
    (i ∈ [.frameReleasePowerDown, .frameReleasePowerDownId, .opReleasePowerDown, .opReleasePowerDownId] →
      ∃ armed, t.env = .responder { c with pd := false, armed := armed })

/-- R62: on an awake chip `reset` clears the latch and the arm, leaves it ready and its array unchanged; a 0x99 frame on
its own, without the arm, does nothing; and "any instruction issued between 'enable reset' and 'reset' aborts the reset
arm": after any other frame the chip is not armed. The chip is the reference responder (decision D23; log 1). -/
def Obligations.ResetPairResetsTheChip : Prop :=
  ∀ (s : State) (c : Chip), Usable s → ChipAwake s c →
    (∃ t, exec .opReset s = .next t ∧ t.env = .responder { c with wel := false, armed := false }) ∧
    (c.armed = false → ∃ t, exec .frameReset s = .next t ∧ t.env = .responder c) ∧
    ∀ (i : Instr) (t : State) (c' : Chip), i.isFrame = true → i.resetsChip = false → exec i s = .next t →
      t.env = .responder c' → c'.armed = false

/-- R55, R60, R61, and the source's properties T5 and T6: what a chip that is not busy answers is its own. Awake: status
register 1 shows BUSY clear and the latch, so `ready` is true; status register 2 is CHIP_SR2; `begin` stores CHIP_MFR and
CHIP_DEV; `jedec_id` is made of CHIP_MFR, CHIP_JTYPE and CHIP_JCAP; `read_unique_id` of CHIP_UID; `read_sfdp_register` is
CHIP_SFDP[addr]. Awake or powered down: `release_power_down_id` returns CHIP_DEV. The chip is the reference responder
(decision D23; log 1). -/
def Obligations.ChipAnswersItsOwnBytes : Prop :=
  (∀ (s : State) (c : Chip), Usable s → ChipAwake s c →
    (∃ t, exec .opStatusRegister1 s = .next t ∧ t.result = some (.byte (if c.wel then 0x02 else 0x00))) ∧
    (∃ t, exec .opReady s = .next t ∧ t.result = some (.bool true)) ∧
    (∃ t, exec .opStatusRegister2 s = .next t ∧ t.result = some (.byte c.sr2)) ∧
    (∃ t, exec .opJedecId s = .next t ∧ t.result =
      some (.u24 (BitVec.ofNat 24 (c.mfr.toNat * 65536 + c.jtype.toNat * 256 + c.jcap.toNat)))) ∧
    (c.uid.length = 8 → ∃ t, exec .opReadUniqueId s = .next t ∧ t.result =
      some (.u64 (BitVec.ofNat 64 (c.uid.foldl (fun acc b => acc * 256 + b.toNat) 0)))) ∧
    ∀ addr < 256, ∀ v, c.sfdp[addr]? = some v →
      ∃ t, exec (.opReadSfdpRegister addr) s = .next t ∧ t.result = some (.byte v)) ∧
  (∀ (s : State) (c : Chip) (i : Instr), Idle s → ChipAwake s c → (i = .opBegin ∨ ∃ cs, i = .opBeginCs cs) →
    ∃ t, exec i s = .next t ∧ t.mfrId = some c.mfr ∧ t.devId = some c.dev) ∧
  ∀ (s : State) (c : Chip), Usable s → s.env = .responder c → c.nBusy = .reads 0 →
    ∃ t, exec .opReleasePowerDownId s = .next t ∧ t.result = some (.byte c.dev)
end

