-- ==== Sys2Proof/Laws/Memory.lean ====
section
/-! SUPPORT. The flash array: what each operation reads as afterwards, and that each keeps the canonical form. -/

namespace Sys2Proof.Laws

open Sys2Proof.Machine

@[simp] theorem read_nil (a : Nat) : Memory.read [] a = erasedByte := rfl

@[simp] theorem read_cons (c : Host.Cell) (m : Memory) (a : Nat) :
    Memory.read (c :: m) a = if c.1 = a then c.2 else Memory.read m a := rfl

/-- An address listed nowhere reads as erased. -/
theorem read_unlisted {m : Memory} {a : Nat} (h : ∀ c ∈ m, c.1 ≠ a) : m.read a = erasedByte := by
  induction m with
  | nil => rfl
  | cons c m ih => simp [h c List.mem_cons_self, ih fun x hx => h x (List.mem_cons_of_mem _ hx)]

/-- The canonical form of a list with a first cell. -/
theorem wf_cons {c : Host.Cell} {m : Memory} :
    Memory.wf (c :: m) ↔ (∀ x ∈ m, c.1 < x.1) ∧ c.2 ≠ erasedByte ∧ m.wf := by
  simp only [Memory.wf, List.pairwise_cons, List.forall_mem_cons]
  exact ⟨fun h => ⟨h.1.1, h.2.1, h.1.2, h.2.2⟩, fun h => ⟨⟨h.1, h.2.2.1⟩, h.2.1, h.2.2.2⟩⟩

theorem wf_nil : Memory.wf [] := by simp [Memory.wf]

/-! ### Writing a byte -/

/-- Every cell of a written array was there before, or is the one written. -/
theorem mem_write {m : Memory} {a : Nat} {v : Byte} {c : Host.Cell} (h : c ∈ m.write a v) :
    c ∈ m ∨ (c = (a, v) ∧ v ≠ erasedByte) := by
  induction m with
  | nil => unfold Memory.write at h; split at h <;> simp_all
  | cons x m ih =>
    unfold Memory.write at h
    split at h
    · split at h
      · exact .inl h
      · obtain h | h := List.mem_cons.1 h
        · exact .inr ⟨h, ‹_›⟩
        · exact .inl h
    · split at h
      · split at h
        · exact .inl (List.mem_cons_of_mem _ h)
        · obtain h | h := List.mem_cons.1 h
          · exact .inr ⟨h, ‹_›⟩
          · exact .inl (List.mem_cons_of_mem _ h)
      · obtain h | h := List.mem_cons.1 h
        · exact .inl (h ▸ List.mem_cons_self)
        · obtain h | h := ih h
          · exact .inl (List.mem_cons_of_mem _ h)
          · exact .inr h

/-- A write keeps the canonical form. -/
theorem write_wf {m : Memory} (h : m.wf) (a : Nat) (v : Byte) : (m.write a v).wf := by
  induction m with
  | nil => unfold Memory.write; split <;> simp_all [Memory.wf]
  | cons x m ih =>
    obtain ⟨hx, hv, hm⟩ := wf_cons.1 h
    unfold Memory.write
    split
    · split
      · exact h
      · exact wf_cons.2 ⟨by
          intro y hy
          obtain rfl | hy := List.mem_cons.1 hy
          · assumption
          · exact Nat.lt_trans ‹a < x.1› (hx y hy), ‹_›, h⟩
    · split
      · split
        · exact hm
        · subst a; exact wf_cons.2 ⟨hx, ‹_›, hm⟩
      · refine wf_cons.2 ⟨fun y hy => ?_, hv, ih hm⟩
        obtain hy | ⟨rfl, -⟩ := mem_write hy
        · exact hx y hy
        · simp only; omega

/-- What every address of a written array reads as. -/
theorem read_write {m : Memory} (h : m.wf) (a b : Nat) (v : Byte) :
    (m.write a v).read b = if b = a then v else m.read b := by
  induction m with
  | nil =>
    unfold Memory.write
    by_cases hb : b = a
    · subst hb; split <;> simp_all
    · have : a ≠ b := fun h => hb h.symm
      split <;> simp [this]
  | cons x m ih =>
    obtain ⟨hx, hv, hm⟩ := wf_cons.1 h
    have hun : ∀ {k}, k ≤ x.1 → Memory.read m k = erasedByte := fun hk =>
      read_unlisted fun y hy he => by have := hx y hy; omega
    unfold Memory.write
    split
    · have ha : x.1 ≠ a := by omega
      split
      · by_cases hb : b = a
        · subst hb; simp [hun (Nat.le_of_lt ‹_›), *]
        · simp [hb]
      · by_cases hb : b = a
        · subst hb; simp
        · simp [hb, show a ≠ b from fun h => hb h.symm]
    · split
      · subst a
        split
        · by_cases hb : b = x.1
          · subst hb; simp [*]
          · simp [hb, show x.1 ≠ b from fun h => hb h.symm]
        · by_cases hb : b = x.1
          · subst hb; simp
          · simp [hb, show x.1 ≠ b from fun h => hb h.symm]
      · rw [read_cons, read_cons, ih hm]
        by_cases hb : b = a
        · subst hb; simp [show x.1 ≠ b from fun h => by omega]
        · simp [hb]

/-! ### Writing, whatever the list's form -/

/-- A write leaves every other address alone, canonical form or not. -/
theorem read_write_ne (m : Memory) (a b : Nat) (v : Byte) (h : b ≠ a) : (m.write a v).read b = m.read b := by
  have h' : a ≠ b := fun e => h e.symm
  induction m with
  | nil => unfold Memory.write; split <;> simp [h']
  | cons c m ih =>
    unfold Memory.write
    split
    · split <;> simp [h']
    · split
      · subst a; split <;> simp [h']
      · simp [ih]

theorem and_absorb (x d : Byte) : x &&& d &&& x = x &&& d := by
  rw [BitVec.and_assoc, BitVec.and_comm d, ← BitVec.and_assoc, BitVec.and_self]

theorem and_ff (x : Byte) : x &&& 0xFF = x := by revert x; decide +kernel

/-- Programming one byte clears bits and sets none, canonical form or not (R43). -/
theorem read_write_and (m : Memory) (a : Nat) (d : Byte) :
    (m.write a (m.read a &&& d)).read a &&& m.read a = (m.write a (m.read a &&& d)).read a := by
  have hone : ∀ v : Byte, v &&& d = erasedByte → v = erasedByte := by
    intro v h
    have hv := and_absorb v d
    rw [h, BitVec.and_comm] at hv
    exact (and_ff v).symm.trans hv
  suffices ∀ (m : Memory) (x : Byte), m.read a = x →
      (m.write a (x &&& d)).read a &&& x = (m.write a (x &&& d)).read a from this m _ rfl
  intro m
  induction m with
  | nil =>
    rintro x rfl
    unfold Memory.write; split
    · simp
    · simp only [read_cons, if_true]; exact and_absorb _ _
  | cons c m ih =>
    intro x hx
    unfold Memory.write
    split
    · split
      · simp [hx]
      · simp only [read_cons, if_true]; exact and_absorb _ _
    · split
      · subst a
        split
        · rename_i hv
          have := hone x hv
          subst this
          exact and_ff _
        · simp only [read_cons, if_true]; exact and_absorb _ _
      · rename_i h1 h2
        have : c.1 ≠ a := fun e => h2 e.symm
        simp only [read_cons, if_neg this] at hx ⊢
        exact ih x hx

/-- A page program clears bits and sets none, canonical form or not (R43). -/
theorem read_program_and (addr : Address) : ∀ (p : List Byte) (m : Memory) (i a : Nat),
    (Memory.program addr m i p).read a &&& m.read a = (Memory.program addr m i p).read a
  | [], m, i, a => BitVec.and_self
  | d :: rest, m, i, a => by
    rw [Memory.program]
    have h1 := read_program_and addr rest (m.write (pageAddress addr i) (m.read (pageAddress addr i) &&& d)) (i + 1) a
    have h2 : (m.write (pageAddress addr i) (m.read (pageAddress addr i) &&& d)).read a &&& m.read a =
        (m.write (pageAddress addr i) (m.read (pageAddress addr i) &&& d)).read a := by
      by_cases ha : a = pageAddress addr i
      · subst ha; exact read_write_and m _ d
      · rw [read_write_ne _ _ _ _ ha, BitVec.and_self]
    rw [← h1, BitVec.and_assoc, h2]

/-! ### Erasing -/

/-- An erase keeps the canonical form. -/
theorem erase_wf {m : Memory} (h : m.wf) (a n : Nat) : (m.erase a n).wf :=
  ⟨h.1.sublist List.filter_sublist, fun c hc => h.2 c (List.mem_of_mem_filter hc)⟩

/-- What every address reads as after an erase: 0xFF in the erased range, as before outside it. -/
theorem read_erase (m : Memory) (a n b : Nat) :
    (m.erase a n).read b = if a ≤ b ∧ b < a + n then erasedByte else m.read b := by
  induction m with
  | nil => simp [Memory.erase]
  | cons x m ih =>
    unfold Memory.erase at ih ⊢
    rw [List.filter_cons]
    split
    · rw [read_cons, read_cons, ih]
      rename_i hk
      simp only [Bool.or_eq_true, decide_eq_true_eq] at hk
      by_cases hxb : x.1 = b
      · subst hxb
        rw [if_pos rfl, if_pos rfl, if_neg (by omega)]
      · rw [if_neg hxb, if_neg hxb]
    · rw [ih, read_cons]
      rename_i hk
      simp only [Bool.or_eq_true, decide_eq_true_eq] at hk
      by_cases hb : a ≤ b ∧ b < a + n
      · rw [if_pos hb, if_pos hb]
      · rw [if_neg hb, if_neg hb, if_neg (by omega)]

/-! ### Programming -/

/-- A page program keeps the canonical form. -/
theorem program_wf {addr : Address} : ∀ {payload : List Byte} {m : Memory} {i : Nat}, m.wf →
    (Memory.program addr m i payload).wf
  | [], _, _, h => h
  | _ :: rest, m, i, h => by
    rw [Memory.program]
    exact program_wf (payload := rest) (write_wf h _ _)

/-- Every cell of a programmed array was there before, or lies where a payload byte landed. -/
theorem mem_program {addr : Address} : ∀ {payload : List Byte} {m : Memory} {i : Nat} {c : Host.Cell},
    c ∈ Memory.program addr m i payload → c ∈ m ∨ ∃ k < payload.length, c.1 = pageAddress addr (i + k)
  | [], _, _, _, h => .inl h
  | d :: rest, m, i, c, h => by
    obtain h | ⟨k, hk, h⟩ := mem_program (payload := rest) h
    · obtain h | ⟨rfl, -⟩ := mem_write h
      · exact .inl h
      · exact .inr ⟨0, by simp, rfl⟩
    · exact .inr ⟨k + 1, by simpa using hk, by rw [h]; congr 1; omega⟩

/-- No two bytes of one page program land at the same address: the map is injective on 0 ≤ i < 256 (R39). -/
theorem pageAddress_inj {addr : Address} {i j : Nat} (hi : i < 256) (hj : j < 256)
    (h : pageAddress addr i = pageAddress addr j) : i = j := by
  simp only [pageAddress] at h
  omega

/-- An address where no byte of the payload lands reads as before. -/
theorem read_program_other {addr : Address} : ∀ {payload : List Byte} {m : Memory} {i a : Nat}, m.wf →
    (∀ k < payload.length, a ≠ pageAddress addr (i + k)) → (Memory.program addr m i payload).read a = m.read a
  | [], _, _, _, _, _ => rfl
  | d :: rest, m, i, a, h, ha => by
    rw [Memory.program, read_program_other (write_wf h _ _), read_write h, if_neg]
    · exact ha 0 (by simp)
    · intro k hk
      have := ha (k + 1) (by simpa using hk)
      rwa [show i + 1 + k = i + (k + 1) by omega]

/-- Where a payload byte lands, the array holds `old & data` (R43). -/
theorem read_program_landed {addr : Address} : ∀ {payload : List Byte} {m : Memory} {i k : Nat}, m.wf →
    i + payload.length ≤ 256 → (hk : k < payload.length) →
    (Memory.program addr m i payload).read (pageAddress addr (i + k)) = m.read (pageAddress addr (i + k)) &&& payload[k]
  | d :: rest, m, i, 0, h, hl, _ => by
    rw [Memory.program, read_program_other (write_wf h _ _), read_write h]
    · simp
    · intro j hj he
      have hl : i + (rest.length + 1) ≤ 256 := by simpa using hl
      have := pageAddress_inj (by omega) (by omega) he
      omega
  | d :: rest, m, i, k + 1, h, hl, hk => by
    have hl : i + (rest.length + 1) ≤ 256 := by simpa using hl
    have hk : k < rest.length := by simpa using hk
    rw [Memory.program, show i + (k + 1) = i + 1 + k by omega, read_program_landed (write_wf h _ _) (by omega) hk,
      read_write h, if_neg]
    · simp
    · intro he
      have := pageAddress_inj (by omega) (by omega) he
      omega

end Sys2Proof.Laws
end

