-- ==== Sys2Proof/Laws/Chip.lean ====
section
/-! SUPPORT. What the responder does at the end of a frame: the cases, said once, and the laws that follow for every
frame. -/

namespace Sys2Proof.Laws

open Sys2Proof.Machine

@[simp] theorem isBusy_zero : BusyCount.isBusy (.reads 0) = false := rfl

theorem isBusy_eq_false {n : BusyCount} (h : n.isBusy = false) : n = .reads 0 := by
  match n, h with
  | .reads 0, _ => rfl

/-- A frame other than 0x05 and 0x35 that is not ignored finds the chip not busy (R54). -/
theorem notBusy_of_accepted {c : Chip} {op : Byte} (h : ¬ c.ignores op = true) (h1 : op ≠ 0x05) (h2 : op ≠ 0x35) :
    c.nBusy = .reads 0 := by
  refine isBusy_eq_false (Bool.eq_false_iff.2 fun hb => h ?_)
  simp only [Chip.ignores, hb, bne_iff_ne.2 h1, bne_iff_ne.2 h2, Bool.and_self, Bool.or_true]

/-- A frame other than 0xAB that is not ignored finds the chip awake (R54). -/
theorem awake_of_accepted {c : Chip} {op : Byte} (h : ¬ c.ignores op = true) (h1 : op ≠ 0xAB) : c.pd = false := by
  refine Bool.eq_false_iff.2 fun hp => h ?_
  simp only [Chip.ignores, hp, bne_iff_ne.2 h1, Bool.and_self, Bool.true_or]

/-- What an array can become at the end of a frame. -/
def ArrayStep (c : Chip) (m : Memory) : Prop :=
  m = c.mem ∨ c.wel = true ∧ c.pd = false ∧
    ((∃ addr payload, payload.length ≤ 256 ∧ (∀ i < payload.length, pageAddress addr i < c.flashBytes) ∧
        m = c.mem.program addr 0 payload) ∨
      (∃ addr size, m = c.mem.erase addr size) ∨ m = [])

/-- What the end of a frame can leave of the responder `c`. -/
def After (c : Chip) (e : Environment) : Prop :=
  e = .anyChip ∨
    ∃ m n w p a, e = .responder { c with mem := m, nBusy := n, wel := w, pd := p, armed := a } ∧
      (a = true → p = true → c.armed = true ∧ c.pd = true) ∧
      (p = true → n = .reads 0 ∨ (c.pd = true ∧ n = c.nBusy)) ∧ ArrayStep c m

/-- An accepted program or erase. -/
theorem after_beginBusy {c : Chip} {m : Memory} (kind : MutationKind) (hp : c.pd = false) (hm : ArrayStep c m) :
    After c (.responder ({ c with armed := false, mem := m }.beginBusy kind)) :=
  .inr ⟨m, _, _, c.pd, false, rfl, by simp, fun h => by simp [hp] at h, hm⟩

theorem after_unitErase {c : Chip} (kind : MutationKind) (size : Nat) (rest : List Byte) (hp : c.pd = false) :
    After c ({ c with armed := false }.unitErase kind size rest) := by
  unfold Chip.unitErase
  split
  · simp only
    split
    · exact .inr ⟨c.mem, c.nBusy, c.wel, c.pd, false, rfl, by simp, fun h => by simp [hp] at h, .inl rfl⟩
    · rename_i hw
      split
      · exact after_beginBusy kind hp (.inr ⟨by simpa using hw, hp, .inr (.inl ⟨_, _, rfl⟩)⟩)
      · exact .inl rfl
  · exact .inl rfl

theorem after_pageProgram {c : Chip} (rest : List Byte) (hp : c.pd = false) :
    After c ({ c with armed := false }.pageProgram rest) := by
  unfold Chip.pageProgram
  split
  · simp only
    split
    · exact .inr ⟨c.mem, c.nBusy, c.wel, c.pd, false, rfl, by simp, fun h => by simp [hp] at h, .inl rfl⟩
    · rename_i hw
      split
      · rename_i hl
        exact after_beginBusy _ hp (.inr ⟨by simpa using hw, hp, .inl ⟨_, _, hl.1, hl.2, rfl⟩⟩)
      · exact .inl rfl
  · exact .inl rfl

/-- A frame that leaves the array and the busy count, and does not power down. -/
theorem after_flags {c : Chip} (w a : Bool) (hp : c.pd = false) :
    After c (.responder { c with wel := w, armed := a }) :=
  .inr ⟨c.mem, c.nBusy, w, c.pd, a, rfl, fun _ h => by simp [hp] at h, fun h => by simp [hp] at h, .inl rfl⟩

/-- What an accepted frame can do. -/
theorem accept_after {c : Chip} {op : Byte} {rest : List Byte} (hi : ¬ c.ignores op = true) :
    After c ((c.disarm op).accept op rest) := by
  by_cases hab : op = 0xAB
  · subst hab
    exact .inr ⟨c.mem, c.nBusy, c.wel, false, false, rfl, by simp, by simp, .inl rfl⟩
  have hp := awake_of_accepted hi hab
  by_cases h05 : op = 0x05
  · subst h05
    change After c (.responder ({ c with armed := false }.afterStatusRead))
    unfold Chip.afterStatusRead
    split
    · exact .inr ⟨c.mem, _, _, c.pd, false, rfl, by simp, fun h => by simp [hp] at h, .inl rfl⟩
    · exact after_flags c.wel false hp
    · exact after_flags c.wel false hp
  by_cases h06 : op = 0x06
  · subst h06; exact after_flags true false hp
  by_cases h04 : op = 0x04
  · subst h04; exact after_flags false false hp
  by_cases h02 : op = 0x02
  · subst h02; exact after_pageProgram rest hp
  by_cases h60 : op = 0x60
  · subst h60
    change After c ({ c with armed := false }.chipErase)
    unfold Chip.chipErase
    split
    · exact after_flags c.wel false hp
    · rename_i hw
      exact after_beginBusy _ hp (.inr ⟨by simpa using hw, hp, .inr (.inr rfl)⟩)
  by_cases h20 : op = 0x20
  · subst h20; exact after_unitErase _ _ rest hp
  by_cases h52 : op = 0x52
  · subst h52; exact after_unitErase _ _ rest hp
  by_cases hd8 : op = 0xD8
  · subst hd8; exact after_unitErase _ _ rest hp
  by_cases hb9 : op = 0xB9
  · subst hb9
    exact .inr ⟨c.mem, c.nBusy, c.wel, true, false, rfl, by simp, fun _ => .inl (notBusy_of_accepted hi (by decide) (by decide)), .inl rfl⟩
  by_cases h66 : op = 0x66
  · subst h66; exact after_flags c.wel true hp
  by_cases h99 : op = 0x99
  · subst h99
    change After c (.responder c.resetFrame)
    unfold Chip.resetFrame
    split
    · exact .inr ⟨c.mem, _, _, c.pd, false, rfl, by simp, fun h => by simp [hp] at h, .inl rfl⟩
    · exact after_flags c.wel c.armed hp
  simp only [Chip.accept, hab, h05, h06, h04, h02, h60, h20, h52, hd8, hb9, h66, h99, if_false, Chip.disarm, false_or]
  split
  · exact after_flags c.wel false hp
  · exact .inl rfl

/-- Everything the end of a frame can do to the responder (R54 to R62): leave a chip of which nothing is known; or set
the latch, the power-down flag, the reset arm and the busy count as it may, with the array as it was, programmed by the
payload where every byte lands inside it, erased over an aligned unit, or erased whole. The array changes only with the
latch set. -/
theorem endFrame_after (c : Chip) (frame : List Byte) : After c (c.endFrame frame) := by
  cases frame with
  | nil => exact .inr ⟨c.mem, c.nBusy, c.wel, c.pd, c.armed, rfl, fun h1 h2 => ⟨h1, h2⟩, fun h => .inr ⟨h, rfl⟩, .inl rfl⟩
  | cons op rest =>
    rw [Chip.endFrame]
    by_cases hx : (op = 0x66 ∨ op = 0x99) ∧ c.nBusy.isBusy
    · rw [if_pos hx]; exact .inl rfl
    rw [if_neg hx]
    by_cases hi : c.ignores op = true
    · rw [if_pos hi, Chip.disarm]
      by_cases ho : op = 0x66 ∨ op = 0x99
      · rw [if_pos ho]
        exact .inr ⟨c.mem, c.nBusy, c.wel, c.pd, c.armed, rfl, fun h1 h2 => ⟨h1, h2⟩, fun h => .inr ⟨h, rfl⟩, .inl rfl⟩
      · rw [if_neg ho]
        exact .inr ⟨c.mem, c.nBusy, c.wel, c.pd, false, rfl, by simp, fun h => .inr ⟨h, rfl⟩, .inl rfl⟩
    · rw [if_neg hi]
      exact accept_after hi

/-- The end of a frame keeps the array canonical and inside the chip, and a powered-down chip unarmed and not busy. -/
theorem environment_ok_endFrame {e : Environment} (h : e.Ok) (frame : List Byte) : (e.endFrame frame).Ok := by
  cases e with
  | anyChip => trivial
  | responder c =>
    obtain ⟨hm, hin, harm, hbusy⟩ := h
    obtain he | ⟨m, n, w, p, a, he, ha, hn, hs⟩ := endFrame_after c frame
    · simp only [Environment.endFrame, he, Environment.Ok]
    · have hm' : m.wf ∧ ∀ x ∈ m, x.1 < c.flashBytes := by
        obtain rfl | ⟨-, -, ⟨addr, payload, -, hl, rfl⟩ | ⟨addr, size, rfl⟩ | rfl⟩ := hs
        · exact ⟨hm, hin⟩
        · refine ⟨program_wf hm, fun x hx => ?_⟩
          obtain hx | ⟨k, hk, hx⟩ := mem_program hx
          · exact hin x hx
          · rw [hx]; simpa using hl k hk
        · exact ⟨erase_wf hm addr size, fun x hx => hin x (List.mem_of_mem_filter hx)⟩
        · exact ⟨wf_nil, by simp⟩
      simp only [Environment.endFrame, he, Environment.Ok]
      refine ⟨hm'.1, hm'.2, fun h1 => ?_, fun h1 => ?_⟩
      · by_contra h2
        have := ha h1 (by simpa using h2)
        simp [harm this.1] at this
      · obtain h2 | ⟨h2, rfl⟩ := hn h1
        · exact h2
        · exact hbusy h2

/-! ### An awake chip -/

/-- The end of a frame, where its bytes are no 0x66 or 0x99 or the chip is not busy (R54). -/
theorem endFrame_cons (c : Chip) (op : Byte) (rest : List Byte) (h : c.nBusy = .reads 0 ∨ (op ≠ 0x66 ∧ op ≠ 0x99)) :
    c.endFrame (op :: rest) = if c.ignores op then .responder (c.disarm op) else (c.disarm op).accept op rest := by
  rw [Chip.endFrame, if_neg]
  rintro ⟨h1, h2⟩
  obtain h | h := h
  · rw [h] at h2; cases h2
  · exact h1.elim h.1 h.2

/-- An awake chip that is not busy ignores no frame. -/
theorem ignores_awake {c : Chip} (hp : c.pd = false) (hb : c.nBusy = .reads 0) (op : Byte) : c.ignores op = false := by
  simp [Chip.ignores, hp, hb]

/-- The end of a frame on an awake chip that is not busy. -/
theorem endFrame_awake {c : Chip} (hp : c.pd = false) (hb : c.nBusy = .reads 0) (op : Byte) (rest : List Byte) :
    (Environment.responder c).endFrame (op :: rest) = (c.disarm op).accept op rest := by
  simp only [Environment.endFrame]
  rw [endFrame_cons _ _ _ (.inl hb), if_neg (by simp [ignores_awake hp hb])]

/-- The answer to a status read of an awake chip, busy or not (R55). -/
theorem answer_status {c : Chip} (hp : c.pd = false) :
    (Environment.responder c).answer [0x05, 0x00] = some (statusByte c.wel c.nBusy.isBusy) := by
  simp [Environment.answer, Chip.answer, Chip.ignores, hp]

/-- The end of a status read of an awake chip, busy or not (R55, R62). -/
theorem endFrame_status {c : Chip} (hp : c.pd = false) :
    (Environment.responder c).endFrame [0x05, 0x00] = .responder ({ c with armed := false }.afterStatusRead) := by
  simp only [Environment.endFrame]
  rw [endFrame_cons _ _ _ (.inr (by decide)), if_neg (by simp [Chip.ignores, hp])]
  rfl

/-- The end of a status read of an awake chip that is not busy. -/
theorem endFrame_status_ready {c : Chip} (hp : c.pd = false) (hb : c.nBusy = .reads 0) :
    (Environment.responder c).endFrame [0x05, 0x00] = .responder { c with armed := false } := by
  rw [endFrame_status hp]; simp [Chip.afterStatusRead, hb]

/-- The first byte of a frame's encoding. -/
def headOp (i : Instr) : Byte := (encode i).headD 0

theorem encode_eq_cons {i : Instr} (h : i.isFrame = true) : ∃ rest, encode i = headOp i :: rest := by
  cases i <;> first | exact ⟨_, rfl⟩ | cases h

end Sys2Proof.Laws
end

