-- ==== Sys2Proof/Laws/Encoding.lean ====
section
/-! SUPPORT. The octets of an address, most significant first (R35), from both sides. -/

namespace Sys2Proof.Laws

/-- The address of an address's octets is the address. -/
theorem addressOf_bytes (a : Address) :
    addressOf (a.extractLsb' 16 8) (a.extractLsb' 8 8) (a.extractLsb' 0 8) = a := by
  apply BitVec.eq_of_getLsbD_eq
  intro i hi
  simp only [addressOf, BitVec.getLsbD_append, BitVec.getLsbD_extractLsb']
  split
  · simp_all
  · split
    · have : i - 8 < 8 := by omega
      simp [*, show 8 + (i-8) = i by omega]
    · have : i - 16 < 8 := by omega
      simp [show i - 8 - 8 = i - 16 by omega, show 16 + (i-16) = i by omega, this]

/-- The octets of an address made of three octets are those. -/
theorem bytes_addressOf (a b c : Byte) : addressBytes (addressOf a b c) = [a, b, c] := by
  simp only [addressBytes, addressOf, List.cons.injEq, and_true]
  refine ⟨?_, ?_, ?_⟩ <;> apply BitVec.eq_of_getLsbD_eq <;> intro i hi <;>
    simp only [BitVec.getLsbD_extractLsb', BitVec.getLsbD_append, hi, decide_true, Bool.true_and]
  · simp [show ¬ (16 + i < 8) by omega, show ¬ (16 + i - 8 < 8) by omega]; congr 1; omega
  · simp [show ¬ (8 + i < 8) by omega, hi]
  · simp [hi]

/-- The octets as quotients: bits 23–16, 15–8, 7–0 (R35). -/
theorem addressBytes_eq (a : Address) : addressBytes a =
    [BitVec.ofNat 8 (a.toNat / 65536), BitVec.ofNat 8 (a.toNat / 256), BitVec.ofNat 8 a.toNat] := by
  simp only [addressBytes, List.cons.injEq, and_true]
  refine ⟨?_, ?_, ?_⟩ <;> apply BitVec.eq_of_toNat_eq <;> simp [Nat.shiftRight_eq_div_pow]

end Sys2Proof.Laws
end

