-- ==== Sys2Proof/Laws/State.lean ====
section
/-! SUPPORT. One lemma per field of State and per update of Machine/Ops.lean and Machine/Identification.lean, so that no
proof unfolds a record update. -/

namespace Sys2Proof.Laws

open Sys2Proof.Machine

variable (s : State)

/-! ### `emit` -/

@[simp] theorem emit_csLine (e : Event) : (s.emit e).csLine = s.csLine := rfl
@[simp] theorem emit_mfrId (e : Event) : (s.emit e).mfrId = s.mfrId := rfl
@[simp] theorem emit_devId (e : Event) : (s.emit e).devId = s.devId := rfl
@[simp] theorem emit_err (e : Event) : (s.emit e).err = s.err := rfl
@[simp] theorem emit_csActive (e : Event) : (s.emit e).csActive = s.csActive := rfl
@[simp] theorem emit_txnOpen (e : Event) : (s.emit e).txnOpen = s.txnOpen := rfl
@[simp] theorem emit_configured (e : Event) : (s.emit e).configured = s.configured := rfl
@[simp] theorem emit_csLevel (e : Event) : (s.emit e).csLevel = s.csLevel := rfl
@[simp] theorem emit_hasTxn (e : Event) : (s.emit e).hasTxn = s.hasTxn := rfl
@[simp] theorem emit_pending (e : Event) : (s.emit e).pending = s.pending := rfl
@[simp] theorem emit_loneFrame (e : Event) : (s.emit e).loneFrame = s.loneFrame := rfl
@[simp] theorem emit_opIndex (e : Event) : (s.emit e).opIndex = s.opIndex := rfl
@[simp] theorem emit_result (e : Event) : (s.emit e).result = s.result := rfl
@[simp] theorem emit_trace (e : Event) : (s.emit e).trace = s.trace ++ [e] := rfl
@[simp] theorem emit_clock (e : Event) : (s.emit e).clock = s.clock := rfl
@[simp] theorem emit_draws (e : Event) : (s.emit e).draws = s.draws := rfl
@[simp] theorem emit_drawCount (e : Event) : (s.emit e).drawCount = s.drawCount := rfl
@[simp] theorem emit_env (e : Event) : (s.emit e).env = s.env := rfl

/-! ### `setResult` -/

@[simp] theorem setResult_csLine (r : Result) : (s.setResult r).csLine = s.csLine := rfl
@[simp] theorem setResult_mfrId (r : Result) : (s.setResult r).mfrId = s.mfrId := rfl
@[simp] theorem setResult_devId (r : Result) : (s.setResult r).devId = s.devId := rfl
@[simp] theorem setResult_err (r : Result) : (s.setResult r).err = s.err := rfl
@[simp] theorem setResult_csActive (r : Result) : (s.setResult r).csActive = s.csActive := rfl
@[simp] theorem setResult_txnOpen (r : Result) : (s.setResult r).txnOpen = s.txnOpen := rfl
@[simp] theorem setResult_configured (r : Result) : (s.setResult r).configured = s.configured := rfl
@[simp] theorem setResult_csLevel (r : Result) : (s.setResult r).csLevel = s.csLevel := rfl
@[simp] theorem setResult_hasTxn (r : Result) : (s.setResult r).hasTxn = s.hasTxn := rfl
@[simp] theorem setResult_pending (r : Result) : (s.setResult r).pending = s.pending := rfl
@[simp] theorem setResult_loneFrame (r : Result) : (s.setResult r).loneFrame = s.loneFrame := rfl
@[simp] theorem setResult_opIndex (r : Result) : (s.setResult r).opIndex = s.opIndex := rfl
@[simp] theorem setResult_result (r : Result) : (s.setResult r).result = some r := rfl
@[simp] theorem setResult_trace (r : Result) : (s.setResult r).trace = s.trace := rfl
@[simp] theorem setResult_clock (r : Result) : (s.setResult r).clock = s.clock := rfl
@[simp] theorem setResult_draws (r : Result) : (s.setResult r).draws = s.draws := rfl
@[simp] theorem setResult_drawCount (r : Result) : (s.setResult r).drawCount = s.drawCount := rfl
@[simp] theorem setResult_env (r : Result) : (s.setResult r).env = s.env := rfl

/-! ### `setErr` -/

@[simp] theorem setErr_csLine (e : ErrorCode) : (s.setErr e).csLine = s.csLine := rfl
@[simp] theorem setErr_mfrId (e : ErrorCode) : (s.setErr e).mfrId = s.mfrId := rfl
@[simp] theorem setErr_devId (e : ErrorCode) : (s.setErr e).devId = s.devId := rfl
@[simp] theorem setErr_err (e : ErrorCode) : (s.setErr e).err = e := rfl
@[simp] theorem setErr_csActive (e : ErrorCode) : (s.setErr e).csActive = s.csActive := rfl
@[simp] theorem setErr_txnOpen (e : ErrorCode) : (s.setErr e).txnOpen = s.txnOpen := rfl
@[simp] theorem setErr_configured (e : ErrorCode) : (s.setErr e).configured = s.configured := rfl
@[simp] theorem setErr_csLevel (e : ErrorCode) : (s.setErr e).csLevel = s.csLevel := rfl
@[simp] theorem setErr_hasTxn (e : ErrorCode) : (s.setErr e).hasTxn = s.hasTxn := rfl
@[simp] theorem setErr_pending (e : ErrorCode) : (s.setErr e).pending = s.pending := rfl
@[simp] theorem setErr_loneFrame (e : ErrorCode) : (s.setErr e).loneFrame = s.loneFrame := rfl
@[simp] theorem setErr_opIndex (e : ErrorCode) : (s.setErr e).opIndex = s.opIndex := rfl
@[simp] theorem setErr_result (e : ErrorCode) : (s.setErr e).result = s.result := rfl
@[simp] theorem setErr_trace (e : ErrorCode) : (s.setErr e).trace = s.trace := rfl
@[simp] theorem setErr_clock (e : ErrorCode) : (s.setErr e).clock = s.clock := rfl
@[simp] theorem setErr_draws (e : ErrorCode) : (s.setErr e).draws = s.draws := rfl
@[simp] theorem setErr_drawCount (e : ErrorCode) : (s.setErr e).drawCount = s.drawCount := rfl
@[simp] theorem setErr_env (e : ErrorCode) : (s.setErr e).env = s.env := rfl

/-! ### `setCsLine` -/

@[simp] theorem setCsLine_csLine (l : LineId) : (s.setCsLine l).csLine = l := rfl
@[simp] theorem setCsLine_mfrId (l : LineId) : (s.setCsLine l).mfrId = s.mfrId := rfl
@[simp] theorem setCsLine_devId (l : LineId) : (s.setCsLine l).devId = s.devId := rfl
@[simp] theorem setCsLine_err (l : LineId) : (s.setCsLine l).err = s.err := rfl
@[simp] theorem setCsLine_csActive (l : LineId) : (s.setCsLine l).csActive = s.csActive := rfl
@[simp] theorem setCsLine_txnOpen (l : LineId) : (s.setCsLine l).txnOpen = s.txnOpen := rfl
@[simp] theorem setCsLine_configured (l : LineId) : (s.setCsLine l).configured = s.configured := rfl
@[simp] theorem setCsLine_csLevel (l : LineId) : (s.setCsLine l).csLevel = s.csLevel := rfl
@[simp] theorem setCsLine_hasTxn (l : LineId) : (s.setCsLine l).hasTxn = s.hasTxn := rfl
@[simp] theorem setCsLine_pending (l : LineId) : (s.setCsLine l).pending = s.pending := rfl
@[simp] theorem setCsLine_loneFrame (l : LineId) : (s.setCsLine l).loneFrame = s.loneFrame := rfl
@[simp] theorem setCsLine_opIndex (l : LineId) : (s.setCsLine l).opIndex = s.opIndex := rfl
@[simp] theorem setCsLine_result (l : LineId) : (s.setCsLine l).result = s.result := rfl
@[simp] theorem setCsLine_trace (l : LineId) : (s.setCsLine l).trace = s.trace := rfl
@[simp] theorem setCsLine_clock (l : LineId) : (s.setCsLine l).clock = s.clock := rfl
@[simp] theorem setCsLine_draws (l : LineId) : (s.setCsLine l).draws = s.draws := rfl
@[simp] theorem setCsLine_drawCount (l : LineId) : (s.setCsLine l).drawCount = s.drawCount := rfl
@[simp] theorem setCsLine_env (l : LineId) : (s.setCsLine l).env = s.env := rfl

/-! ### `setIds` -/

@[simp] theorem setIds_csLine (m d : Byte) : (s.setIds m d).csLine = s.csLine := rfl
@[simp] theorem setIds_mfrId (m d : Byte) : (s.setIds m d).mfrId = some m := rfl
@[simp] theorem setIds_devId (m d : Byte) : (s.setIds m d).devId = some d := rfl
@[simp] theorem setIds_err (m d : Byte) : (s.setIds m d).err = s.err := rfl
@[simp] theorem setIds_csActive (m d : Byte) : (s.setIds m d).csActive = s.csActive := rfl
@[simp] theorem setIds_txnOpen (m d : Byte) : (s.setIds m d).txnOpen = s.txnOpen := rfl
@[simp] theorem setIds_configured (m d : Byte) : (s.setIds m d).configured = s.configured := rfl
@[simp] theorem setIds_csLevel (m d : Byte) : (s.setIds m d).csLevel = s.csLevel := rfl
@[simp] theorem setIds_hasTxn (m d : Byte) : (s.setIds m d).hasTxn = s.hasTxn := rfl
@[simp] theorem setIds_pending (m d : Byte) : (s.setIds m d).pending = s.pending := rfl
@[simp] theorem setIds_loneFrame (m d : Byte) : (s.setIds m d).loneFrame = s.loneFrame := rfl
@[simp] theorem setIds_opIndex (m d : Byte) : (s.setIds m d).opIndex = s.opIndex := rfl
@[simp] theorem setIds_result (m d : Byte) : (s.setIds m d).result = s.result := rfl
@[simp] theorem setIds_trace (m d : Byte) : (s.setIds m d).trace = s.trace := rfl
@[simp] theorem setIds_clock (m d : Byte) : (s.setIds m d).clock = s.clock := rfl
@[simp] theorem setIds_draws (m d : Byte) : (s.setIds m d).draws = s.draws := rfl
@[simp] theorem setIds_drawCount (m d : Byte) : (s.setIds m d).drawCount = s.drawCount := rfl
@[simp] theorem setIds_env (m d : Byte) : (s.setIds m d).env = s.env := rfl

/-! ### `chipSees` -/

@[simp] theorem chipSees_csLine (frame : List Byte) : (s.chipSees frame).csLine = s.csLine := rfl
@[simp] theorem chipSees_mfrId (frame : List Byte) : (s.chipSees frame).mfrId = s.mfrId := rfl
@[simp] theorem chipSees_devId (frame : List Byte) : (s.chipSees frame).devId = s.devId := rfl
@[simp] theorem chipSees_err (frame : List Byte) : (s.chipSees frame).err = s.err := rfl
@[simp] theorem chipSees_csActive (frame : List Byte) : (s.chipSees frame).csActive = s.csActive := rfl
@[simp] theorem chipSees_txnOpen (frame : List Byte) : (s.chipSees frame).txnOpen = s.txnOpen := rfl
@[simp] theorem chipSees_configured (frame : List Byte) : (s.chipSees frame).configured = s.configured := rfl
@[simp] theorem chipSees_csLevel (frame : List Byte) : (s.chipSees frame).csLevel = s.csLevel := rfl
@[simp] theorem chipSees_hasTxn (frame : List Byte) : (s.chipSees frame).hasTxn = s.hasTxn := rfl
@[simp] theorem chipSees_pending (frame : List Byte) : (s.chipSees frame).pending = s.pending := rfl
@[simp] theorem chipSees_loneFrame (frame : List Byte) : (s.chipSees frame).loneFrame = s.loneFrame := rfl
@[simp] theorem chipSees_opIndex (frame : List Byte) : (s.chipSees frame).opIndex = s.opIndex := rfl
@[simp] theorem chipSees_result (frame : List Byte) : (s.chipSees frame).result = s.result := rfl
@[simp] theorem chipSees_trace (frame : List Byte) : (s.chipSees frame).trace = s.trace := rfl
@[simp] theorem chipSees_clock (frame : List Byte) : (s.chipSees frame).clock = s.clock := rfl
@[simp] theorem chipSees_draws (frame : List Byte) : (s.chipSees frame).draws = s.draws := rfl
@[simp] theorem chipSees_drawCount (frame : List Byte) : (s.chipSees frame).drawCount = s.drawCount := rfl
@[simp] theorem chipSees_env (frame : List Byte) : (s.chipSees frame).env = s.env.endFrame frame := rfl

/-! ### `advance` -/

@[simp] theorem advance_csLine : s.advance.csLine = s.csLine := rfl
@[simp] theorem advance_mfrId : s.advance.mfrId = s.mfrId := rfl
@[simp] theorem advance_devId : s.advance.devId = s.devId := rfl
@[simp] theorem advance_err : s.advance.err = s.err := rfl
@[simp] theorem advance_csActive : s.advance.csActive = s.csActive := rfl
@[simp] theorem advance_txnOpen : s.advance.txnOpen = s.txnOpen := rfl
@[simp] theorem advance_configured : s.advance.configured = s.configured := rfl
@[simp] theorem advance_csLevel : s.advance.csLevel = s.csLevel := rfl
@[simp] theorem advance_hasTxn : s.advance.hasTxn = s.hasTxn := rfl
@[simp] theorem advance_pending : s.advance.pending = s.pending.tail := rfl
@[simp] theorem advance_loneFrame : s.advance.loneFrame = s.loneFrame := rfl
@[simp] theorem advance_opIndex : s.advance.opIndex = s.opIndex + 1 := rfl
@[simp] theorem advance_result : s.advance.result = s.result := rfl
@[simp] theorem advance_trace : s.advance.trace = s.trace := rfl
@[simp] theorem advance_clock : s.advance.clock = s.clock := rfl
@[simp] theorem advance_draws : s.advance.draws = s.draws := rfl
@[simp] theorem advance_drawCount : s.advance.drawCount = s.drawCount := rfl
@[simp] theorem advance_env : s.advance.env = s.env := rfl

/-! ### `clearLone` -/

@[simp] theorem clearLone_csLine : s.clearLone.csLine = s.csLine := rfl
@[simp] theorem clearLone_mfrId : s.clearLone.mfrId = s.mfrId := rfl
@[simp] theorem clearLone_devId : s.clearLone.devId = s.devId := rfl
@[simp] theorem clearLone_err : s.clearLone.err = s.err := rfl
@[simp] theorem clearLone_csActive : s.clearLone.csActive = s.csActive := rfl
@[simp] theorem clearLone_txnOpen : s.clearLone.txnOpen = s.txnOpen := rfl
@[simp] theorem clearLone_configured : s.clearLone.configured = s.configured := rfl
@[simp] theorem clearLone_csLevel : s.clearLone.csLevel = s.csLevel := rfl
@[simp] theorem clearLone_hasTxn : s.clearLone.hasTxn = s.hasTxn := rfl
@[simp] theorem clearLone_pending : s.clearLone.pending = s.pending := rfl
@[simp] theorem clearLone_loneFrame : s.clearLone.loneFrame = none := rfl
@[simp] theorem clearLone_opIndex : s.clearLone.opIndex = s.opIndex := rfl
@[simp] theorem clearLone_result : s.clearLone.result = s.result := rfl
@[simp] theorem clearLone_trace : s.clearLone.trace = s.trace := rfl
@[simp] theorem clearLone_clock : s.clearLone.clock = s.clock := rfl
@[simp] theorem clearLone_draws : s.clearLone.draws = s.draws := rfl
@[simp] theorem clearLone_drawCount : s.clearLone.drawCount = s.drawCount := rfl
@[simp] theorem clearLone_env : s.clearLone.env = s.env := rfl

/-! ### `now` -/

@[simp] theorem now_csLine : s.now.1.csLine = s.csLine := rfl
@[simp] theorem now_mfrId : s.now.1.mfrId = s.mfrId := rfl
@[simp] theorem now_devId : s.now.1.devId = s.devId := rfl
@[simp] theorem now_err : s.now.1.err = s.err := rfl
@[simp] theorem now_csActive : s.now.1.csActive = s.csActive := rfl
@[simp] theorem now_txnOpen : s.now.1.txnOpen = s.txnOpen := rfl
@[simp] theorem now_configured : s.now.1.configured = s.configured := rfl
@[simp] theorem now_csLevel : s.now.1.csLevel = s.csLevel := rfl
@[simp] theorem now_hasTxn : s.now.1.hasTxn = s.hasTxn := rfl
@[simp] theorem now_pending : s.now.1.pending = s.pending := rfl
@[simp] theorem now_loneFrame : s.now.1.loneFrame = s.loneFrame := rfl
@[simp] theorem now_opIndex : s.now.1.opIndex = s.opIndex := rfl
@[simp] theorem now_result : s.now.1.result = s.result := rfl
@[simp] theorem now_trace : s.now.1.trace = s.trace ++ [.now s.clock.read.2] := rfl
@[simp] theorem now_clock : s.now.1.clock = s.clock.read.1 := rfl
@[simp] theorem now_draws : s.now.1.draws = s.draws := rfl
@[simp] theorem now_drawCount : s.now.1.drawCount = s.drawCount := rfl
@[simp] theorem now_env : s.now.1.env = s.env := rfl

/-! ### `configureLine` -/

@[simp] theorem configureLine_csLine : (configureLine s).csLine = s.csLine := rfl
@[simp] theorem configureLine_mfrId : (configureLine s).mfrId = s.mfrId := rfl
@[simp] theorem configureLine_devId : (configureLine s).devId = s.devId := rfl
@[simp] theorem configureLine_err : (configureLine s).err = s.err := rfl
@[simp] theorem configureLine_csActive : (configureLine s).csActive = s.csActive := rfl
@[simp] theorem configureLine_txnOpen : (configureLine s).txnOpen = s.txnOpen := rfl
@[simp] theorem configureLine_configured : (configureLine s).configured = true := rfl
@[simp] theorem configureLine_csLevel : (configureLine s).csLevel = .unspecified := rfl
@[simp] theorem configureLine_hasTxn : (configureLine s).hasTxn = s.hasTxn := rfl
@[simp] theorem configureLine_pending : (configureLine s).pending = s.pending := rfl
@[simp] theorem configureLine_loneFrame : (configureLine s).loneFrame = s.loneFrame := rfl
@[simp] theorem configureLine_opIndex : (configureLine s).opIndex = s.opIndex := rfl
@[simp] theorem configureLine_result : (configureLine s).result = s.result := rfl
@[simp] theorem configureLine_trace : (configureLine s).trace = s.trace ++ [.pinOut s.csLine] := rfl
@[simp] theorem configureLine_clock : (configureLine s).clock = s.clock := rfl
@[simp] theorem configureLine_draws : (configureLine s).draws = s.draws := rfl
@[simp] theorem configureLine_drawCount : (configureLine s).drawCount = s.drawCount := rfl
@[simp] theorem configureLine_env : (configureLine s).env = s.env := rfl

/-! ### `delayUs` -/

@[simp] theorem delayUs_csLine (n : Nat) : (delayUs n s).csLine = s.csLine := rfl
@[simp] theorem delayUs_mfrId (n : Nat) : (delayUs n s).mfrId = s.mfrId := rfl
@[simp] theorem delayUs_devId (n : Nat) : (delayUs n s).devId = s.devId := rfl
@[simp] theorem delayUs_err (n : Nat) : (delayUs n s).err = s.err := rfl
@[simp] theorem delayUs_csActive (n : Nat) : (delayUs n s).csActive = s.csActive := rfl
@[simp] theorem delayUs_txnOpen (n : Nat) : (delayUs n s).txnOpen = s.txnOpen := rfl
@[simp] theorem delayUs_configured (n : Nat) : (delayUs n s).configured = s.configured := rfl
@[simp] theorem delayUs_csLevel (n : Nat) : (delayUs n s).csLevel = s.csLevel := rfl
@[simp] theorem delayUs_hasTxn (n : Nat) : (delayUs n s).hasTxn = s.hasTxn := rfl
@[simp] theorem delayUs_pending (n : Nat) : (delayUs n s).pending = s.pending := rfl
@[simp] theorem delayUs_loneFrame (n : Nat) : (delayUs n s).loneFrame = s.loneFrame := rfl
@[simp] theorem delayUs_opIndex (n : Nat) : (delayUs n s).opIndex = s.opIndex := rfl
@[simp] theorem delayUs_result (n : Nat) : (delayUs n s).result = s.result := rfl
@[simp] theorem delayUs_trace (n : Nat) : (delayUs n s).trace = s.trace ++ [.delayUs n] := rfl
@[simp] theorem delayUs_clock (n : Nat) : (delayUs n s).clock = s.clock := rfl
@[simp] theorem delayUs_draws (n : Nat) : (delayUs n s).draws = s.draws := rfl
@[simp] theorem delayUs_drawCount (n : Nat) : (delayUs n s).drawCount = s.drawCount := rfl
@[simp] theorem delayUs_env (n : Nat) : (delayUs n s).env = s.env := rfl

/-! ### `clearError` -/

@[simp] theorem clearError_csLine : (clearError s).csLine = s.csLine := rfl
@[simp] theorem clearError_mfrId : (clearError s).mfrId = s.mfrId := rfl
@[simp] theorem clearError_devId : (clearError s).devId = s.devId := rfl
@[simp] theorem clearError_err : (clearError s).err = .none := rfl
@[simp] theorem clearError_csActive : (clearError s).csActive = s.csActive := rfl
@[simp] theorem clearError_txnOpen : (clearError s).txnOpen = s.txnOpen := rfl
@[simp] theorem clearError_configured : (clearError s).configured = s.configured := rfl
@[simp] theorem clearError_csLevel : (clearError s).csLevel = s.csLevel := rfl
@[simp] theorem clearError_hasTxn : (clearError s).hasTxn = s.hasTxn := rfl
@[simp] theorem clearError_pending : (clearError s).pending = s.pending := rfl
@[simp] theorem clearError_loneFrame : (clearError s).loneFrame = s.loneFrame := rfl
@[simp] theorem clearError_opIndex : (clearError s).opIndex = s.opIndex := rfl
@[simp] theorem clearError_result : (clearError s).result = s.result := rfl
@[simp] theorem clearError_trace : (clearError s).trace = s.trace := rfl
@[simp] theorem clearError_clock : (clearError s).clock = s.clock := rfl
@[simp] theorem clearError_draws : (clearError s).draws = s.draws := rfl
@[simp] theorem clearError_drawCount : (clearError s).drawCount = s.drawCount := rfl
@[simp] theorem clearError_env : (clearError s).env = s.env := rfl

@[simp] theorem now_snd : s.now.2 = s.clock.read.2 := rfl

/-! ### `draw` -/

@[simp] theorem draw_csLine : s.draw.1.csLine = s.csLine := by unfold State.draw; split <;> rfl
@[simp] theorem draw_mfrId : s.draw.1.mfrId = s.mfrId := by unfold State.draw; split <;> rfl
@[simp] theorem draw_devId : s.draw.1.devId = s.devId := by unfold State.draw; split <;> rfl
@[simp] theorem draw_err : s.draw.1.err = s.err := by unfold State.draw; split <;> rfl
@[simp] theorem draw_csActive : s.draw.1.csActive = s.csActive := by unfold State.draw; split <;> rfl
@[simp] theorem draw_txnOpen : s.draw.1.txnOpen = s.txnOpen := by unfold State.draw; split <;> rfl
@[simp] theorem draw_configured : s.draw.1.configured = s.configured := by unfold State.draw; split <;> rfl
@[simp] theorem draw_csLevel : s.draw.1.csLevel = s.csLevel := by unfold State.draw; split <;> rfl
@[simp] theorem draw_hasTxn : s.draw.1.hasTxn = s.hasTxn := by unfold State.draw; split <;> rfl
@[simp] theorem draw_pending : s.draw.1.pending = s.pending := by unfold State.draw; split <;> rfl
@[simp] theorem draw_loneFrame : s.draw.1.loneFrame = s.loneFrame := by unfold State.draw; split <;> rfl
@[simp] theorem draw_opIndex : s.draw.1.opIndex = s.opIndex := by unfold State.draw; split <;> rfl
@[simp] theorem draw_result : s.draw.1.result = s.result := by unfold State.draw; split <;> rfl
@[simp] theorem draw_trace : s.draw.1.trace = s.trace := by unfold State.draw; split <;> rfl
@[simp] theorem draw_clock : s.draw.1.clock = s.clock := by unfold State.draw; split <;> rfl
@[simp] theorem draw_env : s.draw.1.env = s.env := by unfold State.draw; split <;> rfl

/-- A draw with fixed answers left takes the first of them. -/
theorem draw_of_draws {b : Byte} {rest : List Byte} (h : s.draws = b :: rest) :
    s.draw = ({ s with draws := rest }, b) := by unfold State.draw; rw [h]

/-- A draw with no fixed answer left is the next free value. -/
theorem draw_of_nil (h : s.draws = []) :
    s.draw = ({ s with drawCount := s.drawCount + 1 }, Config.freeByte s.drawCount) := by unfold State.draw; rw [h]

/-! ### Running on -/

@[simp] theorem andThen_next {α β : Type} (p : State × α) (k : State → α → Host.Outcome β Fault Refusal) :
    andThen (.next p) k = k p.1 p.2 := rfl

@[simp] theorem andThen_fault {α β : Type} (r : Fault) (k : State → α → Host.Outcome β Fault Refusal) :
    andThen (.fault r) k = .fault r := rfl

@[simp] theorem andThen_refused {α β : Type} (r : Refusal) (k : State → α → Host.Outcome β Fault Refusal) :
    andThen (.refused r) k = .refused r := rfl

@[simp] theorem onNext_next (f : State → State) (t : State) : onNext f (.next t) = .next (f t) := rfl

@[simp] theorem onNext_fault (f : State → State) (r : Fault) : onNext f (.fault r) = .fault r := rfl

@[simp] theorem onNext_refused (f : State → State) (r : Refusal) : onNext f (.refused r) = .refused r := rfl

/-- What follows a run that answered a next state. -/
theorem onNext_eq_next {f : State → State} {o : Host.Outcome State Fault Refusal} {t : State}
    (h : onNext f o = .next t) : ∃ u, o = .next u ∧ t = f u := by
  cases o with
  | next u => cases h; exact ⟨u, rfl, rfl⟩
  | fault r => cases h
  | refused r => cases h

/-- If a sequence answers a next state, its first part did, and the second part did from there. -/
theorem andThen_eq_next {α β : Type} {o : Ran α} {k : State → α → Host.Outcome β Fault Refusal} {b : β}
    (h : andThen o k = .next b) : ∃ s a, o = .next (s, a) ∧ k s a = .next b := by
  cases o with
  | next p => exact ⟨p.1, p.2, rfl, h⟩
  | fault r => cases h
  | refused r => cases h

/-- If a sequence faults, one of its parts did. -/
theorem andThen_eq_fault {α β : Type} {o : Ran α} {k : State → α → Host.Outcome β Fault Refusal} {r : Fault}
    (h : andThen o k = .fault r) : o = .fault r ∨ ∃ s a, o = .next (s, a) ∧ k s a = .fault r := by
  cases o with
  | next p => exact .inr ⟨p.1, p.2, rfl, h⟩
  | fault r' => left; cases h; rfl
  | refused r' => cases h

/-- If an operation that needs `begin` answers a next state, it was configured and its body returned. -/
theorem whenConfigured_eq_next {body : State → Ran Result} {t : State} (h : whenConfigured s body = .next t) :
    s.configured = true ∧ ∃ u r, body s = .next (u, r) ∧ t = u.setResult r := by
  unfold whenConfigured at h
  split at h
  · rename_i hc
    obtain ⟨u, r, hb, ht⟩ := andThen_eq_next h
    exact ⟨hc, u, r, hb, by cases ht; rfl⟩
  · cases h

/-- A configured operation whose body returns answers a next state. -/
theorem whenConfigured_of_next {body : State → Ran Result} {u : State} {r : Result} (hc : s.configured = true)
    (hb : body s = .next (u, r)) : whenConfigured s body = .next (u.setResult r) := by
  simp [whenConfigured, hc, complete, hb]

@[simp] theorem whenInDomain_true (body : Host.Outcome State Fault Refusal) : whenInDomain true body = body := rfl

@[simp] theorem whenInDomain_false (body : Host.Outcome State Fault Refusal) :
    whenInDomain false body = .refused .operandOutOfDomain := rfl

/-- If an operation with a checked operand answers a next state, the operand is in its domain. -/
theorem whenInDomain_eq_next {b : Bool} {body : Host.Outcome State Fault Refusal} {t : State}
    (h : whenInDomain b body = .next t) : b = true ∧ body = .next t := by
  cases b
  · cases h
  · exact ⟨rfl, h⟩

end Sys2Proof.Laws
end

