-- ==== Sys2Proof/Laws/Exchange.lean ====
section
/-! SUPPORT. Everything a draw, a transfer, an exchange and a clock read can do, said once. -/

namespace Sys2Proof.Laws

open Sys2Proof.Machine

/-! ### Transfers -/

/-- A transfer appends its event and takes at most one draw. -/
theorem xfer_spec (sent : List Byte) (o : Byte) (s : State) :
    ∃ d n, (xfer sent o s).1 =
      { s with trace := s.trace ++ [.xfer o (xfer sent o s).2], draws := d, drawCount := n } := by
  unfold xfer
  cases s.env.answer (sent ++ [o]) with
  | some i => exact ⟨s.draws, s.drawCount, rfl⟩
  | none =>
    simp only [State.emit, State.draw]
    cases s.draws with
    | nil => exact ⟨_, _, rfl⟩
    | cons b rest => exact ⟨_, _, rfl⟩

/-- Where the chip's answer is fixed, a transfer shifts it in. -/
theorem xfer_answer {sent : List Byte} {o i : Byte} {s : State} (h : s.env.answer (sent ++ [o]) = some i) :
    (xfer sent o s).2 = i := by simp [xfer, h]

/-- The transfers of a bracket append one event per byte, take draws, and do nothing else; there is one answer per
byte, and an answer the chip fixes is that one. -/
theorem transfers_spec (out : List Byte) : ∀ (sent : List Byte) (s : State), ∃ d n,
    (transfers sent out s).1 =
      { s with trace := s.trace ++ List.zipWith .xfer out (transfers sent out s).2, draws := d, drawCount := n } ∧
    (transfers sent out s).2.length = out.length ∧
    ∀ j b, j < out.length → s.env.answer (sent ++ out.take (j + 1)) = some b →
      (transfers sent out s).2[j]? = some b := by
  induction out with
  | nil => exact fun sent s => ⟨s.draws, s.drawCount, by simp [transfers], rfl, fun j b hj => by simp at hj⟩
  | cons o rest ih =>
    intro sent s
    obtain ⟨d1, n1, h1⟩ := xfer_spec sent o s
    obtain ⟨d2, n2, h2, hl, ha⟩ := ih (sent ++ [o]) (xfer sent o s).1
    refine ⟨d2, n2, ?_, by simpa [transfers] using hl, ?_⟩
    · simp only [transfers]; rw [h2, h1]; simp
    · intro j b hj hb
      cases j with
      | zero => simpa [transfers] using xfer_answer (by simpa using hb)
      | succ j =>
        have henv : (xfer sent o s).1.env = s.env := by rw [h1]
        simpa [transfers] using ha j b (by simpa using hj) (by rw [henv]; simpa using hb)

/-! ### Exchange -/

/-- The state after an exchange of `out` answered by `ins`, with the draws it took. -/
def afterExchange (s : State) (out ins : List Byte) (d : List Byte) (n : Nat) : State :=
  { s with
    trace := s.trace ++ s.bracket out ins, txnOpen := !s.hasTxn && s.txnOpen, csActive := false, csLevel := .high
    draws := d, drawCount := n, env := s.env.endFrame out }

/-- An exchange from a state with no open bracket returns one answer per byte, and is exactly one bracket; an answer the
chip fixes is that one. -/
theorem exchange_spec (out : List Byte) {s : State} (h : s.csActive = false) : ∃ ins d n,
    exchange out s = .next (afterExchange s out ins d n, ins) ∧ ins.length = out.length ∧
    ∀ j b, j < out.length → s.env.answer (out.take (j + 1)) = some b → ins[j]? = some b := by
  let s1 : State := { s with
    trace := s.trace ++ .csLow s.csLine :: (if s.hasTxn then [.txnBegin] else [])
    txnOpen := s.hasTxn || s.txnOpen
    csActive := true
    csLevel := .low }
  have hs : select s = .next s1 := by simp [select, h, s1]
  obtain ⟨d, n, ht, hl, ha⟩ := transfers_spec out [] s1
  refine ⟨(transfers [] out s1).2, d, n, ?_, hl, fun j b hj hb => ha j b hj (by simpa using hb)⟩
  simp only [exchange, hs]
  rw [ht]
  simp only [deselect, s1, State.chipSees, afterExchange, State.bracket, exchangeEvents]
  cases s.hasTxn <;> simp

/-- A nested exchange is refused. -/
theorem exchange_nested (out : List Byte) {s : State} (h : s.csActive = true) :
    exchange out s = .refused .nestedSelect := by simp [exchange, select, h]

/-- An exchange never faults. -/
theorem exchange_ne_fault (out : List Byte) (s : State) (r : Fault) : exchange out s ≠ .fault r := by
  cases h : s.csActive with
  | true => simp [exchange_nested out h]
  | false => obtain ⟨ins, d, n, he, -⟩ := exchange_spec out h; simp [he]

/-- What an exchange that returned has done. -/
theorem exchange_eq_next {out : List Byte} {s t : State} {ins : List Byte} (h : exchange out s = .next (t, ins)) :
    s.csActive = false ∧ ins.length = out.length ∧ ∃ d n, t = afterExchange s out ins d n := by
  cases hc : s.csActive with
  | true => simp [exchange_nested out hc] at h
  | false =>
    obtain ⟨ins', d, n, he, hl, -⟩ := exchange_spec out hc
    rw [he] at h
    cases h
    exact ⟨rfl, hl, d, n, rfl⟩

section AfterExchange

variable (s : State) (out ins d : List Byte) (n : Nat)

@[simp] theorem afterExchange_csLine : (afterExchange s out ins d n).csLine = s.csLine := rfl
@[simp] theorem afterExchange_mfrId : (afterExchange s out ins d n).mfrId = s.mfrId := rfl
@[simp] theorem afterExchange_devId : (afterExchange s out ins d n).devId = s.devId := rfl
@[simp] theorem afterExchange_err : (afterExchange s out ins d n).err = s.err := rfl
@[simp] theorem afterExchange_csActive : (afterExchange s out ins d n).csActive = false := rfl
@[simp] theorem afterExchange_txnOpen : (afterExchange s out ins d n).txnOpen = (!s.hasTxn && s.txnOpen) := rfl
@[simp] theorem afterExchange_configured : (afterExchange s out ins d n).configured = s.configured := rfl
@[simp] theorem afterExchange_csLevel : (afterExchange s out ins d n).csLevel = .high := rfl
@[simp] theorem afterExchange_hasTxn : (afterExchange s out ins d n).hasTxn = s.hasTxn := rfl
@[simp] theorem afterExchange_pending : (afterExchange s out ins d n).pending = s.pending := rfl
@[simp] theorem afterExchange_loneFrame : (afterExchange s out ins d n).loneFrame = s.loneFrame := rfl
@[simp] theorem afterExchange_opIndex : (afterExchange s out ins d n).opIndex = s.opIndex := rfl
@[simp] theorem afterExchange_result : (afterExchange s out ins d n).result = s.result := rfl
@[simp] theorem afterExchange_trace :
    (afterExchange s out ins d n).trace = s.trace ++ s.bracket out ins := rfl
@[simp] theorem afterExchange_clock : (afterExchange s out ins d n).clock = s.clock := rfl
@[simp] theorem afterExchange_draws : (afterExchange s out ins d n).draws = d := rfl
@[simp] theorem afterExchange_drawCount : (afterExchange s out ins d n).drawCount = n := rfl
@[simp] theorem afterExchange_env : (afterExchange s out ins d n).env = s.env.endFrame out := rfl

end AfterExchange

/-! ### The clock -/

/-- A clock read answers the counter's new reading. -/
theorem clock_read_last (c : Clock) : c.read.1.last = c.read.2 := by
  unfold Clock.read; split <;> [rfl; (split <;> [rfl; (split <;> rfl)])]

/-- The counter never decreases (decision D5). -/
theorem clock_read_mono (c : Clock) : c.last ≤ c.read.2 := by
  unfold Clock.read
  split
  · exact Nat.le_max_left _ _
  · split
    · exact Nat.le_refl _
    · split
      · exact Nat.le_refl _
      · exact Nat.le_trans (Nat.le_add_right _ _) (Nat.le_succ _)

/-- A clock read neither freezes nor thaws the counter. -/
@[simp] theorem clock_read_frozen (c : Clock) : c.read.1.frozen = c.frozen := by
  unfold Clock.read; split <;> [rfl; (split <;> [rfl; (split <;> rfl)])]

end Sys2Proof.Laws
end

