-- ==== Sys2Proof/Laws/Wait.lean ====
section
/-! SUPPORT. Everything a status read, a poll and a wait can do (R80 to R86), said once. -/

namespace Sys2Proof.Laws

open Sys2Proof.Machine

theorem encode_readStatus1 : encode .frameReadStatus1 = [0x05, 0x00] := rfl

/-- A list of two bytes is its two answers. -/
theorem two_answers {ins : List Byte} (h : ins.length = 2) : ins = [answerAt ins 1, answerAt ins 2] := by
  match ins, h with
  | [_, _], _ => rfl

/-- From a state with no open bracket a status read returns, and is one exchange `05 00`. -/
theorem xReadStatus1_spec {s : State} (h : s.csActive = false) : ∃ f st d n,
    xReadStatus1 s = .next (afterExchange s [0x05, 0x00] [f, st] d n, st) ∧
    ∀ b, s.env.answer [0x05, 0x00] = some b → st = b := by
  obtain ⟨ins, d, n, he, hl, ha⟩ := exchange_spec [0x05, 0x00] h
  refine ⟨answerAt ins 1, answerAt ins 2, d, n, ?_, fun b hb => ?_⟩
  · rw [← two_answers hl, xReadStatus1, sendFrame, encode_readStatus1, he]; rfl
  · have := ha 1 b (by simp) (by simpa using hb)
    simp [answerAt, List.getD_eq_getElem?_getD, this]

/-- What a status read that returned has done. -/
theorem xReadStatus1_eq_next {s t : State} {st : Byte} (h : xReadStatus1 s = .next (t, st)) :
    s.csActive = false ∧ ∃ f d n, t = afterExchange s [0x05, 0x00] [f, st] d n := by
  cases hc : s.csActive with
  | true => simp [xReadStatus1, sendFrame, exchange_nested _ hc] at h
  | false =>
    obtain ⟨f, st', d, n, he, -⟩ := xReadStatus1_spec hc
    rw [he] at h
    cases h
    exact ⟨rfl, f, d, n, rfl⟩

theorem xReadStatus1_ne_fault (s : State) (r : Fault) : xReadStatus1 s ≠ .fault r := by
  intro h
  obtain h | ⟨_, _, _, h⟩ := andThen_eq_fault h
  · exact exchange_ne_fault _ _ _ h
  · cases h

/-- From a state with no open bracket `ready` returns, and is one status read. -/
theorem ready_spec {s : State} (h : s.csActive = false) : ∃ f st d n,
    ready s = .next (afterExchange s [0x05, 0x00] [f, st] d n, statusReady st) ∧
    ∀ b, s.env.answer [0x05, 0x00] = some b → st = b := by
  obtain ⟨f, st, d, n, he, ha⟩ := xReadStatus1_spec h
  exact ⟨f, st, d, n, by simp [ready, he], ha⟩

/-- What a `ready` that returned has done. -/
theorem ready_eq_next {s t : State} {b : Bool} (h : ready s = .next (t, b)) :
    s.csActive = false ∧ ∃ f st d n, t = afterExchange s [0x05, 0x00] [f, st] d n ∧ b = statusReady st := by
  obtain ⟨u, st, hx, hu⟩ := andThen_eq_next h
  obtain ⟨hc, f, d, n, rfl⟩ := xReadStatus1_eq_next hx
  cases hu
  exact ⟨hc, f, st, d, n, rfl, rfl⟩

/-- The state a wait leaves: only the trace, the clock, the draws, the chip, the line level and H.ERR can differ. -/
def WaitOnly (s t : State) : Prop :=
  ∃ tr ck d n lv e er, t = { s with
    trace := tr, clock := ck, draws := d, drawCount := n, csLevel := lv, env := e, err := er }

theorem WaitOnly.refl (s : State) : WaitOnly s s := ⟨_, _, _, _, _, _, _, rfl⟩

theorem WaitOnly.trans {s t u : State} (h1 : WaitOnly s t) (h2 : WaitOnly t u) : WaitOnly s u := by
  obtain ⟨_, _, _, _, _, _, _, rfl⟩ := h1
  obtain ⟨_, _, _, _, _, _, _, rfl⟩ := h2
  exact ⟨_, _, _, _, _, _, _, rfl⟩

theorem waitOnly_afterExchange {s : State} (h : Idle s) (out ins d : List Byte) (n : Nat) :
    WaitOnly s (afterExchange s out ins d n) := by
  refine ⟨s.trace ++ s.bracket out ins, s.clock, d, n, .high, s.env.endFrame out, s.err, ?_⟩
  obtain ⟨h1, h2⟩ := h
  cases s
  simp only at h1 h2
  subst h1 h2
  simp [afterExchange]

theorem waitOnly_now (s : State) : WaitOnly s s.now.1 := ⟨_, _, _, _, _, _, _, rfl⟩

theorem waitOnly_setErr (s : State) (e : ErrorCode) : WaitOnly s (s.setErr e) := ⟨_, _, _, _, _, _, _, rfl⟩

/-- What a wait does not touch. -/
theorem WaitOnly.same {s t : State} (h : WaitOnly s t) :
    SameLineAndIds s t ∧ SameControl s t ∧ SameCaller s t ∧ t.result = s.result := by
  obtain ⟨_, _, _, _, _, _, _, rfl⟩ := h
  exact ⟨⟨rfl, rfl, rfl⟩, ⟨rfl, rfl, rfl, rfl⟩, ⟨rfl, rfl, rfl⟩, rfl⟩

theorem WaitOnly.idle {s t : State} (h : WaitOnly s t) (hs : Idle s) : Idle t := by
  obtain ⟨_, _, _, _, _, _, _, rfl⟩ := h
  exact hs

theorem afterExchange_idle {s : State} (h : Idle s) (out ins d : List Byte) (n : Nat) :
    Idle (afterExchange s out ins d n) := (waitOnly_afterExchange h out ins d n).idle h

theorem afterExchange_bracket (s : State) (out ins d : List Byte) (n : Nat) :
    (afterExchange s out ins d n).bracket = s.bracket := rfl

/-- What the events of failed polls depend on: the line and the transport. -/
theorem failedPollEvents_congr {s t : State} (h1 : t.csLine = s.csLine) (h2 : t.hasTxn = s.hasTxn)
    (fails : List FailedPoll) : failedPollEvents t fails = failedPollEvents s fails := by
  induction fails with
  | nil => rfl
  | cons p rest ih => simp only [failedPollEvents, State.bracket, h1, h2, ih]

/-- Everything a poll loop that returned has done: failed polls, each followed by a sample; then either a poll that
found the chip ready, with every sample so far within the timeout and H.ERR untouched, or a last sample beyond the
timeout, and TIMEOUT. -/
theorem readyLoop_eq_next {t0 timeout : Time} : ∀ {polls : List Unit} {s t : State} {b : Bool}, Idle s →
    readyLoop t0 timeout polls s = .next (t, b) → WaitOnly s t ∧ ∃ fails : List FailedPoll,
      (∀ p ∈ fails, statusReady p.status = false) ∧
      ((b = true ∧ t.err = s.err ∧ (∀ p ∈ fails, p.sample - t0 ≤ timeout) ∧
          ∃ f st, statusReady st = true ∧
            t.trace = s.trace ++ failedPollEvents s fails ++ s.bracket [0x05, 0x00] [f, st]) ∨
       (b = false ∧ t.err = .timeout ∧ (∃ init p, fails = init ++ [p] ∧
            (∀ q ∈ init, q.sample - t0 ≤ timeout) ∧ p.sample - t0 > timeout) ∧
          t.trace = s.trace ++ failedPollEvents s fails)) := by
  intro polls
  induction polls with
  | nil => intro s t b _ h; cases h
  | cons _ polls ih =>
    intro s t b hi h
    obtain ⟨s1, isReady, hr, hk⟩ := andThen_eq_next h
    obtain ⟨hc, f, st, d, n, rfl, rfl⟩ := ready_eq_next hr
    have hw := waitOnly_afterExchange hi [0x05, 0x00] [f, st] d n
    split at hk
    · rename_i hst
      cases hk
      exact ⟨hw, [], by simp, .inl ⟨rfl, rfl, by simp, f, st, hst, by simp [failedPollEvents]⟩⟩
    · rename_i hst
      have hst : statusReady st = false := by simpa using hst
      split at hk
      · rename_i hto
        cases hk
        refine ⟨hw.trans ((waitOnly_now _).trans (waitOnly_setErr _ _)), [⟨f, st, s.clock.read.2⟩], by simpa using hst,
          .inr ⟨rfl, rfl, ⟨[], _, rfl, by simp, by simpa using hto⟩, by simp [failedPollEvents]⟩⟩
      · rename_i hto
        obtain ⟨hw2, fails, hf, hcase⟩ := ih (s := (afterExchange s [0x05, 0x00] [f, st] d n).now.1)
          (afterExchange_idle hi [0x05, 0x00] [f, st] d n) hk
        have hev := failedPollEvents_congr (s := s) (t := (afterExchange s [0x05, 0x00] [f, st] d n).now.1) rfl rfl fails
        have hto : s.clock.read.2 - t0 ≤ timeout := by simpa using hto
        refine ⟨hw.trans ((waitOnly_now _).trans hw2), ⟨f, st, s.clock.read.2⟩ :: fails, List.forall_mem_cons.2 ⟨hst, hf⟩, ?_⟩
        rw [hev] at hcase
        obtain ⟨hb, he, hs, f', st', hst', htr⟩ | ⟨hb, he, ⟨init, p, rfl, hin, hp⟩, htr⟩ := hcase
        · exact .inl ⟨hb, by simpa using he, List.forall_mem_cons.2 ⟨hto, hs⟩, f', st', hst', by
            rw [htr]; simp [failedPollEvents, State.bracket]⟩
        · exact .inr ⟨hb, he, ⟨_ :: init, p, rfl, List.forall_mem_cons.2 ⟨hto, hin⟩, hp⟩, by
            rw [htr]; simp [failedPollEvents]⟩

/-- A poll loop that faults is out of polls. -/
theorem readyLoop_fault {t0 timeout : Time} {r : Fault} : ∀ {polls : List Unit} {s : State},
    readyLoop t0 timeout polls s = .fault r → r = .waitStuck := by
  intro polls
  induction polls with
  | nil => intro s h; cases h; rfl
  | cons _ polls ih =>
    intro s h
    obtain h | ⟨s1, b, hr, hk⟩ := andThen_eq_fault h
    · obtain h | ⟨_, _, _, h⟩ := andThen_eq_fault h
      · exact absurd h (xReadStatus1_ne_fault _ _)
      · cases h
    · split at hk
      · cases hk
      · split at hk
        · cases hk
        · exact ih hk

/-- With a live clock and polls enough for the clock to pass the deadline, a poll loop returns. -/
theorem readyLoop_returns {t0 timeout : Time} : ∀ {polls : List Unit} {s : State}, Idle s → ClockLive s →
    s.clock.last ≤ t0 + timeout →
    (∃ k, t0 + timeout < s.clock.last + k ∧
      (freePolls k s.clock.stall s.clock.advances).length + s.clock.samples.length ≤ polls.length) →
    ∃ t b, readyLoop t0 timeout polls s = .next (t, b) := by
  intro polls
  induction polls with
  | nil =>
    rintro s _ _ hle ⟨k, hk, hf⟩
    cases k with
    | zero => exact absurd (Nat.lt_of_le_of_lt hle hk) (Nat.lt_irrefl _)
    | succ k => simp [freePolls] at hf
  | cons _ polls ih =>
    rintro s hi hlive hle ⟨k, hk, hf⟩
    obtain ⟨f, st, d, n, hr, -⟩ := ready_spec hi.1
    simp only [readyLoop, hr, andThen_next]
    split
    · exact ⟨_, _, rfl⟩
    · split
      · exact ⟨_, _, rfl⟩
      · rename_i hto
        refine ih (afterExchange_idle hi [0x05, 0x00] [f, st] d n) ((clock_read_frozen s.clock).trans hlive) ?_ ?_
        · have : s.clock.read.2 - t0 ≤ timeout := by simpa using hto
          simp only [now_clock, afterExchange_clock, clock_read_last]
          exact Nat.sub_le_iff_le_add'.1 this
        · simp only [now_clock, afterExchange_clock]
          have hlive : s.clock.frozen = false := hlive
          generalize s.clock = clk at hk hf hle hlive ⊢
          obtain ⟨last, samples, stall, advances, frozen⟩ := clk
          obtain rfl : frozen = false := hlive
          cases samples with
          | cons v rest =>
            refine ⟨k, ?_, ?_⟩
            · exact Nat.lt_of_lt_of_le hk (Nat.add_le_add_right (Nat.le_max_left _ _) _)
            · simp only [Clock.read, List.length_cons] at hf ⊢
              omega
          | nil =>
            cases k with
            | zero => exact absurd (Nat.lt_of_le_of_lt hle hk) (Nat.lt_irrefl _)
            | succ k =>
              cases stall with
              | succ m =>
                refine ⟨k + 1, hk, ?_⟩
                simp only [freePolls, List.length_nil, List.length_cons, List.length_append, List.length_replicate, Clock.read] at hf ⊢
                simp only [Bool.false_eq_true, ↓reduceIte, List.length_nil]
                omega
              | zero =>
                refine ⟨k, ?_, ?_⟩
                · simp only [Clock.read, Bool.false_eq_true, ↓reduceIte]
                  simp only at hk
                  refine Nat.lt_of_lt_of_le hk ?_
                  have := Nat.le_add_right last (Config.freeAdvance advances)
                  simp only [Nat.add_comm, Nat.add_left_comm] at this ⊢
                  omega
                · simp only [freePolls, List.length_nil, List.length_cons, List.length_append, List.length_replicate, Clock.read] at hf ⊢
                  simp only [Bool.false_eq_true, ↓reduceIte, List.length_nil]
                  omega

/-- With a live clock, a wait from an idle state returns (decision D26). -/
theorem readyWait_returns {timeout : Time} {s : State} (hi : Idle s) (hlive : ClockLive s) :
    ∃ t b, readyWait timeout s = .next (t, b) := by
  refine readyLoop_returns (s := s.now.1) hi ((clock_read_frozen s.clock).trans hlive) ?_ ⟨timeout + 1, ?_, ?_⟩
  · simp [clock_read_last]
  · simp [clock_read_last]
  · have : s.now.1.clock.frozen = false := by simpa using hlive
    simp only [waitPolls, this]
    simp only [Bool.false_eq_true, ↓reduceIte, List.length_append, List.length_replicate]
    omega

/-- A wait that faults is stuck: its counter never advances again (U16). -/
theorem readyWait_fault {timeout : Time} {s : State} {r : Fault} (hi : Idle s) (h : readyWait timeout s = .fault r) :
    r = .waitStuck ∧ s.clock.frozen = true := by
  refine ⟨readyLoop_fault h, ?_⟩
  by_contra hf
  obtain ⟨t, b, hr⟩ := readyWait_returns (timeout := timeout) hi (by simpa using hf)
  rw [hr] at h
  cases h

/-- A wait on a chip whose status read is fixed to show it ready returns true at the first poll. -/
theorem readyWait_ready {timeout : Time} {s : State} {b : Byte} (hi : Idle s)
    (ha : s.env.answer [0x05, 0x00] = some b) (hb : statusReady b = true) : ∃ f d n,
    readyWait timeout s = .next (afterExchange s.now.1 [0x05, 0x00] [f, b] d n, true) := by
  obtain ⟨f, st, d, n, hr, hst⟩ := ready_spec (s := s.now.1) hi.1
  obtain rfl := hst b (by simpa using ha)
  refine ⟨f, d, n, ?_⟩
  obtain ⟨k, hk⟩ : ∃ k, waitPolls timeout s.now.1 = () :: k := ⟨_, rfl⟩
  simp [readyWait, hk, readyLoop, hr, hb]

end Sys2Proof.Laws
end

