-- ==== Sys2Proof/Laws/Moves.lean ====
section
/-! SUPPORT. What an instruction that answers a next state can have done, said once: a sequence of moves, each an
exchange of a frame the instruction emits, a clock read, a delay, or a write of the handle the instruction may make. -/

namespace Sys2Proof.Laws

open Sys2Proof.Machine

/-- The writes of the handle and the control state that rules make outside an exchange. -/
inductive Write where
  | timeout | clear | ids | configure | rebind

/-- Which of them an instruction can make (R13, R18, R108 to R110). -/
def mayWrite (i : Instr) : Write → Prop
  | .timeout => i.canTimeOut = true
  | .clear => i.canClearError = true
  | .ids => i.writesIds = true
  | .configure => i = .opBegin ∨ ∃ cs, i = .opBeginCs cs
  | .rebind => ∃ cs, i = .opBeginCs cs

/-- From `s`, moves lead to the second state: exchanges of well-formed frames in `frames`, clock reads, delays, the
writes in `writes`, and returning a result. -/
inductive Moves (frames : List Instr) (writes : Write → Prop) (s : State) : State → Prop where
  | refl : Moves frames writes s s
  | frame {t u : State} {ins : List Byte} (j : Instr) : Moves frames writes s t → j ∈ frames → j.isFrame = true →
      j.wellFormed = true → exchange (encode j) t = .next (u, ins) → Moves frames writes s u
  | now {t : State} : Moves frames writes s t → Moves frames writes s t.now.1
  | delay {t : State} (n : Nat) : Moves frames writes s t → Moves frames writes s (delayUs n t)
  | timeout {t : State} : Moves frames writes s t → writes .timeout → Moves frames writes s (t.setErr .timeout)
  | clear {t : State} : Moves frames writes s t → writes .clear → Moves frames writes s (clearError t)
  | ids {t : State} (m d : Byte) : Moves frames writes s t → writes .ids → Moves frames writes s (t.setIds m d)
  | configure {t : State} : Moves frames writes s t → writes .configure → Moves frames writes s (configureLine t)
  | rebind {t : State} (l : LineId) : Moves frames writes s t → writes .rebind → Moves frames writes s (t.setCsLine l)
  | result {t : State} (r : Result) : Moves frames writes s t → Moves frames writes s (t.setResult r)

theorem Moves.trans {frames : List Instr} {writes : Write → Prop} {s t u : State} (h1 : Moves frames writes s t)
    (h2 : Moves frames writes t u) : Moves frames writes s u := by
  induction h2 with
  | refl => exact h1
  | frame j _ hm hf hw he ih => exact .frame j ih hm hf hw he
  | now _ ih => exact .now ih
  | delay n _ ih => exact .delay n ih
  | timeout _ hw ih => exact .timeout ih hw
  | clear _ hw ih => exact .clear ih hw
  | ids m d _ hw ih => exact .ids m d ih hw
  | configure _ hw ih => exact .configure ih hw
  | rebind l _ hw ih => exact .rebind l ih hw
  | result r _ ih => exact .result r ih

section Parts

variable {frames : List Instr} {writes : Write → Prop} {s t : State}

theorem sendFrame_moves {j : Instr} {ins : List Byte} (hm : j ∈ frames) (hf : j.isFrame = true)
    (hw : j.wellFormed = true) (h : sendFrame j s = .next (t, ins)) : Moves frames writes s t :=
  .frame j .refl hm hf hw h

theorem xReadStatus1_moves {b : Byte} (hm : .frameReadStatus1 ∈ frames) (h : xReadStatus1 s = .next (t, b)) :
    Moves frames writes s t := by
  obtain ⟨u, ins, hs, hk⟩ := andThen_eq_next h
  cases hk
  exact sendFrame_moves hm rfl rfl hs

theorem ready_moves {b : Bool} (hm : .frameReadStatus1 ∈ frames) (h : ready s = .next (t, b)) :
    Moves frames writes s t := by
  obtain ⟨u, st, hs, hk⟩ := andThen_eq_next h
  cases hk
  exact xReadStatus1_moves hm hs

theorem readyLoop_moves {t0 timeout : Time} (hm : .frameReadStatus1 ∈ frames) (hw : writes .timeout) :
    ∀ {polls : List Unit} {s t : State} {b : Bool}, readyLoop t0 timeout polls s = .next (t, b) → Moves frames writes s t := by
  intro polls
  induction polls with
  | nil => intro s t b h; cases h
  | cons _ polls ih =>
    intro s t b h
    obtain ⟨u, r, hr, hk⟩ := andThen_eq_next h
    split at hk
    · cases hk; exact ready_moves hm hr
    · split at hk
      · cases hk; exact .timeout (.now (ready_moves hm hr)) hw
      · exact (Moves.now (ready_moves hm hr)).trans (ih hk)

theorem readyWait_moves {timeout : Time} {b : Bool} (hm : .frameReadStatus1 ∈ frames) (hw : writes .timeout)
    (h : readyWait timeout s = .next (t, b)) : Moves frames writes s t :=
  (Moves.now .refl).trans (readyLoop_moves hm hw h)

theorem enableWrite_moves {b : Bool} (hm : .frameReadStatus1 ∈ frames) (he : .frameWriteEnable ∈ frames)
    (h : enableWrite s = .next (t, b)) : Moves frames writes s t := by
  obtain ⟨u, _, hx, h⟩ := andThen_eq_next h
  obtain ⟨v, _, hy, h⟩ := andThen_eq_next h
  obtain ⟨w, _, hs, hx⟩ := andThen_eq_next hx
  cases h
  cases hx
  exact (sendFrame_moves he rfl rfl hs).trans (xReadStatus1_moves hm hy)

theorem disableWrite_moves {b : Bool} (hm : .frameReadStatus1 ∈ frames) (he : .frameWriteDisable ∈ frames)
    (h : disableWrite s = .next (t, b)) : Moves frames writes s t := by
  obtain ⟨u, _, hx, h⟩ := andThen_eq_next h
  obtain ⟨v, _, hy, h⟩ := andThen_eq_next h
  obtain ⟨w, _, hs, hx⟩ := andThen_eq_next hx
  cases h
  cases hx
  exact (sendFrame_moves he rfl rfl hs).trans (xReadStatus1_moves hm hy)

theorem gate_moves {b : Bool} (hm : .frameReadStatus1 ∈ frames) (he : .frameWriteEnable ∈ frames)
    (hw : writes .timeout) (h : gate s = .next (t, b)) : Moves frames writes s t := by
  obtain ⟨u, r, hr, hk⟩ := andThen_eq_next h
  split at hk
  · exact (readyWait_moves hm hw hr).trans (enableWrite_moves hm he hk)
  · cases hk; exact readyWait_moves hm hw hr

theorem settle_moves {budget : Time} {b : Bool} (hm : .frameReadStatus1 ∈ frames) (he : .frameWriteDisable ∈ frames)
    (hw : writes .timeout) (h : settle budget s = .next (t, b)) : Moves frames writes s t := by
  obtain ⟨u, r, hr, hk⟩ := andThen_eq_next h
  split at hk
  · cases hk; exact readyWait_moves hm hw hr
  · obtain ⟨v, _, hd, hk⟩ := andThen_eq_next hk
    cases hk
    exact (readyWait_moves hm hw hr).trans (disableWrite_moves hm he hd)

theorem mutate_moves {j : Instr} {budget : Time} {b : Bool} (hf : j.isFrame = true) (hwf : j.wellFormed = true)
    (hw : writes .timeout) (h : mutate j budget s = .next (t, b)) :
    Moves [.frameReadStatus1, .frameWriteEnable, j, .frameWriteDisable] writes s t := by
  obtain ⟨u, r, hr, hk⟩ := andThen_eq_next h
  have hg := gate_moves (frames := [.frameReadStatus1, .frameWriteEnable, j, .frameWriteDisable]) (by simp) (by simp) hw hr
  split at hk
  · obtain ⟨v, _, hs, hk⟩ := andThen_eq_next hk
    exact (hg.trans (sendFrame_moves (by simp) hf hwf hs)).trans (settle_moves (by simp) (by simp) hw hk)
  · cases hk; exact hg

theorem readArray_moves {addr : Address} {len : Nat} {r : Option (List Byte)} (hw : writes .timeout)
    (hc : writes .clear) (h : readArray addr len s = .next (t, r)) :
    Moves [.frameReadStatus1, .frameReadBytes addr len] writes s t := by
  obtain ⟨u, b, hr, hk⟩ := andThen_eq_next h
  have hg := readyWait_moves (frames := [.frameReadStatus1, .frameReadBytes addr len]) (by simp) hw hr
  split at hk
  · obtain ⟨v, bs, hx, hk⟩ := andThen_eq_next hk
    obtain ⟨w, _, hs, hx⟩ := andThen_eq_next hx
    cases hk
    cases hx
    exact .clear (hg.trans (sendFrame_moves (by simp) rfl rfl hs)) hc
  · cases hk; exact hg

/-- A configured body that sends one frame and returns. -/
theorem oneFrame_moves {j : Instr} {t : State} {body : State → Ran Result} (hm : j ∈ frames) (hf : j.isFrame = true)
    (hw : j.wellFormed = true) (hb : ∀ u r, body s = .next (u, r) → ∃ ins, sendFrame j s = .next (u, ins))
    (h : whenConfigured s body = .next t) : Moves frames writes s t := by
  obtain ⟨_, u, r, hu, rfl⟩ := whenConfigured_eq_next s h
  obtain ⟨ins, hs⟩ := hb u r hu
  exact .result r (sendFrame_moves hm hf hw hs)

end Parts

/-- An operand checked to be a payload makes its page-program frame well formed. -/
theorem wellFormed_pageProgram {addr : Address} {bytes : List Byte} (h : payloadInDomain bytes = true) :
    (Instr.framePageProgram addr bytes).wellFormed = true := h

/-- What an instruction that answers a next state has done (R69 column "emitted by", R13, R18): moves with the frames it
emits and the writes it may make. -/
theorem exec_moves {i : Instr} {s t : State} (h : exec i s = .next t) : Moves i.emits (mayWrite i) s t := by
  cases i <;> simp only [exec, execFrameReadStatus1, execFrameReadStatus2, execFrameWriteEnable, execFrameWriteDisable,
    execFrameReadBytes, execFramePageProgram, execFrameChipErase, execFrameSectorErase4KB,
    execFrameBlockErase32KB, execFrameBlockErase64KB, execFrameMfrDeviceId, execFrameJedecId,
    execFrameReadUniqueId, execFrameReadSfdp, execFramePowerDown, execFrameReleasePowerDown,
    execFrameReleasePowerDownId, execFrameEnableReset, execFrameReset, execOpBegin, execOpBeginCs,
    execOpStatusRegister1, execOpStatusRegister2, execOpReady, execOpReadyWait, execOpRead, execOpReadByte,
    execOpWritePage, execOpEraseChip, execOpEraseSector4KB, execOpEraseBlock32KB, execOpEraseBlock64KB,
    execOpEnableWrite, execOpDisableWrite, execOpJedecId, execOpReadUniqueId, execOpReadSfdpRegister,
    execOpPowerDown, execOpReleasePowerDown, execOpReleasePowerDownId, execOpReset, execOpErrorCode,
    execOpClearError] at h
  case frameReadStatus1 | frameReadStatus2 | opStatusRegister1 | opStatusRegister2 =>
    refine oneFrame_moves List.mem_cons_self rfl rfl (fun u r hu => ?_) h
    obtain ⟨v, b, hx, hk⟩ := andThen_eq_next hu
    obtain ⟨w, ins, hs, hx⟩ := andThen_eq_next hx
    cases hk; cases hx; exact ⟨_, hs⟩
  case frameWriteEnable | frameWriteDisable | frameChipErase | framePowerDown | frameReleasePowerDown
    | frameReleasePowerDownId | frameEnableReset | frameReset | frameJedecId | frameReadUniqueId | opPowerDown
    | opJedecId | opReadUniqueId =>
    refine oneFrame_moves List.mem_cons_self rfl rfl (fun u r hu => ?_) h
    obtain ⟨v, b, hx, hk⟩ := andThen_eq_next hu
    obtain ⟨w, ins, hs, hx⟩ := andThen_eq_next hx
    cases hk; cases hx; exact ⟨_, hs⟩
  case frameReadBytes addr n =>
    refine oneFrame_moves List.mem_cons_self rfl rfl (fun u r hu => ?_) h
    obtain ⟨v, b, hx, hk⟩ := andThen_eq_next hu
    obtain ⟨w, ins, hs, hx⟩ := andThen_eq_next hx
    cases hk; cases hx; exact ⟨_, hs⟩
  case frameSectorErase4KB addr | frameBlockErase32KB addr | frameBlockErase64KB addr =>
    refine oneFrame_moves List.mem_cons_self rfl rfl (fun u r hu => ?_) h
    obtain ⟨v, b, hx, hk⟩ := andThen_eq_next hu
    obtain ⟨w, ins, hs, hx⟩ := andThen_eq_next hx
    cases hk; cases hx; exact ⟨_, hs⟩
  case frameReadSfdp a =>
    refine oneFrame_moves List.mem_cons_self rfl rfl (fun u r hu => ?_) h
    obtain ⟨v, b, hx, hk⟩ := andThen_eq_next hu
    obtain ⟨w, ins, hs, hx⟩ := andThen_eq_next hx
    cases hk; cases hx; exact ⟨_, hs⟩
  case opReadSfdpRegister addr =>
    obtain ⟨_, h⟩ := whenInDomain_eq_next h
    refine oneFrame_moves List.mem_cons_self rfl rfl (fun u r hu => ?_) h
    obtain ⟨v, b, hx, hk⟩ := andThen_eq_next hu
    obtain ⟨w, ins, hs, hx⟩ := andThen_eq_next hx
    cases hk; cases hx; exact ⟨_, hs⟩
  case framePageProgram addr payload =>
    obtain ⟨hd, h⟩ := whenInDomain_eq_next h
    refine oneFrame_moves List.mem_cons_self rfl (wellFormed_pageProgram hd) (fun u r hu => ?_) h
    obtain ⟨v, b, hx, hk⟩ := andThen_eq_next hu
    obtain ⟨w, ins, hs, hx⟩ := andThen_eq_next hx
    cases hk; cases hx; exact ⟨_, hs⟩
  case frameMfrDeviceId =>
    obtain ⟨_, u, r, hu, rfl⟩ := whenConfigured_eq_next s h
    obtain ⟨v, b, hx, hk⟩ := andThen_eq_next hu
    obtain ⟨w, ins, hs, hx⟩ := andThen_eq_next hx
    cases hk; cases hx
    exact .result _ (.ids _ _ (sendFrame_moves List.mem_cons_self rfl rfl hs) rfl)
  case opBegin =>
    obtain ⟨u, r, hu, hk⟩ := andThen_eq_next h
    obtain ⟨v, b, hx, hk2⟩ := andThen_eq_next hu
    unfold beginBlock xMfrDeviceId at hx
    obtain ⟨w, ins, hs, hx⟩ := andThen_eq_next hx
    cases hk; cases hk2; cases hx
    exact .result _ (.ids _ _ ((Moves.configure .refl (.inl rfl)).trans (sendFrame_moves List.mem_cons_self rfl rfl hs)) rfl)
  case opBeginCs cs =>
    obtain ⟨u, r, hu, hk⟩ := andThen_eq_next h
    obtain ⟨v, b, hx, hk2⟩ := andThen_eq_next hu
    unfold beginBlock xMfrDeviceId at hx
    obtain ⟨w, ins, hs, hx⟩ := andThen_eq_next hx
    cases hk; cases hk2; cases hx
    exact .result _ (.ids _ _ ((Moves.configure (.rebind cs .refl ⟨cs, rfl⟩) (.inr ⟨cs, rfl⟩)).trans
      (sendFrame_moves List.mem_cons_self rfl rfl hs)) rfl)
  case opReady =>
    obtain ⟨_, u, r, hu, rfl⟩ := whenConfigured_eq_next s h
    obtain ⟨v, b, hx, hk⟩ := andThen_eq_next hu
    cases hk
    exact .result _ (ready_moves List.mem_cons_self hx)
  case opReadyWait timeout =>
    obtain ⟨_, u, r, hu, rfl⟩ := whenConfigured_eq_next s h
    obtain ⟨v, b, hx, hk⟩ := andThen_eq_next hu
    cases hk
    exact .result _ (readyWait_moves List.mem_cons_self rfl hx)
  case opRead addr len =>
    obtain ⟨_, h⟩ := whenInDomain_eq_next h
    obtain ⟨_, u, r, hu, rfl⟩ := whenConfigured_eq_next s h
    obtain ⟨v, b, hx, hk⟩ := andThen_eq_next hu
    cases hk
    exact .result _ (readArray_moves rfl rfl hx)
  case opReadByte addr =>
    obtain ⟨_, h⟩ := whenInDomain_eq_next h
    obtain ⟨_, u, r, hu, rfl⟩ := whenConfigured_eq_next s h
    obtain ⟨v, b, hx, hk⟩ := andThen_eq_next hu
    cases hk
    exact .result _ (readArray_moves rfl rfl hx)
  case opWritePage addr bytes =>
    obtain ⟨hd, h⟩ := whenInDomain_eq_next h
    obtain ⟨_, u, r, hu, rfl⟩ := whenConfigured_eq_next s h
    obtain ⟨v, b, hx, hk⟩ := andThen_eq_next hu
    cases hk
    exact .result _ (mutate_moves rfl (wellFormed_pageProgram (by simp at hd; exact hd.2)) rfl hx)
  case opEraseChip =>
    obtain ⟨_, u, r, hu, rfl⟩ := whenConfigured_eq_next s h
    obtain ⟨v, b, hx, hk⟩ := andThen_eq_next hu
    cases hk
    exact .result _ (mutate_moves rfl rfl rfl hx)
  case opEraseSector4KB addr | opEraseBlock32KB addr | opEraseBlock64KB addr =>
    obtain ⟨_, h⟩ := whenInDomain_eq_next h
    obtain ⟨_, u, r, hu, rfl⟩ := whenConfigured_eq_next s h
    obtain ⟨v, b, hx, hk⟩ := andThen_eq_next hu
    cases hk
    exact .result _ (mutate_moves rfl rfl rfl hx)
  case opEnableWrite =>
    obtain ⟨_, u, r, hu, rfl⟩ := whenConfigured_eq_next s h
    obtain ⟨v, b, hx, hk⟩ := andThen_eq_next hu
    cases hk
    exact .result _ (enableWrite_moves (by simp [Instr.emits]) (by simp [Instr.emits]) hx)
  case opDisableWrite =>
    obtain ⟨_, u, r, hu, rfl⟩ := whenConfigured_eq_next s h
    obtain ⟨v, b, hx, hk⟩ := andThen_eq_next hu
    cases hk
    exact .result _ (disableWrite_moves (by simp [Instr.emits]) (by simp [Instr.emits]) hx)
  case opReleasePowerDown | opReleasePowerDownId =>
    obtain ⟨_, u, r, hu, rfl⟩ := whenConfigured_eq_next s h
    obtain ⟨v, b, hx, hk⟩ := andThen_eq_next hu
    obtain ⟨w, ins, hs, hx⟩ := andThen_eq_next hx
    cases hk; cases hx
    exact .result _ (.delay _ (sendFrame_moves List.mem_cons_self rfl rfl hs))
  case opReset =>
    obtain ⟨_, u, r, hu, rfl⟩ := whenConfigured_eq_next s h
    obtain ⟨v, b, hx, hk⟩ := andThen_eq_next hu
    obtain ⟨w, ins, hs, hx⟩ := andThen_eq_next hx
    obtain ⟨v2, b2, hx2, hk⟩ := andThen_eq_next hk
    obtain ⟨w2, ins2, hs2, hx2⟩ := andThen_eq_next hx2
    cases hk; cases hx; cases hx2
    exact .result _ (.delay _ ((sendFrame_moves (by simp [Instr.emits]) rfl rfl hs).trans
      (sendFrame_moves (by simp [Instr.emits]) rfl rfl hs2)))
  case opErrorCode => cases h; exact .result _ .refl
  case opClearError => cases h; exact .result _ (.clear .refl rfl)

/-! ### What moves keep -/

section Keep

variable {frames : List Instr} {writes : Write → Prop} {s t : State}

/-- Moves leave no bracket open (R26). -/
theorem Moves.idle (h : Moves frames writes s t) (hs : Idle s) : Idle t := by
  induction h with
  | refl => exact hs
  | frame j _ _ _ _ he ih =>
    obtain ⟨_, _, d, n, rfl⟩ := exchange_eq_next he
    exact afterExchange_idle ih _ _ _ _
  | now _ ih | delay _ _ ih | timeout _ _ ih | clear _ _ ih | ids _ _ _ _ ih | configure _ _ ih | rebind _ _ _ ih
    | result _ _ ih => exact ih

/-- Moves keep the array canonical and inside the chip. -/
theorem Moves.envOk (h : Moves frames writes s t) (hs : s.env.Ok) : t.env.Ok := by
  induction h with
  | refl => exact hs
  | frame j _ _ _ _ he ih =>
    obtain ⟨_, _, d, n, rfl⟩ := exchange_eq_next he
    exact environment_ok_endFrame ih _
  | now _ ih | delay _ _ ih | timeout _ _ ih | clear _ _ ih | ids _ _ _ _ ih | configure _ _ ih | rebind _ _ _ ih
    | result _ _ ih => exact ih

/-- Moves do not touch the caller's side or the bound transport. -/
theorem Moves.caller (h : Moves frames writes s t) : SameCaller s t ∧ t.hasTxn = s.hasTxn := by
  induction h with
  | refl => exact ⟨⟨rfl, rfl, rfl⟩, rfl⟩
  | frame j _ _ _ _ he ih =>
    obtain ⟨_, _, d, n, rfl⟩ := exchange_eq_next he
    exact ih
  | now _ ih | delay _ _ ih | timeout _ _ ih | clear _ _ ih | ids _ _ _ _ ih | configure _ _ ih | rebind _ _ _ ih
    | result _ _ ih => exact ih

/-- Moves neither freeze nor thaw the counter. -/
theorem Moves.frozen (h : Moves frames writes s t) : t.clock.frozen = s.clock.frozen := by
  induction h with
  | refl => rfl
  | frame j _ _ _ _ he ih =>
    obtain ⟨_, _, d, n, rfl⟩ := exchange_eq_next he
    exact ih
  | now _ ih => simpa using ih
  | delay _ _ ih | timeout _ _ ih | clear _ _ ih | ids _ _ _ _ ih | configure _ _ ih | rebind _ _ _ ih
    | result _ _ ih => exact ih

/-- Moves without `begin` leave S.CONFIGURED. -/
theorem Moves.configured (h : Moves frames writes s t) (hw : ¬ writes .configure) : t.configured = s.configured := by
  induction h with
  | refl => rfl
  | frame j _ _ _ _ he ih =>
    obtain ⟨_, _, d, n, rfl⟩ := exchange_eq_next he
    exact ih
  | configure _ h2 ih => exact absurd h2 hw
  | now _ ih | delay _ _ ih | timeout _ _ ih | clear _ _ ih | ids _ _ _ _ ih | rebind _ _ _ ih | result _ _ ih => exact ih

/-- What moves make of H.ERR: TIMEOUT, NONE or what it was, as the writes allow. -/
theorem Moves.err (h : Moves frames writes s t) :
    (writes .timeout ∧ t.err = .timeout) ∨ (writes .clear ∧ t.err = .none) ∨ t.err = s.err := by
  induction h with
  | refl => exact .inr (.inr rfl)
  | frame j _ _ _ _ he ih =>
    obtain ⟨_, _, d, n, rfl⟩ := exchange_eq_next he
    exact ih
  | timeout _ hw _ => exact .inl ⟨hw, rfl⟩
  | clear _ hw _ => exact .inr (.inl ⟨hw, rfl⟩)
  | now _ ih | ids _ _ _ _ ih | rebind _ _ _ ih | result _ _ ih | delay _ _ ih | configure _ _ ih => exact ih

end Keep

end Sys2Proof.Laws
end

