-- ==== Sys2Proof/Laws/Trace.lean ====
section
/-! SUPPORT. Reading traces: the opcodes, the clock samples and the legality of an exchange's events and of what is
appended to them. -/

namespace Sys2Proof.Laws

open Sys2Proof.Machine

/-! ### Opcodes -/

/-- The events begin the brackets of the opcodes `ops`, and leave none open. -/
def Sends (events : List Event) (ops : List Byte) : Prop :=
  ∀ rest, opcodesSent (events ++ rest) = ops ++ opcodesSent rest

theorem Sends.nil : Sends [] [] := fun _ => rfl

theorem Sends.append {a b : List Event} {x y : List Byte} (h1 : Sends a x) (h2 : Sends b y) : Sends (a ++ b) (x ++ y) :=
  fun rest => by rw [List.append_assoc, h1, h2, List.append_assoc]

theorem Sends.opcodes {a : List Event} {x : List Byte} (h : Sends a x) : opcodesSent a = x := by
  simpa [opcodesSent] using h []

theorem Sends.congr {a : List Event} {x y : List Byte} (h : Sends a x) (e : x = y) : Sends a y := e ▸ h

theorem sends_now (t : Time) : Sends [.now t] [] := fun _ => rfl
theorem sends_delayUs (n : Nat) : Sends [.delayUs n] [] := fun _ => rfl
theorem sends_pinOut (l : LineId) : Sends [.pinOut l] [] := fun _ => rfl

theorem opcodesSent_xfers (out : List Byte) : ∀ (ins : List Byte) (rest : List Event),
    opcodesSent (List.zipWith .xfer out ins ++ rest) = opcodesSent rest := by
  induction out with
  | nil => exact fun _ _ => rfl
  | cons o out ih =>
    intro ins rest
    cases ins with
    | nil => rfl
    | cons i ins => simpa [opcodesSent] using ih ins rest

/-- An exchange sends its first byte as the opcode of one bracket. -/
theorem sends_exchange (line : LineId) (txn : Bool) (o : Byte) (out : List Byte) {ins : List Byte}
    (h : ins.length = out.length + 1) : Sends (exchangeEvents line txn (o :: out) ins) [o] := by
  intro rest
  obtain ⟨i, ins, rfl⟩ := List.exists_cons_of_length_eq_add_one h
  cases txn
  · have := opcodesSent_xfers out ins (.csHigh line :: rest)
    simpa [exchangeEvents, opcodesSent] using this
  · have := opcodesSent_xfers out ins (.txnEnd :: .csHigh line :: rest)
    simpa [exchangeEvents, opcodesSent] using this

/-- Failed polls are as many status reads. -/
theorem sends_failedPolls (s : State) (fails : List FailedPoll) :
    Sends (failedPollEvents s fails) (List.replicate fails.length 0x05) := by
  induction fails with
  | nil => exact .nil
  | cons p rest ih =>
    have h1 := sends_exchange s.csLine s.hasTxn 0x05 [0x00] (ins := [p.first, p.status]) rfl
    have := h1.append ((sends_now p.sample).append ih)
    simpa [failedPollEvents, List.replicate_succ] using this

/-! ### Lines -/

theorem eventLine_xfers {e : Event} (out : List Byte) : ∀ ins : List Byte, e ∈ List.zipWith Event.xfer out ins →
    eventLine e = none := by
  induction out with
  | nil => exact fun _ h => by simp at h
  | cons o out ih =>
    intro ins h
    cases ins with
    | nil => simp at h
    | cons i ins =>
      simp only [List.zipWith_cons_cons, List.mem_cons] at h
      obtain rfl | h := h
      · rfl
      · exact ih _ h

/-- An exchange names its line and no other. -/
theorem eventLine_exchange {line : LineId} {txn : Bool} {out ins : List Byte} {e : Event} {l : LineId}
    (he : e ∈ exchangeEvents line txn out ins) (hl : eventLine e = some l) : l = line := by
  have hx := eventLine_xfers (e := e) out ins
  cases txn <;> simp only [exchangeEvents, List.mem_append, List.mem_cons, List.cons_append, List.not_mem_nil, or_false,
    List.append_nil, List.nil_append, ite_true, ite_false, Bool.false_eq_true] at he
  · obtain rfl | he | rfl := he
    · cases hl; rfl
    · rw [hx he] at hl; cases hl
    · cases hl; rfl
  · obtain rfl | rfl | (he | rfl) | rfl := he
    · cases hl; rfl
    · cases hl
    · rw [hx he] at hl; cases hl
    · cases hl
    · cases hl; rfl

/-! ### Clock samples -/

@[simp] theorem clockSamples_append (a b : List Event) : clockSamples (a ++ b) = clockSamples a ++ clockSamples b := by
  induction a with
  | nil => rfl
  | cons e a ih => cases e <;> simp [clockSamples, ih]

theorem clockSamples_xfers (out : List Byte) : ∀ ins : List Byte, clockSamples (List.zipWith .xfer out ins) = [] := by
  induction out with
  | nil => exact fun _ => rfl
  | cons o out ih =>
    intro ins
    cases ins with
    | nil => rfl
    | cons i ins => simpa [clockSamples] using ih ins

/-- An exchange does not read the clock. -/
@[simp] theorem clockSamples_exchange (line : LineId) (txn : Bool) (out ins : List Byte) :
    clockSamples (exchangeEvents line txn out ins) = [] := by
  cases txn <;> simp [exchangeEvents, clockSamples, clockSamples_xfers]

/-- Failed polls read the clock once each. -/
@[simp] theorem clockSamples_failedPolls (s : State) (fails : List FailedPoll) :
    clockSamples (failedPollEvents s fails) = fails.map (·.sample) := by
  induction fails with
  | nil => rfl
  | cons p rest ih => simp [failedPollEvents, clockSamples, ih, State.bracket]

/-! ### Legal traces -/

theorem scanTrace_append (txn : Bool) (a b : List Event) : ∀ p : LinkPhase,
    scanTrace txn p (a ++ b) = (scanTrace txn p a).bind (scanTrace txn · b) := by
  induction a with
  | nil => exact fun _ => rfl
  | cons e a ih =>
    intro p
    simp only [List.cons_append, scanTrace]
    cases scanEvent txn p e with
    | none => rfl
    | some q => exact ih q

theorem scanTrace_xfers (txn : Bool) (line : LineId) (out : List Byte) : ∀ (ins sent : List Byte),
    ins.length = out.length →
    scanTrace txn (.inBracket line sent) (List.zipWith .xfer out ins) = some (.inBracket line (sent ++ out)) := by
  induction out with
  | nil => intro ins sent _; simp [scanTrace]
  | cons o out ih =>
    intro ins sent h
    obtain ⟨i, ins, rfl⟩ := List.exists_cons_of_length_eq_add_one h
    have := ih ins (sent ++ [o]) (by simpa using h)
    simpa [scanTrace, scanEvent] using this

/-- The events of an exchange of a frame are a legal bracket (R27, R77). -/
theorem scanTrace_exchange {txn : Bool} {line : LineId} {out ins : List Byte} (hf : isFrameBytes out = true)
    (hl : ins.length = out.length) : scanTrace txn .between (exchangeEvents line txn out ins) = some .between := by
  have hx := scanTrace_xfers txn line out ins [] hl
  cases txn
  · simp [exchangeEvents, scanTrace, scanEvent, scanTrace_append, hx, hf]
  · simp [exchangeEvents, scanTrace, scanEvent, scanTrace_append, hx, hf]

end Sys2Proof.Laws
end

