-- ==== Sys2Proof/Laws/Operations.lean ====
section
/-! SUPPORT. Everything the composed operations can do, said once: the two latch operations, a wait's trace, and the
mutating command. -/

namespace Sys2Proof.Laws

open Sys2Proof.Machine

/-- `enable_write` from a state with no open bracket: 0x06, then a status read (R90). -/
theorem enableWrite_spec {s : State} (hi : Idle s) : ∃ i1 d n i2 st d2 n2,
    enableWrite s = .next (afterExchange (afterExchange s [0x06] [i1] d n) [0x05, 0x00] [i2, st] d2 n2, statusWel st) ∧
    ∀ b, (s.env.endFrame [0x06]).answer [0x05, 0x00] = some b → st = b := by
  obtain ⟨ins, d, n, he, hl, -⟩ := exchange_spec [0x06] hi.1
  match ins, hl with
  | [i1], _ =>
  obtain ⟨i2, st, d2, n2, he2, ha⟩ := xReadStatus1_spec (s := afterExchange s [0x06] [i1] d n) rfl
  refine ⟨i1, d, n, i2, st, d2, n2, ?_, ha⟩
  change andThen (andThen (exchange [0x06] s) _) _ = _; rw [he]
  simp only [andThen_next, he2]

/-- `disable_write` from a state with no open bracket: 0x04, then a status read (R91). -/
theorem disableWrite_spec {s : State} (hi : Idle s) : ∃ i1 d n i2 st d2 n2,
    disableWrite s = .next (afterExchange (afterExchange s [0x04] [i1] d n) [0x05, 0x00] [i2, st] d2 n2, !statusWel st) ∧
    ∀ b, (s.env.endFrame [0x04]).answer [0x05, 0x00] = some b → st = b := by
  obtain ⟨ins, d, n, he, hl, -⟩ := exchange_spec [0x04] hi.1
  match ins, hl with
  | [i1], _ =>
  obtain ⟨i2, st, d2, n2, he2, ha⟩ := xReadStatus1_spec (s := afterExchange s [0x04] [i1] d n) rfl
  refine ⟨i1, d, n, i2, st, d2, n2, ?_, ha⟩
  change andThen (andThen (exchange [0x04] s) _) _ = _; rw [he]
  simp only [andThen_next, he2]

/-- What a wait that returned has sent and read (R85). -/
theorem readyWait_trace {timeout : Time} {s t : State} {b : Bool} (hi : Idle s)
    (h : readyWait timeout s = .next (t, b)) : WaitOnly s t ∧ ∃ events k,
    t.trace = s.trace ++ events ∧ Sends events (List.replicate (k + 1) 0x05) ∧
    ((b = true ∧ t.err = s.err) ∨
      (b = false ∧ t.err = .timeout ∧ ∃ t0 mid t1, clockSamples events = t0 :: mid ++ [t1] ∧ t1 - t0 > timeout ∧
        ∀ x ∈ mid, x - t0 ≤ timeout)) := by
  obtain ⟨hw, fails, hf, hc⟩ := readyLoop_eq_next (s := s.now.1) hi h
  refine ⟨(waitOnly_now s).trans hw, ?_⟩
  rw [failedPollEvents_congr (s := s) (t := s.now.1) rfl rfl fails] at hc
  obtain ⟨rfl, h1, h2, f, st, h3, h4⟩ | ⟨rfl, h1, ⟨init, p, rfl, h3, h5⟩, h4⟩ := hc
  · refine ⟨[.now s.now.2] ++ (failedPollEvents s fails ++ s.bracket [0x05, 0x00] [f, st]), fails.length, ?_, ?_,
      .inl ⟨rfl, h1⟩⟩
    rotate_left 1
    · exact (sends_now s.now.2).append ((sends_failedPolls s fails).append
        (sends_exchange s.csLine s.hasTxn 0x05 [0x00] (ins := [f, st]) rfl)) |>.congr (by simp [List.replicate_succ'])
    · simp [h4, State.now, State.bracket]
  · refine ⟨[.now s.now.2] ++ failedPollEvents s (init ++ [p]), init.length, ?_, ?_,
      .inr ⟨rfl, h1, s.now.2, init.map (·.sample), p.sample, ?_, h5, ?_⟩⟩
    rotate_left 1
    · exact (sends_now s.now.2).append (sends_failedPolls s (init ++ [p])) |>.congr (by simp [List.replicate_succ'])
    · simp [clockSamples]
    · intro x hx
      obtain ⟨q, hq, rfl⟩ := List.mem_map.1 hx
      exact h3 q hq
    · simp [h4, State.now]

/-- What a frame that was sent has sent. -/
theorem sendFrame_trace {j : Instr} {s t : State} {ins : List Byte} (hf : j.isFrame = true) (hi : Idle s)
    (h : sendFrame j s = .next (t, ins)) : WaitOnly s t ∧ t.err = s.err ∧ ∃ ev,
    t.trace = s.trace ++ ev ∧ Sends ev [headOp j] ∧ clockSamples ev = [] := by
  obtain ⟨_, hl, d, n, rfl⟩ := exchange_eq_next h
  obtain ⟨rest, hr⟩ := encode_eq_cons hf
  refine ⟨waitOnly_afterExchange hi _ _ _ _, rfl, _, rfl, ?_, by simp [State.bracket]⟩
  rw [hr] at hl ⊢
  exact sends_exchange _ _ _ _ hl

/-- What an `enable_write` that returned has sent (R90). -/
theorem enableWrite_trace {s t : State} {b : Bool} (hi : Idle s) (h : enableWrite s = .next (t, b)) :
    WaitOnly s t ∧ t.err = s.err ∧ ∃ ev, t.trace = s.trace ++ ev ∧ Sends ev [0x06, 0x05] ∧ clockSamples ev = [] := by
  obtain ⟨i1, d, n, i2, st, d2, n2, he, -⟩ := enableWrite_spec hi
  rw [he] at h; cases h
  have h1 := waitOnly_afterExchange hi [0x06] [i1] d n
  refine ⟨h1.trans (waitOnly_afterExchange (h1.idle hi) [0x05, 0x00] [i2, st] d2 n2), rfl,
    s.bracket [0x06] [i1] ++ s.bracket [0x05, 0x00] [i2, st], by simp [State.bracket], ?_, by simp [State.bracket]⟩
  exact (sends_exchange s.csLine s.hasTxn 0x06 [] (ins := [i1]) rfl).append
    (sends_exchange s.csLine s.hasTxn 0x05 [0x00] (ins := [i2, st]) rfl)

/-- What a `disable_write` that returned has sent (R91). -/
theorem disableWrite_trace {s t : State} {b : Bool} (hi : Idle s) (h : disableWrite s = .next (t, b)) :
    WaitOnly s t ∧ t.err = s.err ∧ ∃ ev, t.trace = s.trace ++ ev ∧ Sends ev [0x04, 0x05] ∧ clockSamples ev = [] := by
  obtain ⟨i1, d, n, i2, st, d2, n2, he, -⟩ := disableWrite_spec hi
  rw [he] at h; cases h
  have h1 := waitOnly_afterExchange hi [0x04] [i1] d n
  refine ⟨h1.trans (waitOnly_afterExchange (h1.idle hi) [0x05, 0x00] [i2, st] d2 n2), rfl,
    s.bracket [0x04] [i1] ++ s.bracket [0x05, 0x00] [i2, st], by simp [State.bracket], ?_, by simp [State.bracket]⟩
  exact (sends_exchange s.csLine s.hasTxn 0x04 [] (ins := [i1]) rfl).append
    (sends_exchange s.csLine s.hasTxn 0x05 [0x00] (ins := [i2, st]) rfl)

/-- BUSY and WRITE_ENABLE as the status tests see them are bits 0 and 1 (R21). -/
theorem statusReady_eq (b : Byte) : statusReady b = !b.getLsbD 0 := by revert b; decide +kernel

theorem statusWel_eq (b : Byte) : statusWel b = b.getLsbD 1 := by revert b; decide +kernel

/-- What `waitEvents` depends on: the line and the transport. -/
theorem waitEvents_congr {s t : State} (h1 : t.csLine = s.csLine) (h2 : t.hasTxn = s.hasTxn) (t0 : Time)
    (polls : List FailedPoll) : waitEvents t t0 polls = waitEvents s t0 polls := by
  rw [waitEvents, failedPollEvents_congr h1 h2, waitEvents]

/-- A wait keeps the line and the transport, so its brackets are those of the state it began in. -/
theorem WaitOnly.line {s t : State} (h : WaitOnly s t) : t.csLine = s.csLine ∧ t.hasTxn = s.hasTxn :=
  ⟨h.same.1.1, h.same.2.1.2.2.2⟩

/-- Everything a wait that returned has done, event by event (R85). -/
theorem readyWait_events {timeout : Time} {s t : State} {b : Bool} (hi : Idle s)
    (h : readyWait timeout s = .next (t, b)) : WaitOnly s t ∧ ∃ t0 polls, FoundBusy polls ∧
    ((b = true ∧ t.err = s.err ∧ WithinTime t0 timeout polls ∧ ∃ a st, st.getLsbD 0 = false ∧
        t.trace = s.trace ++ waitEvents s t0 polls ++ s.bracket [0x05, 0x00] [a, st]) ∨
     (b = false ∧ t.err = .timeout ∧ RanLate t0 timeout polls ∧ t.trace = s.trace ++ waitEvents s t0 polls)) := by
  obtain ⟨hw, fails, hf, hc⟩ := readyLoop_eq_next (s := s.now.1) hi h
  refine ⟨(waitOnly_now s).trans hw, s.now.2, fails, fun p hp => by simpa [statusReady_eq] using hf p hp, ?_⟩
  rw [failedPollEvents_congr (s := s) (t := s.now.1) rfl rfl fails] at hc
  obtain ⟨hb, h1, h2, a, st, h3, h4⟩ | ⟨hb, h1, h2, h4⟩ := hc
  · exact .inl ⟨hb, h1, h2, a, st, by simpa [statusReady_eq] using h3, by
      rw [h4]; simp [waitEvents, State.now, State.bracket]⟩
  · exact .inr ⟨hb, h1, h2, by rw [h4]; simp [waitEvents, State.now]⟩

/-- Everything a mutating command that returned has done, event by event (R92, R93). -/
theorem mutate_events {j : Instr} {budget : Time} {s t : State} {b : Bool} (hi : Idle s)
    (h : mutate j budget s = .next (t, b)) : WaitOnly s t ∧ ∃ t0 polls, FoundBusy polls ∧
    ((RanLate t0 100 polls ∧ t.trace = s.trace ++ waitEvents s t0 polls ∧ b = false ∧ t.err = .timeout) ∨
     WithinTime t0 100 polls ∧ ∃ a status i1 i2 latch, status.getLsbD 0 = false ∧
      let gate := s.trace ++ waitEvents s t0 polls ++ s.bracket [0x05, 0x00] [a, status] ++
        s.bracket [0x06] [i1] ++ s.bracket [0x05, 0x00] [i2, latch]
      ((latch.getLsbD 1 = false ∧ t.trace = gate ∧ b = false ∧ t.err = s.err) ∨
       latch.getLsbD 1 = true ∧ ∃ ins u0 later, ins.length = (encode j).length ∧ FoundBusy later ∧
        let sent := gate ++ s.bracket (encode j) ins ++ waitEvents s u0 later
        ((WithinTime u0 budget later ∧ b = true ∧ t.err = s.err ∧
            ∃ d done, done.getLsbD 0 = false ∧ t.trace = sent ++ s.bracket [0x05, 0x00] [d, done]) ∨
         (RanLate u0 budget later ∧ b = false ∧ t.err = .timeout ∧
            ∃ d e f, t.trace = sent ++ s.bracket [0x04] [d] ++ s.bracket [0x05, 0x00] [e, f])))) := by
  obtain ⟨u, p, hg, h⟩ := andThen_eq_next h
  obtain ⟨v, q, hq, hg⟩ := andThen_eq_next hg
  obtain ⟨hw1, t0, polls, hf, hc⟩ := readyWait_events hi hq
  obtain ⟨rfl, he1, hin, a, st, hst, ht1⟩ | ⟨rfl, he1, hlate, ht1⟩ := hc
  · rw [if_pos rfl] at hg
    have hi1 := hw1.idle hi
    obtain ⟨i1, d, n, i2, latch, d2, n2, hen, -⟩ := enableWrite_spec hi1
    rw [hen] at hg; cases hg
    have hw2 := waitOnly_afterExchange hi1 [0x06] [i1] d n
    have hw3 := waitOnly_afterExchange (hw2.idle hi1) [0x05, 0x00] [i2, latch] d2 n2
    generalize hu : afterExchange (afterExchange v [0x06] [i1] d n) [0x05, 0x00] [i2, latch] d2 n2 = u at h hw3
    have hwu := hw1.trans (hw2.trans hw3)
    have hiu := hwu.idle hi
    have hue : u.err = s.err := by rw [← hu, ← he1]; rfl
    have hut : u.trace = s.trace ++ waitEvents s t0 polls ++ s.bracket [0x05, 0x00] [a, st] ++
        s.bracket [0x06] [i1] ++ s.bracket [0x05, 0x00] [i2, latch] := by
      rw [← hu, ← ht1]; simp [State.bracket, hw1.line.1, hw1.line.2]
    rw [statusWel_eq] at h
    cases hl : latch.getLsbD 1 with
    | false =>
      rw [hl, if_neg (by decide)] at h; cases h
      exact ⟨hwu, t0, polls, hf, .inr ⟨hin, a, st, i1, i2, latch, hst, .inl ⟨hl, hut, rfl, hue⟩⟩⟩
    | true =>
      rw [hl, if_pos rfl] at h
      obtain ⟨w, ins, hs, h⟩ := andThen_eq_next h
      obtain ⟨_, hins, d3, n3, rfl⟩ := exchange_eq_next hs
      have hw4 := waitOnly_afterExchange hiu (encode j) ins d3 n3
      generalize hx : afterExchange u (encode j) ins d3 n3 = x at h hw4
      have hwx := hwu.trans hw4
      have hxe : x.err = s.err := by rw [← hx, ← hue]; rfl
      have hxt : x.trace = u.trace ++ s.bracket (encode j) ins := by
        rw [← hx]; simp [State.bracket, hwu.line.1, hwu.line.2]
      obtain ⟨y, q, hq2, h⟩ := andThen_eq_next h
      obtain ⟨hw5, u0, later, hf2, hc2⟩ := readyWait_events (hwx.idle hi) hq2
      have hwy := hwx.trans hw5
      simp only [waitEvents_congr hwx.line.1 hwx.line.2, State.bracket, hwx.line.1, hwx.line.2] at hc2
      obtain ⟨rfl, he5, hin5, b1, done, hdone, ht5⟩ | ⟨rfl, he5, hlate5, ht5⟩ := hc2
      · cases h
        exact ⟨hwy, t0, polls, hf, .inr ⟨hin, a, st, i1, i2, latch, hst, .inr ⟨hl, ins, u0, later, hins, hf2,
          .inl ⟨hin5, rfl, he5.trans hxe, b1, done, hdone, by rw [ht5, hxt, hut]⟩⟩⟩⟩
      · rw [if_neg (by decide)] at h
        obtain ⟨z, _, hd, h⟩ := andThen_eq_next h
        cases h
        obtain ⟨j1, d6, n6, j2, st6, d7, n7, hdi, -⟩ := disableWrite_spec (hwy.idle hi)
        rw [hdi] at hd; cases hd
        have hw6 := waitOnly_afterExchange (hwy.idle hi) [0x04] [j1] d6 n6
        have hw7 := waitOnly_afterExchange (hw6.idle (hwy.idle hi)) [0x05, 0x00] [j2, st6] d7 n7
        refine ⟨hwy.trans (hw6.trans hw7), t0, polls, hf, .inr ⟨hin, a, st, i1, i2, latch, hst, .inr ⟨hl, ins, u0, later,
          hins, hf2, .inr ⟨hlate5, rfl, he5, j1, j2, st6, ?_⟩⟩⟩⟩
        rw [← hut, ← hxt, ← ht5]; simp [State.bracket, hwy.line.1, hwy.line.2]
  · rw [if_neg (by decide)] at hg
    cases hg; cases h
    exact ⟨hw1, t0, polls, hf, .inl ⟨hlate, ht1, rfl, he1⟩⟩

/-- With a live clock, settling returns (decision D26). -/
theorem settle_returns {budget : Time} {s : State} (hi : Idle s) (hl : ClockLive s) :
    ∃ t b, settle budget s = .next (t, b) := by
  obtain ⟨u, b, hr⟩ := readyWait_returns (timeout := budget) hi hl
  cases b with
  | true => exact ⟨u, true, by simp [settle, hr]⟩
  | false =>
    have hu := (readyWait_moves (frames := [.frameReadStatus1]) (writes := fun _ => True) (by simp) trivial hr).idle hi
    obtain ⟨_, _, _, _, _, _, _, hd, -⟩ := disableWrite_spec hu
    exact ⟨_, false, by simp only [settle, hr, andThen_next, hd]; rfl⟩

/-- A mutating command on an awake chip: the gate passes, the chip takes the frame with its latch set, and settling
returns; a chip that is done at once ends it with true (R92, R93, R56). -/
theorem mutate_awake {j : Instr} {op : Byte} {rest : List Byte} {budget : Time} {s : State} {c : Chip}
    (hf : j.isFrame = true) (hj : encode j = op :: rest) (hop : op ≠ 0x66 ∧ op ≠ 0x99) (hi : Idle s) (hl : ClockLive s)
    (hc : ChipAwake s c) :
    ∃ u t b, mutate j budget s = .next (t, b) ∧
      Moves [.frameReadStatus1, .frameWriteDisable] (fun _ => True) u t ∧ Idle u ∧
      u.env = ({ c with armed := false, wel := true } : Chip).accept op rest ∧ u.err = s.err ∧ WaitOnly s t ∧
      settle budget u = .next (t, b) ∧
      (∀ st, u.env.answer [0x05, 0x00] = some st → statusReady st = true → b = true ∧ t.err = s.err) ∧
      (∃ e0 e1, u.trace = s.trace ++ e0 ∧ Sends e0 [0x05, 0x06, 0x05, op] ∧
        t.trace = u.trace ++ e1 ∧ ∃ m, (b = true ∧ Sends e1 (List.replicate (m + 1) 0x05)) ∨
          (b = false ∧ t.err = .timeout ∧ Sends e1 (List.replicate (m + 1) 0x05 ++ [0x04, 0x05]))) := by
  obtain ⟨he, hp, hb⟩ := hc
  obtain ⟨f, d, n, hr⟩ := readyWait_ready (timeout := tDefaultMs) hi (by rw [he]; exact answer_status hp)
    (by rw [hb]; cases c.wel <;> rfl)
  generalize hv : afterExchange s.now.1 [0x05, 0x00] [f, statusByte c.wel c.nBusy.isBusy] d n = v at hr
  have hvi : Idle v := by rw [← hv]; exact afterExchange_idle (s := s.now.1) hi _ _ _ _
  have hve : v.env = .responder { c with armed := false } := by 
    rw [← hv]; show s.env.endFrame _ = _; rw [he, endFrame_status_ready hp hb]
  have hverr : v.err = s.err := by rw [← hv]; rfl
  have hvw : WaitOnly s v := by rw [← hv]; exact (waitOnly_now s).trans (waitOnly_afterExchange (s := s.now.1) hi _ _ _ _)
  have hvl : ClockLive v := by rw [← hv]; exact (clock_read_frozen s.clock).trans hl
  have hvt : v.trace = s.trace ++ ([.now s.now.2] ++ s.bracket [0x05, 0x00] [f, statusByte c.wel c.nBusy.isBusy]) := by
    rw [← hv]; simp [State.now, State.bracket]
  have hvs : Sends ([.now s.now.2] ++ s.bracket [0x05, 0x00] [f, statusByte c.wel c.nBusy.isBusy]) [0x05] :=
    (sends_now s.now.2).append (sends_exchange s.csLine s.hasTxn 0x05 [0x00] (ins := [f, _]) rfl)
  generalize ([.now s.now.2] ++ s.bracket [0x05, 0x00] [f, statusByte c.wel c.nBusy.isBusy]) = ev0 at hvt hvs
  obtain ⟨i1, d, n, i2, st, d2, n2, hen, hst⟩ := enableWrite_spec hvi
  obtain ⟨-, -, ev1, hwt, hws, -⟩ := enableWrite_trace hvi hen
  have h1 : v.env.endFrame [0x06] = .responder { c with armed := false, wel := true } := by
    rw [hve, endFrame_awake (by exact hp) (by exact hb)]; rfl
  have h2 := hst 0x02 (by rw [h1, answer_status (by exact hp)]; simp [hb]; rfl)
  subst h2
  generalize hw : afterExchange (afterExchange v [0x06] [i1] d n) [0x05, 0x00] [i2, 0x02] d2 n2 = w at hen hwt
  have hwi : Idle w := by rw [← hw]; exact afterExchange_idle (afterExchange_idle hvi [0x06] [i1] d n) _ _ _ _
  have hwe : w.env = .responder { c with armed := false, wel := true } := by
    rw [← hw]; show (v.env.endFrame [0x06]).endFrame [0x05, 0x00] = _
    rw [h1, endFrame_status_ready (by exact hp) (by exact hb)]
  have hwerr : w.err = s.err := by rw [← hw, ← hverr]; rfl
  have hww : WaitOnly s w := by
    have h3 := waitOnly_afterExchange hvi [0x06] [i1] d n
    rw [← hw]; exact hvw.trans (h3.trans (waitOnly_afterExchange (h3.idle hvi) [0x05, 0x00] [i2, 0x02] d2 n2))
  have hwl : ClockLive w := by rw [← hw]; exact hvl
  obtain ⟨ins, d3, n3, hs, hl3, -⟩ := exchange_spec (op :: rest) hwi.1
  have hs : sendFrame j w = .next (afterExchange w (op :: rest) ins d3 n3, ins) := by rw [sendFrame, hj, hs]
  obtain ⟨-, -, ev2, hut, hus, -⟩ := sendFrame_trace hf hwi hs
  generalize hu : afterExchange w (op :: rest) ins d3 n3 = u at hs hut
  have hui : Idle u := by rw [← hu]; exact afterExchange_idle hwi _ _ _ _
  have hue : u.env = ({ c with armed := false, wel := true } : Chip).accept op rest := by
    rw [← hu]; show w.env.endFrame _ = _; rw [hwe, endFrame_awake (by exact hp) (by exact hb)]
    rw [Chip.disarm, if_neg (by rintro (h | h); exacts [hop.1 h, hop.2 h])]
  have huw : WaitOnly s u := by rw [← hu]; exact hww.trans (waitOnly_afterExchange hwi _ _ _ _)
  have hul : ClockLive u := by rw [← hu]; exact hwl
  have huerr : u.err = s.err := by rw [← hu, ← hwerr]; rfl
  obtain ⟨t, b, ht⟩ := settle_returns (budget := budget) hui hul
  have hm : mutate j budget s = .next (t, b) := by
    simp only [mutate, gate, hr, andThen_next, if_true, hen, hs]
    rw [show statusWel 0x02 = true from rfl, if_pos rfl]
    exact ht
  have hheadop : headOp j = op := by simp [headOp, hj]
  rw [hheadop] at hus
  have htm := settle_moves (frames := [.frameReadStatus1, .frameWriteDisable]) (writes := fun _ => True) (by simp)
    (by simp) trivial ht
  refine ⟨u, t, b, hm, htm, hui, hue, huerr, (mutate_events hi hm).1, ht, ?_, ev0 ++ ev1 ++ ev2, ?_⟩
  · intro st ha hst
    obtain ⟨f4, d4, n4, hr4⟩ := readyWait_ready (timeout := budget) hui ha hst
    simp only [settle, hr4, andThen_next, if_true] at ht
    cases ht
    exact ⟨rfl, huerr⟩
  · obtain ⟨x, q, hq2, h⟩ := andThen_eq_next ht
    obtain ⟨hw4, e4, m, ht4, hs4, hc4⟩ := readyWait_trace hui hq2
    obtain ⟨rfl, he4⟩ | ⟨rfl, he4, -⟩ := hc4
    · cases h
      exact ⟨e4, by rw [hut, hwt, hvt]; simp, ((hvs.append hws).append hus), ht4, m, .inl ⟨rfl, hs4⟩⟩
    · rw [if_neg (by decide)] at h
      obtain ⟨y, _, hd, h⟩ := andThen_eq_next h
      cases h
      obtain ⟨hw5, he5, e5, ht5, hs5, hk5⟩ := disableWrite_trace (hw4.idle hui) hd
      exact ⟨e4 ++ e5, by rw [hut, hwt, hvt]; simp, ((hvs.append hws).append hus), by rw [ht5, ht4]; simp, m,
        .inr ⟨rfl, by rw [he5, he4], hs4.append hs5⟩⟩

end Sys2Proof.Laws
end

