-- ==== Sys2Proof/Laws/PerInstr.lean ====
section
/-! SUPPORT. A statement for each instruction: its encoding has the length of its format, and an operation has neither
encoding nor format (R64, R73). -/

namespace Sys2Proof.Laws.FrameShape

/-- The frame's bytes are as many as its format says; an operation has no byte and no format. -/
def Statement (i : Instr) : Prop :=
  (encode i).length = ((frameFormat i).map (Format.totalLength (lengthOperand i))).getD 0 ∧
    (frameFormat i).isSome = i.isFrame

theorem frameReadStatus1 : Statement .frameReadStatus1 := ⟨rfl, rfl⟩
theorem frameReadStatus2 : Statement .frameReadStatus2 := ⟨rfl, rfl⟩
theorem frameWriteEnable : Statement .frameWriteEnable := ⟨rfl, rfl⟩
theorem frameWriteDisable : Statement .frameWriteDisable := ⟨rfl, rfl⟩
theorem frameReadBytes (addr : Address) (n : Nat) : Statement (.frameReadBytes addr n) := by
  constructor
  · simp [encode, frameFormat, Format.totalLength, lengthOperand, addressBytes, fillers]; omega
  · rfl
theorem framePageProgram (addr : Address) (payload : List Byte) : Statement (.framePageProgram addr payload) := by
  constructor
  · simp [encode, frameFormat, Format.totalLength, lengthOperand, addressBytes]; omega
  · rfl
theorem frameChipErase : Statement .frameChipErase := ⟨rfl, rfl⟩
theorem frameSectorErase4KB (addr : Address) : Statement (.frameSectorErase4KB addr) := ⟨rfl, rfl⟩
theorem frameBlockErase32KB (addr : Address) : Statement (.frameBlockErase32KB addr) := ⟨rfl, rfl⟩
theorem frameBlockErase64KB (addr : Address) : Statement (.frameBlockErase64KB addr) := ⟨rfl, rfl⟩
theorem frameMfrDeviceId : Statement .frameMfrDeviceId := ⟨rfl, rfl⟩
theorem frameJedecId : Statement .frameJedecId := ⟨rfl, rfl⟩
theorem frameReadUniqueId : Statement .frameReadUniqueId := ⟨rfl, rfl⟩
theorem frameReadSfdp (a : Byte) : Statement (.frameReadSfdp a) := ⟨rfl, rfl⟩
theorem framePowerDown : Statement .framePowerDown := ⟨rfl, rfl⟩
theorem frameReleasePowerDown : Statement .frameReleasePowerDown := ⟨rfl, rfl⟩
theorem frameReleasePowerDownId : Statement .frameReleasePowerDownId := ⟨rfl, rfl⟩
theorem frameEnableReset : Statement .frameEnableReset := ⟨rfl, rfl⟩
theorem frameReset : Statement .frameReset := ⟨rfl, rfl⟩
theorem opBegin : Statement .opBegin := ⟨rfl, rfl⟩
theorem opBeginCs (cs : LineId) : Statement (.opBeginCs cs) := ⟨rfl, rfl⟩
theorem opStatusRegister1 : Statement .opStatusRegister1 := ⟨rfl, rfl⟩
theorem opStatusRegister2 : Statement .opStatusRegister2 := ⟨rfl, rfl⟩
theorem opReady : Statement .opReady := ⟨rfl, rfl⟩
theorem opReadyWait (timeout : Option Time) : Statement (.opReadyWait timeout) := ⟨rfl, rfl⟩
theorem opRead (addr len : Nat) : Statement (.opRead addr len) := ⟨rfl, rfl⟩
theorem opReadByte (addr : Nat) : Statement (.opReadByte addr) := ⟨rfl, rfl⟩
theorem opWritePage (addr : Nat) (bytes : List Byte) : Statement (.opWritePage addr bytes) := ⟨rfl, rfl⟩
theorem opEraseChip : Statement .opEraseChip := ⟨rfl, rfl⟩
theorem opEraseSector4KB (addr : Nat) : Statement (.opEraseSector4KB addr) := ⟨rfl, rfl⟩
theorem opEraseBlock32KB (addr : Nat) : Statement (.opEraseBlock32KB addr) := ⟨rfl, rfl⟩
theorem opEraseBlock64KB (addr : Nat) : Statement (.opEraseBlock64KB addr) := ⟨rfl, rfl⟩
theorem opEnableWrite : Statement .opEnableWrite := ⟨rfl, rfl⟩
theorem opDisableWrite : Statement .opDisableWrite := ⟨rfl, rfl⟩
theorem opJedecId : Statement .opJedecId := ⟨rfl, rfl⟩
theorem opReadUniqueId : Statement .opReadUniqueId := ⟨rfl, rfl⟩
theorem opReadSfdpRegister (addr : Nat) : Statement (.opReadSfdpRegister addr) := ⟨rfl, rfl⟩
theorem opPowerDown : Statement .opPowerDown := ⟨rfl, rfl⟩
theorem opReleasePowerDown : Statement .opReleasePowerDown := ⟨rfl, rfl⟩
theorem opReleasePowerDownId : Statement .opReleasePowerDownId := ⟨rfl, rfl⟩
theorem opReset : Statement .opReset := ⟨rfl, rfl⟩
theorem opErrorCode : Statement .opErrorCode := ⟨rfl, rfl⟩
theorem opClearError : Statement .opClearError := ⟨rfl, rfl⟩

end Sys2Proof.Laws.FrameShape
end

