-- ==== Sys2Proof/Laws/Step.lean ====
section
/-! SUPPORT. Everything a step that answers a next state can have done. -/

namespace Sys2Proof.Laws

open Sys2Proof.Machine

/-- A step runs a placed frame routine, or waits with nothing to invoke, or runs the caller's next operation. -/
theorem step_eq_next {s t : State} (h : step s = .next t) :
    (∃ i u, s.loneFrame = some i ∧ exec i s = .next u ∧ t = u.clearLone) ∨
    (s.loneFrame = none ∧ s.pending = [] ∧ t = s) ∨
    ∃ i rest u, s.loneFrame = none ∧ s.pending = i :: rest ∧ i.isFrame = false ∧ exec i s = .next u ∧ t = u.advance := by
  unfold step at h
  split at h
  · rename_i i hl
    obtain ⟨u, hu, rfl⟩ := onNext_eq_next h
    exact .inl ⟨i, u, hl, hu, rfl⟩
  · rename_i hl
    split at h
    · rename_i hp
      cases h
      exact .inr (.inl ⟨hl, hp, rfl⟩)
    · rename_i i rest hp
      split at h
      · cases h
      · rename_i hf
        obtain ⟨u, hu, rfl⟩ := onNext_eq_next h
        exact .inr (.inr ⟨i, rest, u, hl, hp, by simpa using hf, hu, rfl⟩)

/-- No step leaves a placed frame routine. -/
theorem step_loneFrame {s t : State} (h : step s = .next t) : t.loneFrame = none := by
  obtain ⟨i, u, -, -, rfl⟩ | ⟨hl, -, rfl⟩ | ⟨i, rest, u, hl, -, -, hu, rfl⟩ := step_eq_next h
  · rfl
  · exact hl
  · simpa [hl] using (exec_moves hu).caller.1.2.2

end Sys2Proof.Laws
end

