-- ==== Sys2Proof/Tests/Slice0.lean ====
section
/-! SUPPORT. The model's own tests: the well-formedness checks, words written out from 30_encoding.md, single steps of the
vectors of 95_test_vectors.md, and a witness for the hypotheses of each statement. -/

namespace Sys2Proof.Tests

open Sys2Proof.Machine

/-! ### Small states -/

/-- The responder of 95_test_vectors.md, with the identity bytes of V33, V34 and V35. -/
def chip : Chip where
  flashBytes := 8388608
  mfr := 0xEF
  dev := 0x17
  jtype := 0x40
  jcap := 0x17
  uid := [0xD1, 0x62, 0x30, 0x11, 0x22, 0x33, 0x44, 0x55]
  sfdp := [0, 0, 0, 0, 0x53]
  sr2 := 0x02
  busyReads := ⟨.reads 0, .reads 0, .reads 0, .reads 0, .reads 0⟩
  mem := []
  nBusy := .reads 0
  wel := false
  pd := false
  armed := false

/-- The start state of the vectors: configured, the given counter answers, every discarded or garbage answer `d`. -/
def stateWith (d : Byte) (c : Chip) (samples : List Time) : State :=
  { State.reset with
    configured := true, draws := List.replicate 40 d, clock := ⟨0, samples, 0, 0, false⟩, env := .responder c }

/-- The same with garbage 0x00. -/
def state (c : Chip) (samples : List Time) : State := stateWith 0 c samples

/-- A state whose counter never advances. -/
def frozenState (c : Chip) : State := { state c [] with draws := [], clock := ⟨5, [], 0, 0, true⟩ }

/-- The exchange `<o1/i1 o2/i2 ..>` on line 10 without transaction, discarded answers 0. -/
def ex (pairs : List (Byte × Byte)) : List Event :=
  .csLow 10 :: pairs.map (fun p => .xfer p.1 p.2) ++ [.csHigh 10]

/-- The trace, the result and H.ERR an instruction leaves. -/
def run (i : Instr) (s : State) : Option (List Event × Option Result × ErrorCode) :=
  match exec i s with
  | .next t => some (t.trace, t.result, t.err)
  | .fault _ => none
  | .refused _ => none

/-- The bytes of the array at the addresses `as` after an instruction. -/
def arrayAfter (i : Instr) (s : State) (as : List Nat) : Option (List (Option Byte)) :=
  match exec i s with
  | .next t => some (as.map t.arrayByte)
  | .fault _ => none
  | .refused _ => none

/-- The responder's `n_busy wel pd armed` after an instruction. -/
def chipAfter (i : Instr) (s : State) : Option (BusyCount × Bool × Bool × Bool) :=
  match exec i s with
  | .next t =>
    match t.env with
    | .responder c => some (c.nBusy, c.wel, c.pd, c.armed)
    | .anyChip => none
  | .fault _ => none
  | .refused _ => none

/-- The outcome is a next state. -/
def isNext {S F R : Type} : Host.Outcome S F R → Bool
  | .next _ => true
  | .fault _ => false
  | .refused _ => false

theorem next_of_isNext {S F R : Type} {o : Host.Outcome S F R} (h : isNext o = true) : ∃ t, o = .next t := by
  cases o with
  | next t => exact ⟨t, rfl⟩
  | fault r => cases h
  | refused r => cases h

/-- How an outcome stops, if it does. -/
def stop {S : Type} : Host.Outcome S Fault Refusal → Option (Fault ⊕ Refusal)
  | .next _ => none
  | .fault r => some (.inl r)
  | .refused r => some (.inr r)

theorem fault_of_stop {S : Type} {o : Host.Outcome S Fault Refusal} {r : Fault} (h : stop o = some (.inl r)) :
    o = .fault r := by
  cases o <;> simp_all [stop]

theorem refused_of_stop {S : Type} {o : Host.Outcome S Fault Refusal} {r : Refusal} (h : stop o = some (.inr r)) :
    o = .refused r := by
  cases o <;> simp_all [stop]

/-! ### WellFormed: each check refuses an ill-formed term (R72) -/

theorem test_wellFormed_framePageProgram :
    (Instr.framePageProgram 0 (List.replicate 257 0)).wellFormed = false ∧
      (Instr.framePageProgram 0 (List.replicate 256 0)).wellFormed = true := by decide +kernel
theorem test_wellFormed_read :
    (Instr.opRead 0x1000000 1).wellFormed = false ∧ (Instr.opRead 0xFFFFFF 1).wellFormed = true := by decide
theorem test_wellFormed_readByte :
    (Instr.opReadByte 0x1000000).wellFormed = false ∧ (Instr.opReadByte 0xFFFFFF).wellFormed = true := by decide
theorem test_wellFormed_writePage_address : (Instr.opWritePage 0x1000000 [0]).wellFormed = false := by decide
theorem test_wellFormed_writePage_payload :
    (Instr.opWritePage 0 (List.replicate 257 0)).wellFormed = false ∧
      (Instr.opWritePage 0xFFFFFF (List.replicate 256 0)).wellFormed = true := by decide +kernel
theorem test_wellFormed_erases :
    (Instr.opEraseSector4KB 0x1000000).wellFormed = false ∧ (Instr.opEraseBlock32KB 0x1000000).wellFormed = false ∧
      (Instr.opEraseBlock64KB 0x1000000).wellFormed = false := by decide
theorem test_wellFormed_sfdp :
    (Instr.opReadSfdpRegister 256).wellFormed = false ∧ (Instr.opReadSfdpRegister 255).wellFormed = true := by decide

/-! ### Decoding: bytes written out from R69, numbered as spec/opcode_table.json numbers them -/

theorem test_decode_status : decode [0x05, 0x00] = .ok .frameReadStatus1 ∧ decode [0x35, 0x00] = .ok .frameReadStatus2 := by
  decide
theorem test_decode_latch : decode [0x06] = .ok .frameWriteEnable ∧ decode [0x04] = .ok .frameWriteDisable := by decide
theorem test_decode_read : decode [0x03, 0xAB, 0xCD, 0xEF, 0, 0, 0] = .ok (.frameReadBytes 0xABCDEF 3) := by decide
theorem test_decode_read_none : decode [0x03, 0xAB, 0xCD, 0xEF] = .ok (.frameReadBytes 0xABCDEF 0) := by decide
theorem test_decode_program : decode [0x02, 0x00, 0x01, 0x02, 0xDE, 0xAD] = .ok (.framePageProgram 0x000102 [0xDE, 0xAD]) := by
  decide
theorem test_decode_erases :
    decode [0x60] = .ok .frameChipErase ∧ decode [0x20, 0x12, 0x34, 0x56] = .ok (.frameSectorErase4KB 0x123456) ∧
      decode [0x52, 0x12, 0x34, 0x56] = .ok (.frameBlockErase32KB 0x123456) ∧
      decode [0xD8, 0x12, 0x34, 0x56] = .ok (.frameBlockErase64KB 0x123456) := by decide
theorem test_decode_identification :
    decode [0x90, 0, 0, 0, 0, 0] = .ok .frameMfrDeviceId ∧ decode [0x9F, 0, 0, 0] = .ok .frameJedecId ∧
      decode [0x4B, 0, 0, 0, 0, 0, 0, 0, 0, 0, 0, 0, 0] = .ok .frameReadUniqueId ∧
      decode [0x5A, 0, 0, 0xFE, 0, 0] = .ok (.frameReadSfdp 0xFE) := by decide
theorem test_decode_power :
    decode [0xB9] = .ok .framePowerDown ∧ decode [0xAB] = .ok .frameReleasePowerDown ∧
      decode [0xAB, 0, 0, 0, 0] = .ok .frameReleasePowerDownId ∧ decode [0x66] = .ok .frameEnableReset ∧
      decode [0x99] = .ok .frameReset := by decide
theorem test_decode_refuses :
    decode [] = .error .emptyBracket ∧ decode [0xC7] = .error (.unknownOpcode 0xC7) ∧
      decode [0x05] = .error (.wrongLength 0x05) ∧ decode [0x05, 0x01] = .error (.nonZeroFiller 0x05) ∧
      decode [0x20, 0x12, 0x34] = .error (.wrongLength 0x20) ∧ decode [0xAB, 0] = .error (.wrongLength 0xAB) ∧
      decode [0x5A, 0, 1, 0xFE, 0, 0] = .error (.nonZeroFiller 0x5A) ∧
      decode [0x03, 0, 0, 0, 0xFF] = .error (.nonZeroFiller 0x03) := by decide
theorem test_decode_program_too_long : decode (0x02 :: List.replicate 260 0) = .error (.wrongLength 0x02) := by decide +kernel
/-- A table word: the opcode in bits 7..0, the most significant address byte in bits 15..8. -/
theorem test_tableWord_sector : decodeTableWord 32 0x56341220 = some (.frameSectorErase4KB 0x123456) := by decide
theorem test_tableWord_opcode_only :
    decodeTableWord 8 0x4B = some .frameReadUniqueId ∧ decodeTableWord 8 0xAB = some .frameReleasePowerDown ∧
      decodeTableWord 40 0xAB = some .frameReleasePowerDownId := by decide
theorem test_fetchWord_runs_first :
    isNext (step (State.reset.withFetchWord 8 0x05)) = true ∧ isNext (step (State.reset.withFetchWord 40 0xAB)) = true := by
  decide

/-! ### Status and wait (V1 to V7) -/

/-- V1, V2: the bracket with and without transaction. -/
theorem test_V1_status1_transaction :
    run .opStatusRegister1 { state { chip with wel := true } [] with hasTxn := true } =
      some ([.csLow 10, .txnBegin, .xfer 0x05 0, .xfer 0 0x02, .txnEnd, .csHigh 10], some (.byte 0x02), .none) := by decide
theorem test_V2_status1 :
    run .opStatusRegister1 (state { chip with wel := true } []) = some (ex [(0x05, 0), (0, 0x02)], some (.byte 0x02), .none) := by
  decide
theorem test_frame_status1 :
    run .frameReadStatus1 (state { chip with nBusy := .never } []) = some (ex [(0x05, 0), (0, 0x01)], some (.byte 0x01), .none) := by
  decide
/-- V35. -/
theorem test_V35_status2 : run .opStatusRegister2 (state chip []) = some (ex [(0x35, 0), (0, 0x02)], some (.byte 0x02), .none) := by
  decide
theorem test_frame_status2 :
    run .frameReadStatus2 (state chip []) = some (ex [(0x35, 0), (0, 0x02)], some (.byte 0x02), .none) := by decide
/-- V3: only bit 0 is tested; the environment answers the byte. -/
theorem test_V3_ready_FE :
    run .opReady { stateWith 0xFE chip [] with env := .anyChip } =
      some (ex [(0x05, 0xFE), (0, 0xFE)], some (.bool true), .none) := by decide
theorem test_V3_ready_03 :
    run .opReady { stateWith 0x03 chip [] with env := .anyChip } =
      some (ex [(0x05, 0x03), (0, 0x03)], some (.bool false), .none) := by decide
/-- V4: elapsed equal to the timeout is no timeout. -/
theorem test_V4_readyWait_strict :
    run (.opReadyWait (some 3)) (state { chip with nBusy := .never } [10, 11, 13, 14]) =
      some (.now 10 :: ex [(0x05, 0), (0, 0x01)] ++ .now 11 :: ex [(0x05, 0), (0, 0x01)] ++
        .now 13 :: ex [(0x05, 0), (0, 0x01)] ++ [.now 14], some (.bool false), .timeout) := by decide +kernel
/-- V7 (b) with V6: the default timeout; success leaves a stale error. -/
theorem test_V7b_readyWait_default :
    run (.opReadyWait none) { state { chip with nBusy := .reads 1, wel := true } [0, 50] with err := .timeout } =
      some (.now 0 :: ex [(0x05, 0), (0, 0x03)] ++ .now 50 :: ex [(0x05, 0), (0, 0x00)], some (.bool true), .timeout) := by
  decide +kernel
/-- U16. -/
theorem test_readyWait_frozen :
    stop (exec (.opReadyWait none) (frozenState { chip with nBusy := .never })) = some (.inl .waitStuck) := by decide +kernel

/-! ### Write enable (V9) -/

theorem test_V9a_enableWrite :
    run .opEnableWrite (state chip []) = some (ex [(0x06, 0)] ++ ex [(0x05, 0), (0, 0x02)], some (.bool true), .none) ∧
      chipAfter .opEnableWrite (state chip []) = some (.reads 0, true, false, false) := by decide
theorem test_V9b_enableWrite_poweredDown :
    run .opEnableWrite (state { chip with pd := true } []) =
      some (ex [(0x06, 0)] ++ ex [(0x05, 0), (0, 0x00)], some (.bool false), .none) := by decide
theorem test_V9c_disableWrite :
    run .opDisableWrite (state { chip with wel := true } []) =
      some (ex [(0x04, 0)] ++ ex [(0x05, 0), (0, 0x00)], some (.bool true), .none) := by decide
theorem test_V9e_disableWrite_busy :
    run .opDisableWrite (state { chip with wel := true, nBusy := .never } []) =
      some (ex [(0x04, 0)] ++ ex [(0x05, 0), (0, 0x03)], some (.bool false), .none) := by decide
theorem test_frame_latch :
    chipAfter .frameWriteEnable (state chip []) = some (.reads 0, true, false, false) ∧
      chipAfter .frameWriteDisable (state { chip with wel := true } []) = some (.reads 0, false, false, false) := by decide

/-! ### Read and page program (V10 to V22) -/

/-- V10: the gate fails at the verification. -/
theorem test_V10_writePage_gate_latch :
    run (.opWritePage 0x000100 [0xDE, 0xAD]) (state { chip with pd := true } [5]) =
      some (.now 5 :: ex [(0x05, 0), (0, 0)] ++ ex [(0x06, 0)] ++ ex [(0x05, 0), (0, 0)], some (.bool false), .none) := by
  decide +kernel
/-- V11: the gate fails at the wait. -/
theorem test_V11_writePage_gate_wait :
    run (.opWritePage 0x000100 [0xDE, 0xAD]) (state { chip with nBusy := .never } [0, 60, 101]) =
      some (.now 0 :: ex [(0x05, 0), (0, 1)] ++ .now 60 :: ex [(0x05, 0), (0, 1)] ++ [.now 101],
        some (.bool false), .timeout) := by decide +kernel
theorem test_V12_read :
    run (.opRead 0x001234 2) (state { chip with mem := [(0x1234, 0xAA), (0x1235, 0x55)] } [7]) =
      some (.now 7 :: ex [(0x05, 0), (0, 0)] ++ ex [(0x03, 0), (0x00, 0), (0x12, 0), (0x34, 0), (0, 0xAA), (0, 0x55)],
        some (.okBytes [0xAA, 0x55]), .none) := by decide +kernel
/-- V15: a timed-out read sends no 0x03 frame. -/
theorem test_V15_read_timeout :
    run (.opRead 0x001234 2) (state { chip with nBusy := .never } [0, 101]) =
      some (.now 0 :: ex [(0x05, 0), (0, 1)] ++ [.now 101], some .fail, .timeout) := by decide +kernel
/-- V16: the highest address of the array, and a stale error cleared. -/
theorem test_V16_readByte_top :
    run (.opReadByte 0x7FFFFF) { state { chip with mem := [(0x7FFFFF, 0x5A)] } [3] with err := .timeout } =
      some (.now 3 :: ex [(0x05, 0), (0, 0)] ++ ex [(0x03, 0), (0x7F, 0), (0xFF, 0), (0xFF, 0), (0, 0x5A)],
        some (.okByte 0x5A), .none) := by decide +kernel
theorem test_frame_read :
    run (.frameReadBytes 0x001234 1) (state { chip with mem := [(0x1234, 0xAA)] } []) =
      some (ex [(0x03, 0), (0x00, 0), (0x12, 0), (0x34, 0), (0, 0xAA)], some (.bytes [0xAA]), .none) := by decide
/-- V18: the page wraps. -/
theorem test_V18_writePage_wraps :
    run (.opWritePage 0x0010FE [0x11, 0x22, 0x33]) (state chip [0, 0]) =
      some (.now 0 :: ex [(0x05, 0), (0, 0)] ++ ex [(0x06, 0)] ++ ex [(0x05, 0), (0, 2)] ++
        ex [(0x02, 0), (0x00, 0), (0x10, 0), (0xFE, 0), (0x11, 0), (0x22, 0), (0x33, 0)] ++
        .now 0 :: ex [(0x05, 0), (0, 0)], some (.bool true), .none) ∧
      arrayAfter (.opWritePage 0x0010FE [0x11, 0x22, 0x33]) (state chip [0, 0]) [0x10FE, 0x10FF, 0x1000, 0x1100, 0x1001] =
        some [some 0x11, some 0x22, some 0x33, some 0xFF, some 0xFF] := by decide +kernel
/-- V19: programming only clears bits. -/
theorem test_V19_framePageProgram_clears :
    arrayAfter (.framePageProgram 0x002000 [0x3C, 0xFF])
      (state { chip with wel := true, mem := [(0x2000, 0xF0), (0x2001, 0x00)] } []) [0x2000, 0x2001] =
        some [some 0x30, some 0x00] := by decide
/-- V20: the post-condition times out at 3 ms, and `disable_write` is issued. -/
theorem test_V20_writePage_settle_timeout :
    run (.opWritePage 0x000100 [0xDE])
      (state { chip with busyReads := ⟨.never, .reads 0, .reads 0, .reads 0, .reads 0⟩ } [0, 0, 2, 3, 4]) =
      some (.now 0 :: ex [(0x05, 0), (0, 0)] ++ ex [(0x06, 0)] ++ ex [(0x05, 0), (0, 2)] ++
        ex [(0x02, 0), (0x00, 0), (0x01, 0), (0x00, 0), (0xDE, 0)] ++ .now 0 :: ex [(0x05, 0), (0, 3)] ++
        .now 2 :: ex [(0x05, 0), (0, 3)] ++ .now 3 :: ex [(0x05, 0), (0, 3)] ++ .now 4 ::
        ex [(0x04, 0)] ++ ex [(0x05, 0), (0, 3)], some (.bool false), .timeout) := by decide +kernel

/-! ### Erase (V8, V24 to V29) -/

/-- V8, the source's T7: the last two exchanges are `disable_write`'s. -/
theorem test_V8_eraseChip_timeout :
    run .opEraseChip
      (state { chip with busyReads := ⟨.reads 0, .reads 0, .reads 0, .reads 0, .never⟩ } [1000, 1000, 51000, 101000, 101001]) =
      some (.now 1000 :: ex [(0x05, 0), (0, 0)] ++ ex [(0x06, 0)] ++ ex [(0x05, 0), (0, 2)] ++ ex [(0x60, 0)] ++
        .now 1000 :: ex [(0x05, 0), (0, 3)] ++ .now 51000 :: ex [(0x05, 0), (0, 3)] ++ .now 101000 :: ex [(0x05, 0), (0, 3)] ++ .now 101001 ::
        ex [(0x04, 0)] ++ ex [(0x05, 0), (0, 3)], some (.bool false), .timeout) := by decide +kernel
theorem test_V24_eraseChip_array :
    arrayAfter .opEraseChip (state { chip with mem := [(0, 0), (0x7FFFFF, 0x12)] } [0, 0]) [0, 0x7FFFFF] =
      some [some 0xFF, some 0xFF] := by decide +kernel
/-- V25: the edges of a sector. -/
theorem test_V25_eraseSector_edges :
    arrayAfter (.opEraseSector4KB 0x001000)
      (state { chip with mem := [(0x0FFF, 0), (0x1000, 0), (0x1FFF, 0), (0x2000, 0)] } [50, 51])
      [0x0FFF, 0x1000, 0x1FFF, 0x2000] = some [some 0, some 0xFF, some 0xFF, some 0] := by decide +kernel
/-- V26, V27: the edges of the two blocks. -/
theorem test_V26_eraseBlock32_edges :
    arrayAfter (.opEraseBlock32KB 0x018000)
      (state { chip with mem := [(0x17FFF, 0), (0x18000, 0), (0x1FFFF, 0), (0x20000, 0)] } [0, 0])
      [0x17FFF, 0x18000, 0x1FFFF, 0x20000] = some [some 0, some 0xFF, some 0xFF, some 0] := by decide +kernel
theorem test_V27_eraseBlock64_edges :
    arrayAfter (.opEraseBlock64KB 0x7F0000)
      (state { chip with mem := [(0x7EFFFF, 0), (0x7F0000, 0), (0x7FFFFF, 0)] } [0, 0])
      [0x7EFFFF, 0x7F0000, 0x7FFFFF] = some [some 0, some 0xFF, some 0xFF] := by decide +kernel
theorem test_frames_erase :
    arrayAfter (.frameSectorErase4KB 0x001000) (state { chip with wel := true, mem := [(0x1FFF, 0)] } []) [0x1FFF] =
      some [some 0xFF] ∧
    arrayAfter (.frameBlockErase32KB 0x008000) (state { chip with wel := true, mem := [(0xFFFF, 0)] } []) [0xFFFF] =
      some [some 0xFF] ∧
    arrayAfter (.frameBlockErase64KB 0x010000) (state { chip with wel := true, mem := [(0x1FFFF, 0)] } []) [0x1FFFF] =
      some [some 0xFF] ∧
    arrayAfter .frameChipErase (state { chip with mem := [(0, 0)] } []) [0] = some [some 0] := by decide
/-- V28: a misaligned erase leaves a chip of which nothing is known. -/
theorem test_V28_misaligned :
    (match exec (.frameSectorErase4KB 0x001234) (state { chip with wel := true } []) with
      | .next t => t.env
      | .fault _ => .responder chip
      | .refused _ => .responder chip) = .anyChip := by decide

/-! ### Identification (V30 to V34) -/

/-- V30: `begin`, with transactions, from the handle as created. -/
theorem test_V30_begin :
    (match exec .opBegin { state chip [] with configured := false, hasTxn := true } with
      | .next t => (t.trace, t.mfrId, t.devId, t.configured)
      | .fault _ => ([], none, none, false)
      | .refused _ => ([], none, none, false)) =
    ([.pinOut 10, .csLow 10, .txnBegin, .xfer 0x90 0, .xfer 0 0, .xfer 0 0, .xfer 0 0, .xfer 0 0xEF, .xfer 0 0x17, .txnEnd,
      .csHigh 10], some 0xEF, some 0x17, true) := by decide
/-- V31: `begin(9)` names line 9 alone. -/
theorem test_V31_beginCs :
    (match exec (.opBeginCs 9) { state chip [] with configured := false } with
      | .next t => (t.trace, t.csLine)
      | .fault _ => ([], 0)
      | .refused _ => ([], 0)) =
    ([.pinOut 9, .csLow 9, .xfer 0x90 0, .xfer 0 0, .xfer 0 0, .xfer 0 0, .xfer 0 0xEF, .xfer 0 0x17, .csHigh 9], 9) := by
  decide
theorem test_frame_mfrDeviceId :
    (match exec .frameMfrDeviceId (state chip []) with
      | .next t => (t.mfrId, t.devId)
      | .fault _ => (none, none)
      | .refused _ => (none, none)) = (some 0xEF, some 0x17) := by decide
theorem test_V32_jedecId :
    run .opJedecId (state chip []) = some (ex [(0x9F, 0), (0, 0xEF), (0, 0x40), (0, 0x17)], some (.u24 0xEF4017), .none) := by
  decide
theorem test_frame_jedecId :
    run .frameJedecId (state chip []) =
      some (ex [(0x9F, 0), (0, 0xEF), (0, 0x40), (0, 0x17)], some (.bytes [0xEF, 0x40, 0x17]), .none) := by decide
theorem test_V33_uniqueId :
    run .opReadUniqueId (state chip []) =
      some (ex [(0x4B, 0), (0, 0), (0, 0), (0, 0), (0, 0), (0, 0xD1), (0, 0x62), (0, 0x30), (0, 0x11), (0, 0x22), (0, 0x33),
        (0, 0x44), (0, 0x55)], some (.u64 0xD162301122334455), .none) := by decide
/-- V33 (c): the first byte is bits 63:56. -/
theorem test_V33c_uniqueId :
    (run .opReadUniqueId (state { chip with uid := [0x80, 0, 0, 0, 0, 0, 0, 0] } [])).map (·.2.1) =
      some (some (.u64 0x8000000000000000)) := by decide
theorem test_frame_uniqueId :
    (run .frameReadUniqueId (state chip [])).map (·.2.1) =
      some (some (.bytes [0xD1, 0x62, 0x30, 0x11, 0x22, 0x33, 0x44, 0x55])) := by decide
theorem test_V34_sfdp :
    run (.opReadSfdpRegister 4) (state chip []) =
      some (ex [(0x5A, 0), (0, 0), (0, 0), (4, 0), (0, 0), (0, 0x53)], some (.byte 0x53), .none) := by decide
theorem test_frame_sfdp : (run (.frameReadSfdp 4) (state chip [])).map (·.2.1) = some (some (.byte 0x53)) := by decide

/-! ### Power and reset (V36 to V41) -/

theorem test_V36_powerDown :
    run .opPowerDown (state chip []) = some (ex [(0xB9, 0)], some .unit, .none) ∧
      chipAfter .opPowerDown (state chip []) = some (.reads 0, false, true, false) := by decide
theorem test_V37_release :
    run .opReleasePowerDown (state { chip with pd := true } []) = some (ex [(0xAB, 0)] ++ [.delayUs 3], some .unit, .none) ∧
      chipAfter .opReleasePowerDown (state { chip with pd := true } []) = some (.reads 0, false, false, false) := by decide
theorem test_V38_releaseId :
    run .opReleasePowerDownId (state { chip with pd := true, dev := 0x16 } []) =
      some (ex [(0xAB, 0), (0, 0), (0, 0), (0, 0), (0, 0x16)] ++ [.delayUs 3], some (.byte 0x16), .none) := by decide
theorem test_frames_power :
    chipAfter .framePowerDown (state chip []) = some (.reads 0, false, true, false) ∧
      chipAfter .frameReleasePowerDown (state { chip with pd := true } []) = some (.reads 0, false, false, false) ∧
      (run .frameReleasePowerDownId (state chip [])).map (·.2.1) = some (some (.byte 0x17)) := by decide
theorem test_V39_reset :
    run .opReset { state { chip with wel := true } [] with hasTxn := true } =
      some ([.csLow 10, .txnBegin, .xfer 0x66 0, .txnEnd, .csHigh 10, .csLow 10, .txnBegin, .xfer 0x99 0, .txnEnd, .csHigh 10,
        .delayUs 30], some .unit, .none) ∧
      chipAfter .opReset (state { chip with wel := true } []) = some (.reads 0, false, false, false) := by decide
/-- From power-down the chip ignores both frames (V39). -/
theorem test_V39_reset_poweredDown :
    chipAfter .opReset (state { chip with pd := true, wel := true } []) = some (.reads 0, true, true, false) := by decide
theorem test_frames_reset :
    chipAfter .frameEnableReset (state chip []) = some (.reads 0, false, false, true) ∧
      chipAfter .frameReset (state { chip with armed := true, wel := true } []) = some (.reads 0, false, false, false) ∧
      chipAfter .frameReset (state { chip with wel := true } []) = some (.reads 0, true, false, false) := by decide
/-- V41: garbage 0x02 makes a powered-down chip look ready and latched; the result is true and no byte is programmed. -/
theorem test_V41_writePage_poweredDown :
    (run (.opWritePage 0x000100 [0]) (stateWith 0x02 { chip with pd := true } [0, 0])).map (·.2.1) = some (some (.bool true)) ∧
      arrayAfter (.opWritePage 0x000100 [0]) (stateWith 0x02 { chip with pd := true } [0, 0]) [0x100] = some [some 0xFF] := by
  decide +kernel

/-! ### Error slot, legality (V43 to V45) -/

theorem test_V43_clearError :
    run .opClearError { state chip [] with err := .timeout } = some ([], some .unit, .none) ∧
      run .opErrorCode { state chip [] with err := .timeout } = some ([], some (.code .timeout), .timeout) := by decide
theorem test_V44_before_begin :
    stop (exec .opStatusRegister1 State.reset) = some (.inr .notConfigured) ∧
      stop (exec (.opReadyWait none) State.reset) = some (.inr .notConfigured) ∧
      stop (exec .opReset State.reset) = some (.inr .notConfigured) ∧
      stop (exec .opJedecId State.reset) = some (.inr .notConfigured) ∧
      run .opErrorCode State.reset = some ([], some (.code .none), .none) := by decide
theorem test_V45_domain :
    stop (exec (.opWritePage 0 (List.replicate 257 0)) (state chip [])) = some (.inr .operandOutOfDomain) ∧
      stop (exec (.opRead 0x1000000 1) (state chip [])) = some (.inr .operandOutOfDomain) ∧
      stop (exec (.opReadSfdpRegister 0x100) (state chip [])) = some (.inr .operandOutOfDomain) := by decide +kernel

/-! ### The memory's form -/

theorem test_memory_write_erased : Memory.write [(1, 0), (3, 0)] 1 0xFF = [(3, 0)] := by decide
theorem test_memory_write_sorted : Memory.write [(1, 0), (3, 0)] 2 5 = [(1, 0), (2, 5), (3, 0)] := by decide

/-! ### Witnesses: states and operands that meet each statement's hypotheses -/

/-- The usual state of a statement about every usable state. -/
abbrev usual : State := state chip [7, 7]

/-- What the statements ask of a state, all together. -/
abbrev UsualIsQuiet : Prop := Usable usual ∧ ClockLive usual ∧ ChipAwake usual chip ∧ usual.env.Ok

/-- The whole witness of the statements with no hypothesis on the operands: OneByteFrames, StatusReads, AddressedEraseFrames,
IdentificationFrames, MfrDeviceIdFrameStoresIds, JedecIdPacksManufacturerHigh, UniqueIdPacksFirstByteHigh, PowerOperations,
ResetSendsThePairBackToBack, EnableWriteVerifiesTheLatch, DisableWriteVerifiesTheLatch, LatchShowsInTheStatus,
ReadyWaitPollsUntilReadyOrLate, ReadyChipEndsTheWaitAtOnce. -/
theorem witness_usable : UsualIsQuiet := by
  refine ⟨by decide, by decide, ⟨rfl, rfl, rfl⟩, ?_⟩
  simp [usual, state, stateWith, Environment.Ok, chip, Memory.wf]

theorem witness_DecodeOfEncodeIsTheFrame :
    (Instr.framePageProgram 0xFFFFFF (List.replicate 256 0xFF)).isFrame = true ∧
      (Instr.framePageProgram 0xFFFFFF (List.replicate 256 0xFF)).wellFormed = true := by decide +kernel
theorem witness_DecodedBytesAreTheEncoding : decode [0xD8, 0xFF, 0xFF, 0xFF] = .ok (.frameBlockErase64KB 0xFFFFFF) := by
  decide
theorem witness_UnknownOpcodesRefused :
    (0x00 : Byte) ∉ ([0x05, 0x35, 0x06, 0x04, 0x03, 0x02, 0x60, 0x20, 0x52, 0xD8, 0x90, 0x9F, 0x4B, 0x5A, 0xB9, 0xAB, 0x66, 0x99] :
      List Byte) ∧ (0x01 : Byte) ∉ ([0x05, 0x35, 0x06, 0x04, 0x03, 0x02, 0x60, 0x20, 0x52, 0xD8, 0x90, 0x9F, 0x4B, 0x5A, 0xB9,
      0xAB, 0x66, 0x99] : List Byte) := by decide

/-- A state with operations pending. -/
def pendingState (ops : List Instr) (s : State) : State := { s with pending := ops }

/-- A state with a frame routine placed to run alone. -/
def loneState (i : Instr) (s : State) : State := { s with loneFrame := some i }

/-- The three places of an instruction, and the three ways a run ends. -/
theorem witness_StepRunsTheFirstCommand :
    (usual.loneFrame = none ∧ Instr.opPowerDown.isFrame = false ∧
      ∃ t, exec .opPowerDown (pendingState [.opPowerDown] usual) = .next t) ∧
    (∃ t, exec .frameReadStatus1 (loneState .frameReadStatus1 usual) = .next t) ∧
    decode (tableWordBytes 8 0x05) = .ok .frameReadStatus1 ∧
    exec (.opReadyWait none) (pendingState [.opReadyWait none] (frozenState { chip with nBusy := .never })) =
      .fault .waitStuck ∧
    exec .opReset (pendingState [.opReset] State.reset) = .refused .notConfigured ∧
    exec .frameReset (loneState .frameReset State.reset) = .refused .notConfigured :=
  ⟨⟨rfl, rfl, next_of_isNext (by decide)⟩, next_of_isNext (by decide), by decide, fault_of_stop (by decide +kernel),
    refused_of_stop (by decide), refused_of_stop (by decide)⟩
/-- The two IDs after a step. -/
def stepIds (s : State) : Option (Option Byte × Option Byte) :=
  match step s with
  | .next t => some (t.mfrId, t.devId)
  | .fault _ => none
  | .refused _ => none

/-- Waiting at reset, the 0x90 exchange among the caller's entries, and `begin` writing the IDs. -/
theorem witness_CallerCannotSendAFrame :
    (State.reset.loneFrame = none ∧ State.reset.pending = []) ∧
      (pendingState [.frameMfrDeviceId] usual).loneFrame = none ∧ Instr.frameMfrDeviceId.isFrame = true ∧
      stepIds (pendingState [.opBegin] usual) = some (some 0xEF, some 0x17) ∧ usual.mfrId = none := ⟨by decide, by decide, by decide, by decide, by decide⟩
theorem witness_StepConsumesOneCommand :
    (∃ t, step (pendingState [.opBegin, .opJedecId] State.reset) = .next t) ∧
      ∃ t, step (loneState .frameReset usual) = .next t := ⟨next_of_isNext (by decide), next_of_isNext (by decide)⟩
/-- A word that is no frame places nothing, and the block waits. -/
theorem test_no_illegal_instruction :
    (State.reset.withFetchWord 8 0xC7).loneFrame = none ∧ isNext (step (State.reset.withFetchWord 8 0xC7)) = true := by decide
theorem witness_StepKeepsInvariant :
    Inv (pendingState [.opBeginCs 9] State.reset) ∧
      ∃ t, step (pendingState [.opBeginCs 9] State.reset) = .next t := by
  refine ⟨⟨by decide, by decide, by decide, ?_⟩, next_of_isNext (by decide)⟩
  simp [pendingState, State.reset, Environment.Ok, Chip.atReset, Memory.wf]
theorem witness_StepKeepsTraceLegal :
    Idle (pendingState [.opEnableWrite] usual) ∧ LegalTrace (pendingState [.opEnableWrite] usual) ∧
      ∃ t, step (pendingState [.opEnableWrite] usual) = .next t := ⟨by decide, by decide, next_of_isNext (by decide)⟩
theorem witness_StepKeepsClockOrdered :
    ClockOrdered (pendingState [.opReadyWait none] usual) ∧
      ∃ t, step (pendingState [.opReadyWait none] usual) = .next t :=
  ⟨⟨by decide, by decide⟩, next_of_isNext (by decide +kernel)⟩
theorem witness_EveryInstructionRunsAfterBegin :
    Usable usual ∧ ClockLive usual ∧ (Instr.opWritePage 0xFFFFFF (List.replicate 256 0)).wellFormed = true := by decide +kernel
theorem witness_OnlyAStoppedClockFaults :
    Idle (frozenState { chip with nBusy := .never }) ∧
      exec .opEraseChip (frozenState { chip with nBusy := .never }) = .fault .waitStuck :=
  ⟨by decide, fault_of_stop (by decide +kernel)⟩
theorem witness_RefusedBeforeBegin :
    (Instr.opReadSfdpRegister 255).wellFormed = true ∧ (Instr.opReadSfdpRegister 255).allowedBeforeBegin = false ∧
      State.reset.configured = false := by decide
theorem witness_OutOfDomainOperandsRefused : (Instr.opReadSfdpRegister 256).wellFormed = false := by decide

/-- A state with a bracket open. -/
def openState : State := { usual with csActive := true }

theorem witness_NestedSelectRefused :
    (Instr.opReset).wellFormed = true ∧ openState.configured = true ∧ openState.csActive = true ∧
      Instr.opReset ≠ .opErrorCode ∧ Instr.opReset ≠ .opClearError ∧ usual.csActive = false := by decide

/-- A never-ready chip, two counter answers 101 ms apart, the given error. -/
abbrev lateState (e : ErrorCode) : State := { state { chip with nBusy := .never } [0, 101] with err := e }

/-- NONE to TIMEOUT by a wait and by a read; TIMEOUT to NONE by the three that can. -/
theorem witness_ErrorSlotWriters :
    (run (.opReadyWait none) (lateState .none)).map (·.2.2) = some .timeout ∧
    (run (.opRead 0 1) (lateState .none)).map (·.2.2) = some .timeout ∧
    (run (.opRead 0 1) { usual with err := .timeout }).map (·.2.2) = some .none ∧
    (run (.opReadByte 0) { usual with err := .timeout }).map (·.2.2) = some .none ∧
    (run .opClearError { usual with err := .timeout }).map (·.2.2) = some .none := by decide +kernel
theorem witness_ChipSelectLineWriters :
    (∃ t, exec (.opBeginCs 9) usual = .next t) ∧ ∃ t, exec .opBegin usual = .next t :=
  ⟨next_of_isNext (by decide), next_of_isNext (by decide)⟩
theorem witness_IdWriters : (∃ t, exec .opJedecId usual = .next t) ∧ Instr.opJedecId.writesIds = false :=
  ⟨next_of_isNext (by decide), rfl⟩
theorem witness_ControlStateFrame :
    Idle usual ∧ (∃ t, exec (.opEraseSector4KB 0) usual = .next t) ∧ Instr.opEraseSector4KB 0 ≠ .opBegin ∧
      ∀ cs, Instr.opEraseSector4KB 0 ≠ .opBeginCs cs :=
  ⟨by decide, next_of_isNext (by decide +kernel), by decide, fun _ => by simp⟩
theorem witness_ArrayUntouchedByOtherInstructions :
    Instr.opReset.programs = false ∧ Instr.opReset.erases = false ∧
      (∀ c, usual.env = .responder c → c.nBusy = .reads 0) ∧ ∃ t, exec .opReset usual = .next t :=
  ⟨rfl, rfl, fun c h => by cases h; rfl, next_of_isNext (by decide)⟩
theorem witness_ProgramOnlyClearsBits :
    (Instr.opWritePage 0x100 [0x0F]).programs = true ∧ usual.arrayByte 0x100 = some 0xFF ∧
      arrayAfter (.opWritePage 0x100 [0x0F]) usual [0x100] = some [some 0x0F] := by decide +kernel
theorem witness_EraseOnlyGivesOnes :
    (Instr.opEraseSector4KB 0).erases = true ∧
      (state { chip with mem := [(1, 0)] } [0, 0]).arrayByte 1 = some 0 ∧
      arrayAfter (.opEraseSector4KB 0) (state { chip with mem := [(1, 0)] } [0, 0]) [1] = some [some 0xFF] := by decide +kernel
theorem witness_EmittedFramesAreTheTables : ∃ t, exec (.opWritePage 0x100 [1]) usual = .next t :=
  next_of_isNext (by decide +kernel)
theorem witness_ReadAndProgramFrames : Usable usual ∧ (List.replicate 256 (0 : Byte)).length ≤ 256 := by decide +kernel
theorem witness_SfdpRegisterReadsOneByte : Usable usual ∧ 255 < 256 := by decide
/-- Both forms, the first before `begin` has ever run, the second again after it. -/
theorem witness_BeginPopulatesTheHandle :
    Idle State.reset ∧ (Instr.opBegin = .opBegin ∧ (10 : LineId) = State.reset.csLine) ∧
      Idle usual ∧ (Instr.opBeginCs 9 = .opBeginCs 9 ∧ (9 : LineId) = 9) := by decide
theorem witness_NeverReadyChipTimesOut :
    Usable (lateState .none) ∧ ClockLive (lateState .none) ∧
      (lateState .none).env = .responder { chip with nBusy := .never } ∧ chip.pd = false := by decide
theorem witness_PollMachineIsReadyWait :
    (Idle (lateState .none) ∧ ∃ t, readyWait 100 (lateState .none) = .next t) ∧ Idle usual ∧ ∃ t, readyWait 0 usual = .next t :=
  ⟨⟨by decide, next_of_isNext (by decide +kernel)⟩, by decide, next_of_isNext (by decide +kernel)⟩
/-- The four ends of a mutating operation are `test_V11_writePage_gate_wait`, `test_V10_writePage_gate_latch`,
`test_V18_writePage_wraps` and `test_V20_writePage_settle_timeout`. -/
theorem witness_MutatingOperationsFollowTheHandshake :
    Usable usual ∧ (Instr.opEraseBlock64KB 0x10000).mutatingBytes = some [0xD8, 0x01, 0x00, 0x00] ∧
      ∃ t, exec (.opEraseBlock64KB 0x10000) usual = .next t :=
  ⟨by decide, rfl, next_of_isNext (by decide +kernel)⟩
/-- The last two bytes of the array, and a payload that wraps there. -/
theorem witness_WritePageProgramsThePage :
    UsualIsQuiet ∧ 0x7FFFFE < 2 ^ 24 ∧ ([1, 2, 3] : List Byte).length ≤ 256 ∧
      (∀ i < ([1, 2, 3] : List Byte).length, 0x7FFFFE / 256 * 256 + (i + 0x7FFFFE % 256) % 256 < chip.flashBytes) ∧
      chip.busyReads.program = .reads 0 := ⟨witness_usable, by decide⟩
/-- The last unit of each size, and the whole array. -/
theorem witness_EraseOperationsSetTheUnitToOnes :
    UsualIsQuiet ∧
    (0x7FF000 < 2 ^ 24 ∧ 0x7FF000 % 4096 = 0 ∧ 0x7FF000 + 4096 ≤ chip.flashBytes) ∧
    (0x7F8000 < 2 ^ 24 ∧ 0x7F8000 % 32768 = 0 ∧ 0x7F8000 + 32768 ≤ chip.flashBytes) ∧
    (0x7F0000 < 2 ^ 24 ∧ 0x7F0000 % 65536 = 0 ∧ 0x7F0000 + 65536 ≤ chip.flashBytes) ∧
    (0 < 2 ^ 24 ∧ 0 % chip.flashBytes = 0 ∧ 0 + chip.flashBytes ≤ chip.flashBytes) := ⟨witness_usable, by decide⟩
/-- The latch set and clear. -/
theorem witness_MutatingFramesNeedTheLatch :
    UsualIsQuiet ∧ Usable (state { chip with wel := true } []) ∧
    ChipAwake (state { chip with wel := true } []) { chip with wel := true } ∧ ChipAwake usual chip ∧ chip.wel = false ∧
      (0x7F0000 : Address).toNat % 65536 = 0 ∧ (0x7F0000 : Address).toNat + 65536 ≤ chip.flashBytes :=
  ⟨witness_usable, by decide⟩
theorem witness_MisalignedEraseLeavesTheChipOpen :
    UsualIsQuiet ∧
    (Instr.opEraseSector4KB 1).mutatingOpcode = some 0x20 ∧ 1 % 4096 ≠ 0 ∧
      (Instr.opEraseBlock32KB 0xFFFFFF).mutatingOpcode = some 0x52 ∧ 0xFFFFFF < 2 ^ 24 ∧ 0xFFFFFF % 32768 ≠ 0 ∧
      (Instr.opEraseBlock64KB 0x8000).mutatingOpcode = some 0xD8 ∧ 0x8000 % 65536 ≠ 0 :=
  ⟨witness_usable, by decide⟩

/-- A chip whose chip erase never ends. -/
abbrev slowChip : Chip := { chip with busyReads := ⟨.reads 0, .reads 0, .reads 0, .reads 0, .never⟩ }

theorem witness_EraseChipThatNeverFinishes :
    Usable (state slowChip []) ∧ ClockLive (state slowChip []) ∧ ChipAwake (state slowChip []) slowChip ∧
      slowChip.busyReads.chip = .never := by decide
/-- A state for each of the two ends. -/
theorem witness_ReadWaitsThenClearsTheError :
    (Usable (lateState .none) ∧ ClockLive (lateState .none)) ∧ (Usable usual ∧ ClockLive usual) ∧ 0xFFFFFF < 2 ^ 24 := by
  decide
theorem witness_ReadReturnsTheArrayBytes :
    UsualIsQuiet ∧ 0x7FFFFE < 2 ^ 24 ∧ 0x7FFFFE + 2 ≤ chip.flashBytes ∧ 0x7FFFFF < chip.flashBytes :=
  ⟨witness_usable, by decide⟩
/-- Both ends of `read(addr)`. -/
theorem witness_ReadByteIsReadOfLengthOne :
    (∃ t, exec (.opReadByte 0) usual = .next t) ∧ ∃ t, exec (.opReadByte 0) (lateState .none) = .next t :=
  ⟨next_of_isNext (by decide +kernel), next_of_isNext (by decide +kernel)⟩
/-- A payload that fills the page to its end. -/
theorem witness_WrittenPageReadsBack :
    UsualIsQuiet ∧
    ([0x11, 0x22] : List Byte).length ≤ 256 - 0x10FE % 256 ∧ 0x10FE + ([0x11, 0x22] : List Byte).length ≤ chip.flashBytes ∧
      (∀ k < ([0x11, 0x22] : List Byte).length, usual.arrayByte (0x10FE + k) = some 0xFF) ∧
      (run (.opWritePage 0x10FE [0x11, 0x22]) usual).map (·.2.1) = some (some (.bool true)) :=
  ⟨witness_usable, by decide +kernel⟩
/-- The last busy read, and one before it. -/
theorem witness_StatusReadCountsDown :
    Usable (state { chip with nBusy := .reads 1, wel := true } []) ∧
      Usable (state { chip with nBusy := .reads 2, wel := true } []) ∧ chip.pd = false := by decide
/-- Both ends of the SFDP table `chip` has, `begin` before any other operation, and a powered-down chip. -/
theorem witness_ChipAnswersItsOwnBytes :
    UsualIsQuiet ∧ chip.uid.length = 8 ∧ chip.sfdp[0]? = some 0 ∧ chip.sfdp[4]? = some 0x53 ∧
      (Idle State.reset ∧ ChipAwake State.reset Chip.atReset) ∧
      Usable (state { chip with pd := true } []) :=
  ⟨witness_usable, rfl, rfl, rfl, ⟨by decide, rfl, rfl, rfl⟩, by decide⟩
theorem witness_PoweredDownChipIgnoresFrames :
    (∃ t, exec .opReset (state { chip with pd := true } []) = .next t) ∧
      ∃ t, exec .opReleasePowerDown (state { chip with pd := true } []) = .next t :=
  ⟨next_of_isNext (by decide), next_of_isNext (by decide)⟩
theorem witness_ResetPairResetsTheChip :
    ChipAwake (state { chip with armed := true, wel := true } []) { chip with armed := true, wel := true } ∧
      chip.armed = false ∧ Instr.frameReadStatus2.isFrame = true ∧ Instr.frameReadStatus2.resetsChip = false ∧
      chipAfter .frameReadStatus2 (state { chip with armed := true, wel := true } []) =
        some (.reads 0, true, false, false) := by decide

end Sys2Proof.Tests
end

section
/-! Write enable (R90, R91): both latch operations are one latch frame and then a status read, so what they leave is what
two exchanges leave; they differ in the opcode and in how the fresh status is read. -/

namespace Sys2Proof.Proofs

open Sys2Proof.Machine Sys2Proof.Laws

/-- From an idle state two exchanges and the storing of a result leave two brackets, nothing between, in the trace, the
chip having taken both frames, and the rest of the block as it was. -/
theorem setResult_afterExchange_afterExchange {s : State} (hi : Idle s) (out1 ins1 out2 ins2 d1 d2 : List Byte)
    (n1 n2 : Nat) (r : Result) :
    let t := (afterExchange (afterExchange s out1 ins1 d1 n1) out2 ins2 d2 n2).setResult r
    t.trace = s.trace ++ s.bracket out1 ins1 ++ s.bracket out2 ins2 ∧ t.result = some r ∧
      t.env = (s.env.endFrame out1).endFrame out2 ∧ t.csLevel = .high ∧ SameHandle s t ∧ SameControl s t ∧
      SameCaller s t ∧ t.clock = s.clock := by
  have hfirst := waitOnly_afterExchange hi out1 ins1 d1 n1
  have hsecond := waitOnly_afterExchange (hfirst.idle hi) out2 ins2 d2 n2
  obtain ⟨hline, hcontrol, hcaller, -⟩ := (hfirst.trans hsecond).same
  exact ⟨rfl, rfl, rfl, rfl, ⟨hline, rfl⟩, hcontrol, hcaller, rfl⟩

/-- After `begin` the operation `enable_write` stores what `enableWrite` answers. -/
theorem exec_opEnableWrite_of_next {s u : State} {b : Bool} (hc : s.configured = true)
    (h : enableWrite s = .next (u, b)) : exec .opEnableWrite s = .next (u.setResult (.bool b)) := by
  rw [exec, execOpEnableWrite]
  exact whenConfigured_of_next s hc (by rw [h, andThen_next])

/-- After `begin` the operation `disable_write` stores what `disableWrite` answers. -/
theorem exec_opDisableWrite_of_next {s u : State} {b : Bool} (hc : s.configured = true)
    (h : disableWrite s = .next (u, b)) : exec .opDisableWrite s = .next (u.setResult (.bool b)) := by
  rw [exec, execOpDisableWrite]
  exact whenConfigured_of_next s hc (by rw [h, andThen_next])

/-- Settles O40: `enableWrite` is the two exchanges, and its status test is bit 1. -/
theorem enableWriteVerifiesTheLatch : Obligations.EnableWriteVerifiesTheLatch := by
  rintro s ⟨hi, hc⟩
  obtain ⟨i1, d1, n1, i2, st, d2, n2, hrun, -⟩ := enableWrite_spec hi
  rw [statusWel_eq] at hrun
  exact ⟨_, i1, i2, st, exec_opEnableWrite_of_next hc hrun, setResult_afterExchange_afterExchange hi ..⟩

/-- Settles O41: `disableWrite` is the two exchanges, and its status test is the negation of bit 1. -/
theorem disableWriteVerifiesTheLatch : Obligations.DisableWriteVerifiesTheLatch := by
  rintro s ⟨hi, hc⟩
  obtain ⟨i1, d1, n1, i2, st, d2, n2, hrun, -⟩ := disableWrite_spec hi
  rw [statusWel_eq] at hrun
  exact ⟨_, i1, i2, st, exec_opDisableWrite_of_next hc hrun, setResult_afterExchange_afterExchange hi ..⟩

end Sys2Proof.Proofs
end

section
/-! Identification (R114, R116): each of the two reads sends one frame and computes its result from the answers alone, so
each is one exchange once the result is read off the answers. -/

namespace Sys2Proof.Proofs

open Sys2Proof.Machine Sys2Proof.Laws

/-! ### One frame and a result -/

/-- From an idle state an instruction that sends the frame `j` and then only returns `res` of the answers is one exchange
of the bytes of `j`. -/
theorem isOneExchange_of_sendFrame {i j : Instr} {s : State} {res : List Byte → Result} (hi : Idle s)
    (hexec : ∀ u ins, ins.length = (encode j).length → sendFrame j s = .next (u, ins) →
      exec i s = .next (u.setResult (res ins))) :
    IsOneExchange i s (encode j) res := by
  obtain ⟨ins, d, n, hsend, hlen, -⟩ := exchange_spec (encode j) hi.1
  obtain ⟨hline, hcontrol, hcaller, -⟩ := (waitOnly_afterExchange hi (encode j) ins d n).same
  exact ⟨_, ins, hexec _ ins hlen hsend, hlen, rfl, rfl, rfl, rfl, ⟨hline, rfl⟩, hcontrol, hcaller, rfl⟩

/-- Keeping every answer after the first `k` drops those `k`. -/
theorem keptAnswers_range' {ins : List Byte} {k n : Nat} (h : ins.length = k + n) :
    keptAnswers (List.range' (k + 1) n) ins = ins.drop k := by
  apply List.ext_getElem
  · simp [keptAnswers, h]
  · intro m hm _
    have hbound : k + m < ins.length := by simp [keptAnswers] at hm; omega
    have hpos : k + 1 + m - 1 = k + m := by omega
    simp [keptAnswers, answerAt, hpos, hbound]

/-! ### The unique ID -/

/-- Shifting in a byte is multiplying by 256 and adding it. -/
theorem shiftLeft_or_zeroExtend_eq_ofNat (n : Nat) (u : Byte) :
    (BitVec.ofNat 64 n <<< 8) ||| u.zeroExtend 64 = BitVec.ofNat 64 (n * 256 + u.toNat) := by
  have hdisjoint : (BitVec.ofNat 64 n <<< 8) &&& u.zeroExtend 64 = 0#64 := by
    ext i hi
    by_cases hlow : i < 8
    · simp [hlow]
    · simp [BitVec.getLsbD_of_ge u i (by omega)]
  rw [← BitVec.add_eq_or_of_and_eq_zero _ _ hdisjoint, BitVec.shiftLeft_eq_mul_twoPow]
  bv_omega

/-- R114's shift and or over the bytes is their value in base 256, the first byte the most significant. -/
theorem packUid_eq_ofNat (us : List Byte) :
    packUid us = BitVec.ofNat 64 (us.foldl (fun acc b => acc * 256 + b.toNat) 0) :=
  List.foldl_hom (BitVec.ofNat 64) shiftLeft_or_zeroExtend_eq_ofNat

/-- After `begin` the operation `read_unique_id` packs the answers after the first five. -/
theorem exec_opReadUniqueId_of_sendFrame {s u : State} {ins : List Byte} (hc : s.configured = true)
    (hlen : ins.length = 13) (hsend : sendFrame .frameReadUniqueId s = .next (u, ins)) :
    exec .opReadUniqueId s = .next (u.setResult (.u64 (packUid (ins.drop 5)))) := by
  have hkept : keptAnswers (keptPositions .frameReadUniqueId) ins = ins.drop 5 :=
    keptAnswers_range' (k := 5) (n := 8) hlen
  rw [exec, execOpReadUniqueId]
  exact whenConfigured_of_next s hc (by rw [xReadUniqueId, hsend, andThen_next, andThen_next, hkept])

/-- Settles O34: the operation is one exchange of 0x4B, and its shift and or is the base-256 value. -/
theorem uniqueIdPacksFirstByteHigh : Obligations.UniqueIdPacksFirstByteHigh := by
  rintro s ⟨hi, hc⟩
  refine isOneExchange_of_sendFrame (j := .frameReadUniqueId) hi fun u ins hlen hsend => ?_
  rw [← packUid_eq_ofNat]
  exact exec_opReadUniqueId_of_sendFrame hc hlen hsend

/-! ### The SFDP byte -/

/-- After `begin`, with its address in the domain, the operation `read_sfdp_register` returns the sixth answer. -/
theorem exec_opReadSfdpRegister_of_sendFrame {s u : State} {addr : Nat} {ins : List Byte} (hc : s.configured = true)
    (haddr : addr < 256) (hsend : sendFrame (.frameReadSfdp (BitVec.ofNat 8 addr)) s = .next (u, ins)) :
    exec (.opReadSfdpRegister addr) s = .next (u.setResult (.byte (answerAt ins 6))) := by
  have hdomain : sfdpAddressInDomain addr = true := decide_eq_true haddr
  rw [exec, execOpReadSfdpRegister, hdomain, whenInDomain_true]
  exact whenConfigured_of_next s hc (by rw [xReadSfdp, hsend, andThen_next, andThen_next])

/-- Settles O35: the operation is one exchange of 0x5A at its address byte, and returns the answer at position 6. -/
theorem sfdpRegisterReadsOneByte : Obligations.SfdpRegisterReadsOneByte := by
  rintro s addr ⟨hi, hc⟩ haddr
  exact isOneExchange_of_sendFrame (j := .frameReadSfdp (BitVec.ofNat 8 addr)) hi fun _ _ _ hsend =>
    exec_opReadSfdpRegister_of_sendFrame hc haddr hsend

end Sys2Proof.Proofs
end

section
/-! Encoding (R64, R65, R69 to R71): the decoder gives every well-formed frame back from its bytes, and every sub-decoder
admits only the bytes of the frame it answers, so the two directions together say that the frames of R69 are exactly the
byte strings the decoder admits. -/

namespace Sys2Proof.Proofs

open Sys2Proof.Laws

/-! ### From the frame to its bytes and back -/

theorem decodeAddress_addressBytes (op : Byte) (f : Address → Instr) (addr : Address) :
    decodeAddress op f (addressBytes addr) = .ok (f addr) := by
  simp only [addressBytes, decodeAddress, addressOf_bytes]

theorem decodeRead_encoded (op : Byte) (addr : Address) (n : Nat) :
    decodeRead op (addressBytes addr ++ fillers n) = .ok (.frameReadBytes addr n) := by
  simp [addressBytes, decodeRead, addressOf_bytes, fillers]

theorem decodeProgram_encoded (op : Byte) (addr : Address) {payload : List Byte} (h : payload.length ≤ 256) :
    decodeProgram op (addressBytes addr ++ payload) = .ok (.framePageProgram addr payload) := by
  simp [addressBytes, decodeProgram, addressOf_bytes, h]

/-- Settles O2, by the frames: a frame without operand computes, one with operands by its format's sub-decoder. -/
theorem decodeOfEncodeIsTheFrame : Obligations.DecodeOfEncodeIsTheFrame := by
  intro i hframe hwf
  cases i
  case frameReadBytes addr n => exact decodeRead_encoded 0x03 addr n
  case framePageProgram addr payload => exact decodeProgram_encoded 0x02 addr (of_decide_eq_true hwf)
  case frameSectorErase4KB addr => exact decodeAddress_addressBytes 0x20 _ addr
  case frameBlockErase32KB addr => exact decodeAddress_addressBytes 0x52 _ addr
  case frameBlockErase64KB addr => exact decodeAddress_addressBytes 0xD8 _ addr
  case frameReadStatus1 | frameReadStatus2 | frameWriteEnable | frameWriteDisable | frameChipErase | frameMfrDeviceId
    | frameJedecId | frameReadUniqueId | frameReadSfdp | framePowerDown | frameReleasePowerDown
    | frameReleasePowerDownId | frameEnableReset | frameReset => rfl
  all_goals cases hframe

/-! ### From the bytes to the frame -/

/-- `bytes` are the encoding of the well-formed frame `i`. -/
def IsEncodingOf (i : Instr) (bytes : List Byte) : Prop :=
  i.isFrame = true ∧ i.wellFormed = true ∧ encode i = bytes

/-- Fillers are decoded only from the bytes of the frame `j` whose encoding they end. -/
theorem decodeFillers_eq_ok {op : Byte} {n : Nat} {i j : Instr} {rest : List Byte} (hj : IsEncodingOf j (op :: fillers n))
    (h : decodeFillers op n j rest = .ok i) : IsEncodingOf i (op :: rest) := by
  unfold decodeFillers at h
  split at h
  · cases h
  · split at h
    · next hrest => cases h; rwa [hrest]
    · cases h

/-- Three address bytes are decoded only from the bytes of an addressed erase frame. -/
theorem decodeAddress_eq_ok {op : Byte} {f : Address → Instr} {i : Instr} {rest : List Byte}
    (hf : ∀ addr, IsEncodingOf (f addr) (op :: addressBytes addr)) (h : decodeAddress op f rest = .ok i) :
    IsEncodingOf i (op :: rest) := by
  unfold decodeAddress at h
  split at h
  · cases h; rw [← bytes_addressOf]; exact hf _
  · cases h

theorem decodeRead_eq_ok {i : Instr} {rest : List Byte} (h : decodeRead 0x03 rest = .ok i) :
    IsEncodingOf i (0x03 :: rest) := by
  unfold decodeRead at h
  split at h
  · split at h
    · next hcycles => cases h; exact ⟨rfl, rfl, by rw [encode, bytes_addressOf, ← hcycles]; rfl⟩
    · cases h
  · cases h

theorem decodeProgram_eq_ok {i : Instr} {rest : List Byte} (h : decodeProgram 0x02 rest = .ok i) :
    IsEncodingOf i (0x02 :: rest) := by
  unfold decodeProgram at h
  split at h
  · split at h
    · next hlen => cases h; exact ⟨rfl, decide_eq_true hlen, by rw [encode, bytes_addressOf]; rfl⟩
    · cases h
  · cases h

theorem decodeSfdp_eq_ok {i : Instr} {rest : List Byte} (h : decodeSfdp 0x5A rest = .ok i) :
    IsEncodingOf i (0x5A :: rest) := by
  unfold decodeSfdp at h
  split at h
  · split at h
    · next hzero =>
      cases h
      obtain ⟨rfl, rfl, rfl, rfl⟩ := by simpa [fillers] using hzero
      exact ⟨rfl, rfl, rfl⟩
    · cases h
  · cases h

/-- Both frames of 0xAB are decoded only from their own bytes (R70). -/
theorem decodeRelease_eq_ok {i : Instr} {rest : List Byte} (h : decodeRelease 0xAB rest = .ok i) :
    IsEncodingOf i (0xAB :: rest) := by
  unfold decodeRelease at h
  split at h
  · next hempty => cases h; rw [hempty]; exact ⟨rfl, rfl, rfl⟩
  · exact decodeFillers_eq_ok ⟨rfl, rfl, rfl⟩ h

/-- One row of the opcode map: it suffices to look at the row's own decoder and at the rows below it. -/
theorem encoding_of_row {op row : Byte} {rest : List Byte} {i : Instr} [Decidable (op = row)]
    (own : Byte → Except DecodeError Instr) {below : Except DecodeError Instr}
    (h : (if op = row then own op else below) = .ok i) (hown : own row = .ok i → IsEncodingOf i (row :: rest))
    (hbelow : below = .ok i → IsEncodingOf i (op :: rest)) : IsEncodingOf i (op :: rest) := by
  by_cases hop : op = row
  · rw [if_pos hop] at h; subst hop; exact hown h
  · rw [if_neg hop] at h; exact hbelow h

/-- Settles O3, by the opcode map: each row's sub-decoder admits only its own frame's bytes. -/
theorem decodedBytesAreTheEncoding : Obligations.DecodedBytesAreTheEncoding := by
  intro bytes i h
  cases bytes with
  | nil => cases h
  | cons op rest =>
    change decodeOpcode op rest = .ok i at h
    change IsEncodingOf i (op :: rest)
    unfold decodeOpcode at h
    refine encoding_of_row (decodeFillers · _ _ rest) h (decodeFillers_eq_ok ⟨rfl, rfl, rfl⟩) fun h => ?_
    refine encoding_of_row (decodeFillers · _ _ rest) h (decodeFillers_eq_ok ⟨rfl, rfl, rfl⟩) fun h => ?_
    refine encoding_of_row (decodeFillers · _ _ rest) h (decodeFillers_eq_ok ⟨rfl, rfl, rfl⟩) fun h => ?_
    refine encoding_of_row (decodeFillers · _ _ rest) h (decodeFillers_eq_ok ⟨rfl, rfl, rfl⟩) fun h => ?_
    refine encoding_of_row (decodeRead · rest) h decodeRead_eq_ok fun h => ?_
    refine encoding_of_row (decodeProgram · rest) h decodeProgram_eq_ok fun h => ?_
    refine encoding_of_row (decodeFillers · _ _ rest) h (decodeFillers_eq_ok ⟨rfl, rfl, rfl⟩) fun h => ?_
    refine encoding_of_row (decodeAddress · _ rest) h (decodeAddress_eq_ok (fun _ => ⟨rfl, rfl, rfl⟩)) fun h => ?_
    refine encoding_of_row (decodeAddress · _ rest) h (decodeAddress_eq_ok (fun _ => ⟨rfl, rfl, rfl⟩)) fun h => ?_
    refine encoding_of_row (decodeAddress · _ rest) h (decodeAddress_eq_ok (fun _ => ⟨rfl, rfl, rfl⟩)) fun h => ?_
    refine encoding_of_row (decodeFillers · _ _ rest) h (decodeFillers_eq_ok ⟨rfl, rfl, rfl⟩) fun h => ?_
    refine encoding_of_row (decodeFillers · _ _ rest) h (decodeFillers_eq_ok ⟨rfl, rfl, rfl⟩) fun h => ?_
    refine encoding_of_row (decodeFillers · _ _ rest) h (decodeFillers_eq_ok ⟨rfl, rfl, rfl⟩) fun h => ?_
    refine encoding_of_row (decodeSfdp · rest) h decodeSfdp_eq_ok fun h => ?_
    refine encoding_of_row (decodeFillers · _ _ rest) h (decodeFillers_eq_ok ⟨rfl, rfl, rfl⟩) fun h => ?_
    refine encoding_of_row (decodeRelease · rest) h decodeRelease_eq_ok fun h => ?_
    refine encoding_of_row (decodeFillers · _ _ rest) h (decodeFillers_eq_ok ⟨rfl, rfl, rfl⟩) fun h => ?_
    refine encoding_of_row (decodeFillers · _ _ rest) h (decodeFillers_eq_ok ⟨rfl, rfl, rfl⟩) fun h => ?_
    cases h

/-! ### The rows of the opcode map written out -/

/-- Settles O1: each row computes. -/
theorem writtenOutFramesDecode : Obligations.WrittenOutFramesDecode := by
  refine ⟨?_, ?_, ?_, ?_, ?_, ?_, ?_, ?_, ?_, ?_, ?_, ?_, ?_, ?_, ?_, ?_, ?_, ?_, ?_⟩ <;> rfl

/-- Settles O4: the octets of an address are its quotients by powers of 256. -/
theorem addressesSentMostSignificantByteFirst : Obligations.AddressesSentMostSignificantByteFirst := by
  intro addr n payload a
  simp only [← addressBytes_eq]
  exact ⟨rfl, rfl, rfl, rfl, rfl, rfl⟩

/-- Settles O5: no row of the opcode map is for such a first byte. -/
theorem unknownOpcodesRefused : Obligations.UnknownOpcodesRefused := by
  refine ⟨rfl, fun op rest hop => ?_⟩
  simp only [List.mem_cons, List.not_mem_nil, or_false, not_or] at hop
  simp only [decode, decodeOpcode, hop, if_false]

end Sys2Proof.Proofs
end

section
/-! Running an instruction (R72, R78, R79): `exec` is one domain check, one check of S.CONFIGURED and then a body, the same
for all 43 instructions; most bodies are one frame and what becomes of its answers. What stops an instruction is said here
of bodies. -/

namespace Sys2Proof.Proofs

open Sys2Proof.Machine Sys2Proof.Laws

/-! ### Checks and body -/

/-- Sending the frame `j`, then `finish` of the state and the answers. -/
def oneFrame (j : Instr) (finish : State → List Byte → State × Result) (s : State) : Ran Result :=
  andThen (sendFrame j s) fun u ins => .next (finish u ins)

/-- Sending the frame `j` and returning `res` of its answers. -/
def replying (j : Instr) (res : List Byte → Result) : State → Ran Result := oneFrame j fun u ins => (u, res ins)

/-- Returning `res` of what a routine answers. -/
def returning {α : Type} (o : Ran α) (res : α → Result) : Ran Result := andThen o fun u a => .next (u, res a)

/-- The 0x90 exchange, its answers 5 and 6 stored (R108). -/
def storingIds : State → Ran Result :=
  oneFrame .frameMfrDeviceId fun u ins => (u.setIds (answerAt ins 5) (answerAt ins 6), .unit)

/-- What an instruction does once its operand and S.CONFIGURED are checked. -/
def body : Instr → State → Ran Result
  | .frameReadStatus1 | .opStatusRegister1 => replying .frameReadStatus1 fun ins => .byte (answerAt ins 2)
  | .frameReadStatus2 | .opStatusRegister2 => replying .frameReadStatus2 fun ins => .byte (answerAt ins 2)
  | .opReady => replying .frameReadStatus1 fun ins => .bool (statusReady (answerAt ins 2))
  | .frameWriteEnable => replying .frameWriteEnable fun _ => .unit
  | .frameWriteDisable => replying .frameWriteDisable fun _ => .unit
  | .frameReadBytes addr n => replying (.frameReadBytes addr n) fun ins =>
      .bytes (keptAnswers (keptPositions (.frameReadBytes addr n)) ins)
  | .framePageProgram addr payload => replying (.framePageProgram addr payload) fun _ => .unit
  | .frameChipErase => replying .frameChipErase fun _ => .unit
  | .frameSectorErase4KB addr => replying (.frameSectorErase4KB addr) fun _ => .unit
  | .frameBlockErase32KB addr => replying (.frameBlockErase32KB addr) fun _ => .unit
  | .frameBlockErase64KB addr => replying (.frameBlockErase64KB addr) fun _ => .unit
  | .frameMfrDeviceId => storingIds
  | .opBegin => fun s => storingIds (configureLine s)
  | .opBeginCs cs => fun s => storingIds (configureLine (s.setCsLine cs))
  | .frameJedecId => replying .frameJedecId fun ins => .bytes (keptAnswers (keptPositions .frameJedecId) ins)
  | .opJedecId => replying .frameJedecId fun ins =>
      let kept := keptAnswers (keptPositions .frameJedecId) ins
      .u24 (packJedec (answerAt kept 1) (answerAt kept 2) (answerAt kept 3))
  | .frameReadUniqueId => replying .frameReadUniqueId fun ins =>
      .bytes (keptAnswers (keptPositions .frameReadUniqueId) ins)
  | .opReadUniqueId => replying .frameReadUniqueId fun ins =>
      .u64 (packUid (keptAnswers (keptPositions .frameReadUniqueId) ins))
  | .frameReadSfdp a => replying (.frameReadSfdp a) fun ins => .byte (answerAt ins 6)
  | .opReadSfdpRegister addr => replying (.frameReadSfdp (BitVec.ofNat 8 addr)) fun ins => .byte (answerAt ins 6)
  | .framePowerDown | .opPowerDown => replying .framePowerDown fun _ => .unit
  | .frameReleasePowerDown => replying .frameReleasePowerDown fun _ => .unit
  | .opReleasePowerDown => oneFrame .frameReleasePowerDown fun u _ => (delayUs tReleaseUs u, .unit)
  | .frameReleasePowerDownId => replying .frameReleasePowerDownId fun ins => .byte (answerAt ins 5)
  | .opReleasePowerDownId => oneFrame .frameReleasePowerDownId fun u ins =>
      (delayUs tReleaseUs u, .byte (answerAt ins 5))
  | .frameEnableReset => replying .frameEnableReset fun _ => .unit
  | .frameReset => replying .frameReset fun _ => .unit
  | .opReset => fun s => andThen (sendFrame .frameEnableReset s) fun u _ =>
      oneFrame .frameReset (fun v _ => (delayUs tResetUs v, .unit)) u
  | .opReadyWait timeout => fun s => returning (readyWait (timeoutOperand timeout) s) .bool
  | .opRead addr len => fun s => returning (readArray (toAddress addr) len s) readResult
  | .opReadByte addr => fun s => returning (readArray (toAddress addr) 1 s) readByteResult
  | .opWritePage addr bytes => fun s =>
      returning (mutate (.framePageProgram (toAddress addr) bytes) tPageProgramMs s) .bool
  | .opEraseChip => fun s => returning (mutate .frameChipErase tChipEraseMs s) .bool
  | .opEraseSector4KB addr => fun s =>
      returning (mutate (.frameSectorErase4KB (toAddress addr)) tSectorErase4Ms s) .bool
  | .opEraseBlock32KB addr => fun s =>
      returning (mutate (.frameBlockErase32KB (toAddress addr)) tBlockErase32Ms s) .bool
  | .opEraseBlock64KB addr => fun s =>
      returning (mutate (.frameBlockErase64KB (toAddress addr)) tBlockErase64Ms s) .bool
  | .opEnableWrite => fun s => returning (enableWrite s) .bool
  | .opDisableWrite => fun s => returning (disableWrite s) .bool
  | .opErrorCode => fun s => .next (s, .code s.err)
  | .opClearError => fun s => .next (clearError s, .unit)

theorem andThen_assoc {α β γ : Type} (o : Ran α) (f : State → α → Ran β)
    (g : State → β → Host.Outcome γ Fault Refusal) :
    andThen (andThen o f) g = andThen o fun u a => andThen (f u a) g := by
  cases o <;> rfl

/-- Every instruction checks its operand, then S.CONFIGURED unless it is allowed before `begin`, and runs its body
(R72, R79). -/
theorem exec_eq (i : Instr) (s : State) : exec i s = whenInDomain i.wellFormed
    (if i.allowedBeforeBegin then complete (body i s) else whenConfigured s (body i)) := by
  cases i
  case opErrorCode | opClearError | opReadyWait | opRead | opReadByte | opWritePage | opEraseChip | opEraseSector4KB
    | opEraseBlock32KB | opEraseBlock64KB | opEnableWrite | opDisableWrite => rfl
  case framePageProgram | opReadSfdpRegister =>
    exact congrArg (fun b => whenInDomain _ (whenConfigured s b)) (funext fun _ => andThen_assoc _ _ _)
  case opBegin | opBeginCs | opReady | opReset =>
    simp only [exec, execOpBegin, execOpBeginCs, execOpReady, execOpReset, beginBlock, xMfrDeviceId, ready, xReadStatus1,
      xEnableReset, xReset, andThen_assoc]
    rfl
  all_goals exact congrArg (whenConfigured s) (funext fun _ => andThen_assoc _ _ _)

/-- A well-formed instruction that S.CONFIGURED allows is its body. -/
theorem exec_of_allowed {i : Instr} {s : State} (hwf : i.wellFormed = true)
    (hallowed : i.allowedBeforeBegin = true ∨ s.configured = true) : exec i s = complete (body i s) := by
  rw [exec_eq, hwf, whenInDomain_true]
  split
  · rfl
  · next hbefore => rw [whenConfigured, if_pos (hallowed.resolve_left hbefore)]

/-- After `begin` a well-formed instruction whose body returns stores its result. -/
theorem exec_of_body {i : Instr} {s u : State} {r : Result} (hwf : i.wellFormed = true) (hc : s.configured = true)
    (hbody : body i s = .next (u, r)) : exec i s = .next (u.setResult r) := by
  rw [exec_of_allowed hwf (.inr hc), hbody]; rfl

/-- An instruction that answers a next state passed both checks, and its body returned. -/
theorem exec_eq_next {i : Instr} {s t : State} (h : exec i s = .next t) :
    i.wellFormed = true ∧ (i.allowedBeforeBegin = true ∨ s.configured = true) ∧
      ∃ u r, body i s = .next (u, r) ∧ t = u.setResult r := by
  rw [exec_eq] at h
  obtain ⟨hwf, h⟩ := whenInDomain_eq_next h
  split at h
  · next hbefore =>
    obtain ⟨u, r, hbody, ht⟩ := andThen_eq_next h
    cases ht
    exact ⟨hwf, .inl hbefore, u, r, hbody, rfl⟩
  · obtain ⟨hc, u, r, hbody, ht⟩ := whenConfigured_eq_next s h
    exact ⟨hwf, .inr hc, u, r, hbody, ht⟩

/-- Settles O17: the domain check comes first. -/
theorem outOfDomainOperandsRefused : Obligations.OutOfDomainOperandsRefused := by
  intro i s hwf
  rw [exec_eq, hwf, whenInDomain_false]

/-- Settles O16: the check of S.CONFIGURED comes before the body. -/
theorem refusedBeforeBegin : Obligations.RefusedBeforeBegin := by
  intro i s hwf hbefore hc
  rw [exec_eq, hwf, hbefore, whenInDomain_true, if_neg Bool.false_ne_true, whenConfigured, hc, if_neg Bool.false_ne_true]

/-- Settles O39: neither operation does more than touch the slot and store its result. -/
theorem errorSlotOperations : Obligations.ErrorSlotOperations := fun _ => ⟨rfl, rfl⟩

/-! ### Inside an open bracket -/

theorem sendFrame_nested {j : Instr} {s : State} (h : s.csActive = true) : sendFrame j s = .refused .nestedSelect :=
  exchange_nested _ h

theorem oneFrame_nested {j : Instr} {finish : State → List Byte → State × Result} {s : State} (h : s.csActive = true) :
    oneFrame j finish s = .refused .nestedSelect := by
  rw [oneFrame, sendFrame_nested h, andThen_refused]

theorem replying_nested {j : Instr} {res : List Byte → Result} {s : State} (h : s.csActive = true) :
    replying j res s = .refused .nestedSelect := oneFrame_nested h

theorem storingIds_nested {s : State} (h : s.csActive = true) : storingIds s = .refused .nestedSelect :=
  oneFrame_nested h

theorem readyWait_nested {timeout : Time} {s : State} (h : s.csActive = true) :
    readyWait timeout s = .refused .nestedSelect := by
  obtain ⟨polls, hpolls⟩ : ∃ polls, waitPolls timeout s.now.1 = () :: polls := ⟨_, rfl⟩
  rw [readyWait, hpolls, readyLoop, ready, xReadStatus1, sendFrame_nested (by exact h)]
  rfl

theorem mutate_nested {j : Instr} {budget : Time} {s : State} (h : s.csActive = true) :
    mutate j budget s = .refused .nestedSelect := by
  rw [mutate, gate, readyWait_nested h]; rfl

theorem readArray_nested {addr : Address} {len : Nat} {s : State} (h : s.csActive = true) :
    readArray addr len s = .refused .nestedSelect := by
  rw [readArray, readyWait_nested h]; rfl

/-- Every body but those of the error-slot operations begins with a `select`, perhaps after a clock read. -/
theorem body_nested {i : Instr} {s : State} (h : s.csActive = true) (hcode : i ≠ .opErrorCode)
    (hclear : i ≠ .opClearError) : body i s = .refused .nestedSelect := by
  cases i
  case opErrorCode => exact absurd rfl hcode
  case opClearError => exact absurd rfl hclear
  case opReadyWait => simp only [body, returning, readyWait_nested h, andThen_refused]
  case opRead | opReadByte => simp only [body, returning, readArray_nested h, andThen_refused]
  case opWritePage | opEraseChip | opEraseSector4KB | opEraseBlock32KB | opEraseBlock64KB =>
    simp only [body, returning, mutate_nested h, andThen_refused]
  case opEnableWrite => simp only [body, returning, enableWrite, xWriteEnable, sendFrame_nested h, andThen_refused]
  case opDisableWrite => simp only [body, returning, disableWrite, xWriteDisable, sendFrame_nested h, andThen_refused]
  case opReset => simp only [body, sendFrame_nested h, andThen_refused]
  case frameMfrDeviceId => exact storingIds_nested h
  case opBegin => exact storingIds_nested (s := configureLine s) h
  case opBeginCs cs => exact storingIds_nested (s := configureLine (s.setCsLine cs)) h
  case opReleasePowerDown | opReleasePowerDownId => exact oneFrame_nested h
  all_goals exact replying_nested h

/-- Settles O18: a body refuses at its first `select`, and `deselect` checks for an open bracket. -/
theorem nestedSelectRefused : Obligations.NestedSelectRefused := by
  refine ⟨fun i s hwf hc hactive hcode hclear => ?_, fun s h => ?_⟩
  · rw [exec_of_allowed hwf (.inr hc), body_nested hactive hcode hclear]; rfl
  · rw [deselect, h]; rfl

/-! ### What completes -/

/-- From `s` the run `o` returns idle, or else it is a wait, the only stop, whose counter never advances again. -/
def Completes {α : Type} (waits : Bool) (s : State) (o : Ran α) : Prop :=
  (∃ t a, o = .next (t, a) ∧ Idle t ∧ t.clock.frozen = s.clock.frozen) ∨
    (waits = true ∧ s.clock.frozen = true ∧ o = .fault .waitStuck)

section Completing

variable {α β : Type} {waits : Bool} {s : State}

theorem completes_next {p : State × α} (hi : Idle p.1) (hf : p.1.clock.frozen = s.clock.frozen) :
    Completes waits s (.next p) := .inl ⟨p.1, p.2, rfl, hi, hf⟩

theorem Completes.andThen {o : Ran α} {k : State → α → Ran β} (ho : Completes waits s o)
    (hk : ∀ t a, Idle t → Completes waits t (k t a)) : Completes waits s (Machine.andThen o k) := by
  obtain ⟨t, a, rfl, hi, hf⟩ | ⟨hw, hf, rfl⟩ := ho
  · obtain ⟨u, b, hu, hiu, hfu⟩ | ⟨hw, hft, hu⟩ := hk t a hi
    · exact .inl ⟨u, b, hu, hiu, hfu.trans hf⟩
    · exact .inr ⟨hw, hf ▸ hft, hu⟩
  · exact .inr ⟨hw, hf, rfl⟩

theorem sendFrame_completes (j : Instr) (hi : Idle s) : Completes waits s (sendFrame j s) := by
  obtain ⟨ins, d, n, he, -⟩ := exchange_spec (encode j) hi.1
  exact .inl ⟨_, ins, he, afterExchange_idle hi _ _ _ _, rfl⟩

theorem xReadStatus1_completes (hi : Idle s) : Completes waits s (xReadStatus1 s) :=
  (sendFrame_completes _ hi).andThen fun _ _ ht => completes_next ht rfl

/-- A poll loop from an idle state returns or runs out of polls. -/
theorem readyLoop_returns_or_stuck {t0 timeout : Time} : ∀ {polls : List Unit} {s : State}, Idle s →
    (∃ t b, readyLoop t0 timeout polls s = .next (t, b)) ∨ readyLoop t0 timeout polls s = .fault .waitStuck := by
  intro polls
  induction polls with
  | nil => exact fun _ => .inr rfl
  | cons _ polls ih =>
    intro s hi
    obtain ⟨f, st, d, n, hr, -⟩ := ready_spec hi.1
    simp only [readyLoop, hr, andThen_next]
    split
    · exact .inl ⟨_, _, rfl⟩
    · split
      · exact .inl ⟨_, _, rfl⟩
      · exact ih (afterExchange_idle hi [0x05, 0x00] [f, st] d n)

theorem readyWait_completes {timeout : Time} (hi : Idle s) : Completes true s (readyWait timeout s) := by
  obtain ⟨t, b, h⟩ | h := readyLoop_returns_or_stuck (t0 := s.now.2) (timeout := timeout)
    (polls := waitPolls timeout s.now.1) (s := s.now.1) hi
  · have hmoves := readyWait_moves (frames := [.frameReadStatus1]) (writes := fun _ => True) List.mem_cons_self trivial h
    exact .inl ⟨t, b, h, hmoves.idle hi, hmoves.frozen⟩
  · exact .inr ⟨rfl, (readyWait_fault hi h).2, h⟩

theorem enableWrite_completes (hi : Idle s) : Completes waits s (enableWrite s) :=
  ((sendFrame_completes _ hi).andThen fun _ _ ht => completes_next ht rfl).andThen fun _ _ ht =>
    (xReadStatus1_completes ht).andThen fun _ _ hu => completes_next hu rfl

theorem disableWrite_completes (hi : Idle s) : Completes waits s (disableWrite s) :=
  ((sendFrame_completes _ hi).andThen fun _ _ ht => completes_next ht rfl).andThen fun _ _ ht =>
    (xReadStatus1_completes ht).andThen fun _ _ hu => completes_next hu rfl

theorem gate_completes (hi : Idle s) : Completes true s (gate s) := by
  refine (readyWait_completes hi).andThen fun t isReady ht => ?_
  cases isReady
  · exact completes_next ht rfl
  · exact enableWrite_completes ht

theorem settle_completes {budget : Time} (hi : Idle s) : Completes true s (settle budget s) := by
  refine (readyWait_completes hi).andThen fun t isReady ht => ?_
  cases isReady
  · rw [if_neg Bool.false_ne_true]
    refine (disableWrite_completes ht).andThen fun u _ hu => ?_
    exact completes_next hu rfl
  · exact completes_next ht rfl

theorem mutate_completes {j : Instr} {budget : Time} (hi : Idle s) : Completes true s (mutate j budget s) := by
  refine (gate_completes hi).andThen fun t passed ht => ?_
  cases passed
  · exact completes_next ht rfl
  · exact (sendFrame_completes j ht).andThen fun _ _ hu => settle_completes hu

theorem xReadBytes_completes {addr : Address} {n : Nat} (hi : Idle s) : Completes waits s (xReadBytes addr n s) := by
  refine (sendFrame_completes _ hi).andThen fun t ins ht => ?_
  exact completes_next ht rfl

theorem readArray_completes {addr : Address} {len : Nat} (hi : Idle s) : Completes true s (readArray addr len s) := by
  refine (readyWait_completes hi).andThen fun t isReady ht => ?_
  cases isReady
  · exact completes_next ht rfl
  · rw [if_pos rfl]
    refine (xReadBytes_completes ht).andThen fun u bs hu => ?_
    exact completes_next hu rfl

theorem returning_completes {o : Ran α} {res : α → Result} (ho : Completes waits s o) :
    Completes waits s (returning o res) := by
  refine ho.andThen fun t a ht => ?_
  exact completes_next ht rfl

theorem oneFrame_completes {j : Instr} {finish : State → List Byte → State × Result} (hi : Idle s)
    (hfinish : ∀ u ins, Idle u → Idle (finish u ins).1 ∧ (finish u ins).1.clock = u.clock) :
    Completes waits s (oneFrame j finish s) := by
  refine (sendFrame_completes j hi).andThen fun t ins ht => ?_
  obtain ⟨hidle, hclock⟩ := hfinish t ins ht
  exact completes_next hidle (by rw [hclock])

theorem replying_completes {j : Instr} {res : List Byte → Result} (hi : Idle s) :
    Completes waits s (replying j res s) := oneFrame_completes hi fun _ _ hu => ⟨hu, rfl⟩

theorem storingIds_completes (hi : Idle s) : Completes waits s (storingIds s) :=
  oneFrame_completes hi fun _ _ hu => ⟨hu, rfl⟩

end Completing

/-- The body of every instruction returns from an idle state, but for a wait that is stuck. -/
theorem body_completes {i : Instr} {s : State} (hi : Idle s) : Completes i.canTimeOut s (body i s) := by
  cases i
  case opReadyWait => exact returning_completes (readyWait_completes hi)
  case opRead | opReadByte => exact returning_completes (readArray_completes hi)
  case opWritePage | opEraseChip | opEraseSector4KB | opEraseBlock32KB | opEraseBlock64KB =>
    exact returning_completes (mutate_completes hi)
  case opEnableWrite => exact returning_completes (enableWrite_completes hi)
  case opDisableWrite => exact returning_completes (disableWrite_completes hi)
  case frameMfrDeviceId => exact storingIds_completes hi
  case opBegin => exact storingIds_completes (s := configureLine s) hi
  case opBeginCs cs => exact storingIds_completes (s := configureLine (s.setCsLine cs)) hi
  case opReleasePowerDown | opReleasePowerDownId => exact oneFrame_completes hi fun _ _ hu => ⟨hu, rfl⟩
  case opReset =>
    exact (sendFrame_completes _ hi).andThen fun _ _ ht => oneFrame_completes ht fun _ _ hu => ⟨hu, rfl⟩
  case opErrorCode | opClearError => exact completes_next hi rfl
  all_goals exact replying_completes hi

/-- Settles O14: with a live clock no wait is stuck. -/
theorem everyInstructionRunsAfterBegin : Obligations.EveryInstructionRunsAfterBegin := by
  rintro i s ⟨hi, hc⟩ hlive hwf
  obtain ⟨t, r, hbody, -⟩ | ⟨-, hfrozen, -⟩ := body_completes (i := i) hi
  · exact ⟨_, exec_of_body hwf hc hbody⟩
  · exact absurd (hlive.symm.trans hfrozen) Bool.false_ne_true

/-- If an instruction faults, its body did. -/
theorem body_of_exec_fault {i : Instr} {s : State} {r : Fault} (h : exec i s = .fault r) : body i s = .fault r := by
  have hcomplete : ∀ o : Ran Result, complete o = .fault r → o = .fault r := fun o ho => by
    obtain ho | ⟨_, _, _, ho⟩ := andThen_eq_fault ho
    · exact ho
    · cases ho
  rw [exec_eq] at h
  cases hwf : i.wellFormed with
  | false => rw [hwf] at h; cases h
  | true =>
    rw [hwf, whenInDomain_true] at h
    split at h
    · exact hcomplete _ h
    · unfold whenConfigured at h
      split at h
      · exact hcomplete _ h
      · cases h

/-- Settles O15: a fault is the body's, and a body faults only where a wait is stuck. -/
theorem onlyAStoppedClockFaults : Obligations.OnlyAStoppedClockFaults := by
  intro i s r hi h
  have hbody := body_of_exec_fault h
  obtain ⟨t, a, hnext, -⟩ | ⟨hwaits, hfrozen, hstuck⟩ := body_completes (i := i) hi
  · rw [hnext] at hbody; cases hbody
  · rw [hstuck] at hbody; cases hbody; exact ⟨rfl, hfrozen, hwaits⟩

end Sys2Proof.Proofs
end

section
/-! Who writes what (R13 to R18, R26, R69): what an instruction leaves of the handle, the control state and the trace is
what the moves it may make leave of them. -/

namespace Sys2Proof.Proofs

open Sys2Proof.Machine Sys2Proof.Laws

/-! ### What moves write -/

section Writers

variable {frames : List Instr} {writes : Write → Prop} {s t : State}

/-- Moves without the 0x90 exchange leave both IDs (R15, R16). -/
theorem moves_ids (h : Moves frames writes s t) (hw : ¬ writes .ids) : t.mfrId = s.mfrId ∧ t.devId = s.devId := by
  induction h with
  | refl => exact ⟨rfl, rfl⟩
  | frame j _ _ _ _ he ih => obtain ⟨_, _, d, n, rfl⟩ := exchange_eq_next he; exact ih
  | ids _ _ _ hids _ => exact absurd hids hw
  | now _ ih | delay _ _ ih | timeout _ _ ih | clear _ _ ih | configure _ _ ih | rebind _ _ _ ih | result _ _ ih =>
    exact ih

/-- Moves that bind no line keep H.CS_LINE, and every line they name is that one (R14). -/
theorem moves_line (h : Moves frames writes s t) (hw : ¬ writes .rebind) : t.csLine = s.csLine ∧
    ∃ events, t.trace = s.trace ++ events ∧ ∀ e ∈ events, ∀ l, eventLine e = some l → l = s.csLine := by
  have hone : ∀ {events : List Event} {e : Event}, (∀ l, eventLine e = some l → l = s.csLine) →
      (∀ e ∈ events, ∀ l, eventLine e = some l → l = s.csLine) →
      ∀ e' ∈ events ++ [e], ∀ l, eventLine e' = some l → l = s.csLine := fun he hevents =>
    List.forall_mem_append.2 ⟨hevents, List.forall_mem_singleton.2 he⟩
  induction h with
  | refl => exact ⟨rfl, [], (List.append_nil _).symm, by simp⟩
  | frame j _ _ _ _ he ih =>
    obtain ⟨hline, events, htrace, hevents⟩ := ih
    obtain ⟨_, _, d, n, rfl⟩ := exchange_eq_next he
    refine ⟨hline, _, by rw [afterExchange_trace, htrace, List.append_assoc],
      List.forall_mem_append.2 ⟨hevents, fun e hmem l hl => ?_⟩⟩
    rw [← hline]
    exact eventLine_exchange hmem hl
  | now _ ih | delay _ _ ih =>
    obtain ⟨hline, events, htrace, hevents⟩ := ih
    exact ⟨hline, _, by rw [← List.append_assoc, ← htrace]; rfl, hone (fun _ hl => by cases hl) hevents⟩
  | configure _ _ ih =>
    obtain ⟨hline, events, htrace, hevents⟩ := ih
    exact ⟨hline, _, by rw [← List.append_assoc, ← htrace]; rfl,
      hone (fun _ hl => by rw [← hline]; cases hl; rfl) hevents⟩
  | rebind _ _ hrebind _ => exact absurd hrebind hw
  | timeout _ _ ih | clear _ _ ih | ids _ _ _ _ ih | result _ _ ih => exact ih

/-- The brackets of moves begin with the opcodes of their frames. -/
theorem moves_opcodes (h : Moves frames writes s t) : ∃ events ops, t.trace = s.trace ++ events ∧ Sends events ops ∧
    ∀ o ∈ ops, ∃ j ∈ frames, (encode j).head? = some o := by
  induction h with
  | refl => exact ⟨[], [], (List.append_nil _).symm, .nil, by simp⟩
  | frame j _ hmem hf _ he ih =>
    obtain ⟨events, ops, htrace, hsends, hops⟩ := ih
    obtain ⟨_, hlen, d, n, rfl⟩ := exchange_eq_next he
    obtain ⟨rest, hbytes⟩ := encode_eq_cons hf
    rw [hbytes] at hlen ⊢
    refine ⟨_, _, by rw [afterExchange_trace, htrace, List.append_assoc], hsends.append (sends_exchange _ _ _ _ hlen),
      List.forall_mem_append.2 ⟨hops, List.forall_mem_singleton.2 ⟨j, hmem, by rw [hbytes]; rfl⟩⟩⟩
  | now _ ih =>
    obtain ⟨events, ops, htrace, hsends, hops⟩ := ih
    exact ⟨_, _, by rw [← List.append_assoc, ← htrace]; rfl, hsends.append (sends_now _), by simpa using hops⟩
  | delay n _ ih =>
    obtain ⟨events, ops, htrace, hsends, hops⟩ := ih
    exact ⟨_, _, by rw [← List.append_assoc, ← htrace]; rfl, hsends.append (sends_delayUs n), by simpa using hops⟩
  | configure _ _ ih =>
    obtain ⟨events, ops, htrace, hsends, hops⟩ := ih
    exact ⟨_, _, by rw [← List.append_assoc, ← htrace]; rfl, hsends.append (sends_pinOut _), by simpa using hops⟩
  | timeout _ _ ih | clear _ _ ih | ids _ _ _ _ ih | rebind _ _ _ ih | result _ _ ih => exact ih

end Writers

/-- Settles O21: without the exchange no move writes an ID. -/
theorem idWriters : Obligations.IdWriters := fun _ _ _ h hw =>
  moves_ids (exec_moves h) fun hids => Bool.false_ne_true (hw.symm.trans hids)

/-- Settles O22: moves keep all of it, and without `begin` S.CONFIGURED too. -/
theorem controlStateFrame : Obligations.ControlStateFrame := by
  intro i s t hi h
  have hmoves := exec_moves h
  obtain ⟨hcaller, htxn⟩ := hmoves.caller
  refine ⟨hcaller, htxn, hmoves.idle hi, fun ⟨hbegin, hbeginCs⟩ => hmoves.configured ?_⟩
  rintro (hi | ⟨cs, hi⟩)
  · exact hbegin hi
  · exact hbeginCs cs hi

/-- `begin(cs)` is `begin` on the line `cs` (R110). -/
theorem exec_opBeginCs (cs : LineId) (s : State) : exec (.opBeginCs cs) s = exec .opBegin (s.setCsLine cs) := rfl

/-- An instruction that is no `begin(cs)` keeps H.CS_LINE and names no other line. -/
theorem exec_line {i : Instr} {s t : State} (h : exec i s = .next t) (hi : ∀ cs, i ≠ .opBeginCs cs) :
    t.csLine = s.csLine ∧
      ∃ events, t.trace = s.trace ++ events ∧ ∀ e ∈ events, ∀ l, eventLine e = some l → l = t.csLine := by
  obtain ⟨hline, hevents⟩ := moves_line (exec_moves h) fun ⟨cs, hcs⟩ => hi cs hcs
  exact ⟨hline, hline ▸ hevents⟩

/-- Settles O20: `begin(cs)` binds its line before it emits anything. -/
theorem chipSelectLineWriters : Obligations.ChipSelectLineWriters := by
  intro i s t h
  by_cases hi : ∃ cs, i = .opBeginCs cs
  · obtain ⟨cs, rfl⟩ := hi
    obtain ⟨hline, hevents⟩ := exec_line ((exec_opBeginCs cs s).symm.trans h) (by simp)
    exact ⟨.inl ⟨cs, rfl, hline⟩, hevents⟩
  · have hi : ∀ cs, i ≠ .opBeginCs cs := fun cs hcs => hi ⟨cs, hcs⟩
    obtain ⟨hline, hevents⟩ := exec_line h hi
    exact ⟨.inr ⟨hi, hline⟩, hevents⟩

/-- Settles O26: an instruction moves with the frames it emits. -/
theorem emittedFramesAreTheTables : Obligations.EmittedFramesAreTheTables := by
  intro i s t h
  obtain ⟨events, ops, htrace, hsends, hops⟩ := moves_opcodes (exec_moves h)
  exact ⟨events, htrace, hsends.opcodes.symm ▸ hops⟩

/-! ### The parts of the composed operations -/

section Parts

variable {s t : State} {b : Bool}

/-- A gate that returned waited, and enabled writing unless the wait ran late (R92). -/
theorem gate_eq_next (h : gate s = .next (t, b)) :
    (∃ u, readyWait tDefaultMs s = .next (u, true) ∧ enableWrite u = .next (t, b)) ∨
      (readyWait tDefaultMs s = .next (t, false) ∧ b = false) := by
  obtain ⟨u, isReady, hr, hk⟩ := andThen_eq_next h
  cases isReady with
  | true => exact .inl ⟨u, hr, hk⟩
  | false => cases hk; exact .inr ⟨hr, rfl⟩

/-- A settling that returned waited, and disabled writing if the wait ran late (R93). -/
theorem settle_eq_next {budget : Time} (h : settle budget s = .next (t, b)) :
    (readyWait budget s = .next (t, true) ∧ b = true) ∨
      ∃ u cleared, readyWait budget s = .next (u, false) ∧ disableWrite u = .next (t, cleared) ∧ b = false := by
  obtain ⟨u, isReady, hr, hk⟩ := andThen_eq_next h
  cases isReady with
  | true => cases hk; exact .inl ⟨hr, rfl⟩
  | false =>
    rw [if_neg Bool.false_ne_true] at hk
    obtain ⟨v, cleared, hd, hk⟩ := andThen_eq_next hk
    cases hk; exact .inr ⟨u, cleared, hr, hd, rfl⟩

/-- A mutating command that returned ended at its gate, or sent its frame and settled (R92, R93). -/
theorem mutate_eq_next {j : Instr} {budget : Time} (h : mutate j budget s = .next (t, b)) :
    (gate s = .next (t, false) ∧ b = false) ∨ ∃ u v ins, gate s = .next (u, true) ∧ sendFrame j u = .next (v, ins) ∧
      settle budget v = .next (t, b) := by
  obtain ⟨u, passed, hg, hk⟩ := andThen_eq_next h
  cases passed with
  | true =>
    rw [if_pos rfl] at hk
    obtain ⟨v, ins, hs, hk⟩ := andThen_eq_next hk
    exact .inr ⟨u, v, ins, hg, hs, hk⟩
  | false => cases hk; exact .inl ⟨hg, rfl⟩

/-- An array read that returned waited, and read and cleared H.ERR unless the wait ran late (R96). -/
theorem readArray_eq_next {addr : Address} {len : Nat} {r : Option (List Byte)}
    (h : readArray addr len s = .next (t, r)) :
    (∃ u v bs, readyWait tDefaultMs s = .next (u, true) ∧ xReadBytes addr len u = .next (v, bs) ∧
        t = clearError v ∧ r = some bs) ∨
      (readyWait tDefaultMs s = .next (t, false) ∧ r = none) := by
  obtain ⟨u, isReady, hr, hk⟩ := andThen_eq_next h
  cases isReady with
  | true =>
    rw [if_pos rfl] at hk
    obtain ⟨v, bs, hx, hk⟩ := andThen_eq_next hk
    cases hk; exact .inl ⟨u, v, bs, hr, hx, rfl, rfl⟩
  | false => cases hk; exact .inr ⟨hr, rfl⟩

end Parts

/-! ### The error slot -/

section ErrorSlot

variable {s t : State}

/-- Moves that write neither value leave H.ERR. -/
theorem moves_err_same {frames : List Instr} (h : Moves frames (fun _ => False) s t) : t.err = s.err := by
  obtain ⟨hw, -⟩ | ⟨hw, -⟩ | he := h.err
  · exact hw.elim
  · exact hw.elim
  · exact he

theorem enableWrite_err {b : Bool} (h : enableWrite s = .next (t, b)) : t.err = s.err :=
  moves_err_same (enableWrite_moves (frames := [.frameReadStatus1, .frameWriteEnable]) (by simp) (by simp) h)

theorem disableWrite_err {b : Bool} (h : disableWrite s = .next (t, b)) : t.err = s.err :=
  moves_err_same (disableWrite_moves (frames := [.frameReadStatus1, .frameWriteDisable]) (by simp) (by simp) h)

/-- A poll loop that ends with true leaves H.ERR, one that ends with false makes it TIMEOUT (R85). -/
theorem readyLoop_err {t0 timeout : Time} : ∀ {polls : List Unit} {s t : State} {b : Bool},
    readyLoop t0 timeout polls s = .next (t, b) → (b = true ∧ t.err = s.err) ∨ (b = false ∧ t.err = .timeout) := by
  intro polls
  induction polls with
  | nil => intro s t b h; cases h
  | cons _ polls ih =>
    intro s t b h
    obtain ⟨u, isReady, hr, hk⟩ := andThen_eq_next h
    obtain ⟨-, f, st, d, n, rfl, -⟩ := ready_eq_next hr
    split at hk
    · cases hk; exact .inl ⟨rfl, rfl⟩
    · split at hk
      · cases hk; exact .inr ⟨rfl, rfl⟩
      · have herr := ih hk
        exact herr

theorem readyWait_err {timeout : Time} {b : Bool} (h : readyWait timeout s = .next (t, b)) :
    (b = true ∧ t.err = s.err) ∨ (b = false ∧ t.err = .timeout) := readyLoop_err (s := s.now.1) h

theorem gate_err {b : Bool} (h : gate s = .next (t, b)) : t.err = s.err ∨ (b = false ∧ t.err = .timeout) := by
  obtain ⟨u, hr, he⟩ | ⟨hr, rfl⟩ := gate_eq_next h
  · exact .inl ((enableWrite_err he).trans ((readyWait_err hr).resolve_right nofun).2)
  · exact .inr ⟨rfl, ((readyWait_err hr).resolve_left nofun).2⟩

theorem settle_err {budget : Time} {b : Bool} (h : settle budget s = .next (t, b)) :
    t.err = s.err ∨ (b = false ∧ t.err = .timeout) := by
  obtain ⟨hr, rfl⟩ | ⟨u, c, hr, hd, rfl⟩ := settle_eq_next h
  · exact .inl ((readyWait_err hr).resolve_right nofun).2
  · exact .inr ⟨rfl, (disableWrite_err hd).trans ((readyWait_err hr).resolve_left nofun).2⟩

/-- A mutating command changes H.ERR only to TIMEOUT, and then returns false (R92, R93). -/
theorem mutate_err {j : Instr} {budget : Time} {b : Bool} (h : mutate j budget s = .next (t, b)) :
    t.err = s.err ∨ (b = false ∧ t.err = .timeout) := by
  obtain ⟨hg, rfl⟩ | ⟨u, v, ins, hg, hs, hsettle⟩ := mutate_eq_next h
  · exact gate_err hg
  · obtain ⟨-, -, d, n, rfl⟩ := exchange_eq_next hs
    have hgate : u.err = s.err := (gate_err hg).resolve_right nofun
    exact (settle_err hsettle).imp_left (·.trans hgate)

/-- An array read ends with its bytes and NONE, or fails with TIMEOUT (R96). -/
theorem readArray_err {addr : Address} {len : Nat} {r : Option (List Byte)} (h : readArray addr len s = .next (t, r)) :
    (∃ bs, r = some bs ∧ t.err = .none) ∨ (r = none ∧ t.err = .timeout) := by
  obtain ⟨u, v, bs, -, -, rfl, rfl⟩ | ⟨hr, rfl⟩ := readArray_eq_next h
  · exact .inl ⟨bs, rfl, rfl⟩
  · exact .inr ⟨rfl, ((readyWait_err hr).resolve_left nofun).2⟩

/-- A body that returns what a routine answers has run the routine. -/
theorem returning_eq_next {α : Type} {o : Ran α} {res : α → Result} {r : Result}
    (h : returning o res = .next (t, r)) : ∃ a, o = .next (t, a) ∧ r = res a := by
  obtain ⟨u, a, ho, hk⟩ := andThen_eq_next h
  cases hk
  exact ⟨a, ho, rfl⟩

end ErrorSlot

/-- An operation that waits and ends with TIMEOUT, not there before, returned false or fail (R128). -/
theorem result_of_timeout {i : Instr} {s u : State} {r : Result} (hw : i.canTimeOut = true)
    (h : body i s = .next (u, r)) (hs : s.err = .none) (hu : u.err = .timeout) : r = .bool false ∨ r = .fail := by
  have hchanged : u.err ≠ s.err := by rw [hs, hu]; exact nofun
  cases i
  case opReadyWait timeout =>
    obtain ⟨b, hrun, rfl⟩ := returning_eq_next h
    obtain ⟨-, he⟩ | ⟨rfl, -⟩ := readyWait_err hrun
    · exact absurd he hchanged
    · exact .inl rfl
  case opRead | opReadByte =>
    obtain ⟨a, hrun, rfl⟩ := returning_eq_next h
    obtain ⟨bs, rfl, he⟩ | ⟨rfl, -⟩ := readArray_err hrun
    · rw [he] at hu; cases hu
    · exact .inr rfl
  case opWritePage | opEraseChip | opEraseSector4KB | opEraseBlock32KB | opEraseBlock64KB =>
    obtain ⟨b, hrun, rfl⟩ := returning_eq_next h
    obtain ⟨rfl, -⟩ := (mutate_err hrun).resolve_left hchanged
    exact .inl rfl
  all_goals cases hw

/-- The operations that can clear H.ERR (R18). -/
theorem eq_of_canClearError {i : Instr} (h : i.canClearError = true) :
    i = .opClearError ∨ (∃ addr len, i = .opRead addr len) ∨ ∃ addr, i = .opReadByte addr := by
  cases i
  case opClearError => exact .inl rfl
  case opRead addr len => exact .inr (.inl ⟨addr, len, rfl⟩)
  case opReadByte addr => exact .inr (.inr ⟨addr, rfl⟩)
  all_goals cases h

/-- Settles O19: which value can be written follows from the moves, what is returned with it from the wait. -/
theorem errorSlotWriters : Obligations.ErrorSlotWriters := by
  intro i s t h
  have hwrites := (exec_moves h).err
  obtain ⟨-, -, u, r, hbody, rfl⟩ := exec_eq_next h
  constructor
  · intro hs ht
    obtain ⟨hw, -⟩ | ⟨-, he⟩ | he := hwrites
    · refine ⟨hw, ?_⟩
      obtain rfl | rfl := result_of_timeout hw hbody hs ht
      · exact .inl rfl
      · exact .inr rfl
    · rw [ht] at he; cases he
    · rw [ht, hs] at he; cases he
  · intro hs ht
    obtain ⟨-, he⟩ | ⟨hw, -⟩ | he := hwrites
    · rw [ht] at he; cases he
    · obtain rfl | ⟨addr, len, rfl⟩ | ⟨addr, rfl⟩ := eq_of_canClearError hw
      · exact .inl rfl
      · obtain ⟨a, hrun, rfl⟩ := returning_eq_next hbody
        obtain ⟨bs, rfl, -⟩ | ⟨-, he⟩ := readArray_err hrun
        · exact .inr (.inl ⟨addr, len, bs, rfl, rfl⟩)
        · cases ht.symm.trans he
      · obtain ⟨a, hrun, rfl⟩ := returning_eq_next hbody
        obtain ⟨bs, rfl, -⟩ | ⟨-, he⟩ := readArray_err hrun
        · exact .inr (.inr ⟨addr, answerAt bs 1, rfl, rfl⟩)
        · cases ht.symm.trans he
    · rw [ht, hs] at he; cases he

end Sys2Proof.Proofs
end

section
/-! Frames on their own and the operations that are one or two exchanges (R80 to R84, R88 to R125): a body that sends one
frame leaves what an exchange leaves, and its result is read off the answers. -/

namespace Sys2Proof.Proofs

open Sys2Proof.Machine Sys2Proof.Laws

/-! ### One frame -/

/-- From a state with no open bracket a body that sends one frame finishes after an exchange; an answer the chip fixes is
that one. -/
theorem oneFrame_spec (j : Instr) (finish : State → List Byte → State × Result) {s : State} (h : s.csActive = false) :
    ∃ ins d n, oneFrame j finish s = .next (finish (afterExchange s (encode j) ins d n) ins) ∧
      ins.length = (encode j).length ∧
      ∀ k b, k < (encode j).length → s.env.answer ((encode j).take (k + 1)) = some b → ins[k]? = some b := by
  obtain ⟨ins, d, n, hrun, hlen, hanswers⟩ := exchange_spec (encode j) h
  exact ⟨ins, d, n, by rw [oneFrame, sendFrame, hrun, andThen_next], hlen, hanswers⟩

/-- The answer at position `k + 1`, where it is known. -/
theorem answerAt_of_getElem? {ins : List Byte} {k : Nat} {b : Byte} (h : ins[k]? = some b) : answerAt ins (k + 1) = b := by
  rw [answerAt, Nat.add_sub_cancel, List.getD_eq_getElem?_getD, h, Option.getD_some]

/-- After `begin` an instruction whose body only replies to one frame returns its reply; an answer the chip fixes is that
one. -/
theorem exec_replying_result {i : Instr} (j : Instr) {res : List Byte → Result} {s : State} (hu : Usable s)
    (hwf : i.wellFormed = true) (hbody : body i = replying j res) : ∃ t ins, exec i s = .next t ∧
      t.result = some (res ins) ∧ t.env = s.env.endFrame (encode j) ∧ ins.length = (encode j).length ∧
      ∀ k b, k < (encode j).length → s.env.answer ((encode j).take (k + 1)) = some b → ins[k]? = some b := by
  obtain ⟨ins, d, n, hrun, hlen, hanswers⟩ := oneFrame_spec j (fun u ins => (u, res ins)) hu.1.1
  exact ⟨_, ins, exec_of_body hwf hu.2 (by rw [hbody]; exact hrun), rfl, rfl, hlen, hanswers⟩

/-- From an idle state an exchange leaves the handle, the control state, the caller's side and the clock. -/
theorem afterExchange_same {s : State} (hi : Idle s) (out ins d : List Byte) (n : Nat) :
    let t := afterExchange s out ins d n
    SameHandle s t ∧ SameControl s t ∧ SameCaller s t ∧ t.clock = s.clock := by
  obtain ⟨hline, hcontrol, hcaller, -⟩ := (waitOnly_afterExchange hi out ins d n).same
  exact ⟨⟨hline, rfl⟩, hcontrol, hcaller, rfl⟩

/-- An instruction whose body only replies to one frame is one exchange of that frame. -/
theorem isOneExchange_of_replying {i : Instr} (j : Instr) {res res' : List Byte → Result} {s : State} (hu : Usable s)
    (hwf : i.wellFormed = true) (hbody : body i = replying j res)
    (hres : ∀ ins : List Byte, ins.length = (encode j).length → res ins = res' ins) :
    IsOneExchange i s (encode j) res' := by
  refine isOneExchange_of_sendFrame hu.1 fun u ins hlen hsend => ?_
  rw [← hres ins hlen]
  exact exec_of_body hwf hu.2 (by rw [hbody, replying, oneFrame, hsend, andThen_next])

/-- Settles O27: each of the seven replies `unit` to its frame. -/
theorem oneByteFrames : Obligations.OneByteFrames := fun _ hu =>
  ⟨isOneExchange_of_replying .frameWriteEnable hu rfl rfl fun _ _ => rfl,
    isOneExchange_of_replying .frameWriteDisable hu rfl rfl fun _ _ => rfl,
    isOneExchange_of_replying .frameChipErase hu rfl rfl fun _ _ => rfl,
    isOneExchange_of_replying .framePowerDown hu rfl rfl fun _ _ => rfl,
    isOneExchange_of_replying .frameReleasePowerDown hu rfl rfl fun _ _ => rfl,
    isOneExchange_of_replying .frameEnableReset hu rfl rfl fun _ _ => rfl,
    isOneExchange_of_replying .frameReset hu rfl rfl fun _ _ => rfl⟩

/-- Settles O28: the reply is the second answer, and the test of `ready` is its bit 0. -/
theorem statusReads : Obligations.StatusReads := fun _ hu =>
  ⟨isOneExchange_of_replying .frameReadStatus1 hu rfl rfl fun _ _ => rfl,
    isOneExchange_of_replying .frameReadStatus2 hu rfl rfl fun _ _ => rfl,
    isOneExchange_of_replying .frameReadStatus1 hu rfl rfl fun _ _ => rfl,
    isOneExchange_of_replying .frameReadStatus2 hu rfl rfl fun _ _ => rfl,
    isOneExchange_of_replying .frameReadStatus1 hu rfl rfl fun _ _ => congrArg Result.bool (statusReady_eq _)⟩

/-- Settles O29: each of the three replies `unit` to its frame. -/
theorem addressedEraseFrames : Obligations.AddressedEraseFrames := by
  intro s addr hu
  simp only [← addressBytes_eq]
  exact ⟨isOneExchange_of_replying (.frameSectorErase4KB addr) hu rfl rfl fun _ _ => rfl,
    isOneExchange_of_replying (.frameBlockErase32KB addr) hu rfl rfl fun _ _ => rfl,
    isOneExchange_of_replying (.frameBlockErase64KB addr) hu rfl rfl fun _ _ => rfl⟩

/-- The read frame keeps its answers after the first four (R64, R94). -/
theorem keptAnswers_readBytes {addr : Address} {n : Nat} {ins : List Byte} (h : ins.length = 4 + n) :
    keptAnswers (keptPositions (.frameReadBytes addr n)) ins = ins.drop 4 := by
  have hpositions : keptPositions (.frameReadBytes addr n) = List.range' (4 + 1) n := by
    change (List.range n).map (5 + ·) = _
    rw [List.range_eq_range', List.map_add_range']
  rw [hpositions, keptAnswers_range' h]

theorem length_encode_readBytes (addr : Address) (n : Nat) : (encode (.frameReadBytes addr n)).length = 4 + n := by
  simp [encode, addressBytes, fillers]; omega

/-- Settles O30: the read frame replies its kept answers, the page-program frame `unit`. -/
theorem readAndProgramFrames : Obligations.ReadAndProgramFrames := by
  intro s addr n payload hu hlen
  simp only [← addressBytes_eq]
  exact ⟨isOneExchange_of_replying (.frameReadBytes addr n) hu rfl rfl fun ins hins =>
      congrArg Result.bytes (keptAnswers_readBytes (hins.trans (length_encode_readBytes addr n))),
    isOneExchange_of_replying (.framePageProgram addr payload) hu (decide_eq_true hlen) rfl fun _ _ => rfl⟩

/-- Settles O31: the kept positions of each frame are its read cycles. -/
theorem identificationFrames : Obligations.IdentificationFrames := fun _ a hu =>
  ⟨isOneExchange_of_replying .frameJedecId hu rfl rfl fun _ hins =>
      congrArg Result.bytes (keptAnswers_range' (k := 1) (n := 3) hins),
    isOneExchange_of_replying .frameReadUniqueId hu rfl rfl fun _ hins =>
      congrArg Result.bytes (keptAnswers_range' (k := 5) (n := 8) hins),
    isOneExchange_of_replying (.frameReadSfdp a) hu rfl rfl fun _ _ => rfl,
    isOneExchange_of_replying .frameReleasePowerDownId hu rfl rfl fun _ _ => rfl⟩

/-! ### The JEDEC ID -/

/-- R112's shifts and ors are the value in base 256, the manufacturer the most significant. -/
theorem packJedec_eq_ofNat (m t c : Byte) :
    packJedec m t c = BitVec.ofNat 24 (m.toNat * 65536 + t.toNat * 256 + c.toNat) := by
  have hlow : ∀ (b : Byte) (i : Nat), 8 ≤ i → b.getLsbD i = false := fun b i hi => BitVec.getLsbD_of_ge b i hi
  have h1 : (m.zeroExtend 24 <<< 16) &&& (t.zeroExtend 24 <<< 8) = 0#24 := by
    ext i hi
    by_cases h : i < 16
    · simp [h]
    · simp [hlow t (i - 8) (by omega)]
  have h2 : ((m.zeroExtend 24 <<< 16) ||| (t.zeroExtend 24 <<< 8)) &&& c.zeroExtend 24 = 0#24 := by
    ext i hi
    by_cases h : i < 8
    · simp [h, show i < 16 by omega]
    · simp [hlow c i (by omega)]
  rw [packJedec, ← BitVec.add_eq_or_of_and_eq_zero _ _ h2, ← BitVec.add_eq_or_of_and_eq_zero _ _ h1,
    BitVec.shiftLeft_eq_mul_twoPow, BitVec.shiftLeft_eq_mul_twoPow]
  bv_omega

/-- Settles O33: `jedec_id` replies the packing of the three kept answers. -/
theorem jedecIdPacksManufacturerHigh : Obligations.JedecIdPacksManufacturerHigh := fun _ hu =>
  isOneExchange_of_replying .frameJedecId hu rfl rfl fun _ _ => congrArg Result.u24 (packJedec_eq_ofNat _ _ _)

/-! ### The 0x90 exchange -/

/-- From an idle state the 0x90 exchange stores its answers 5 and 6; an answer the chip fixes is that one (R108). -/
theorem storingIds_spec {s : State} (hi : Idle s) : ∃ ins d n,
    storingIds s = .next ((afterExchange s [0x90, 0, 0, 0, 0, 0] ins d n).setIds (ins.getD 4 0) (ins.getD 5 0), .unit) ∧
      ins.length = 6 ∧
      ∀ k b, k < 6 → s.env.answer ([0x90, 0, 0, 0, 0, 0].take (k + 1)) = some b → ins[k]? = some b :=
  oneFrame_spec .frameMfrDeviceId _ hi.1

/-- Settles O32: the frame's body is the 0x90 exchange. -/
theorem mfrDeviceIdFrameStoresIds : Obligations.MfrDeviceIdFrameStoresIds := by
  rintro s ⟨hi, hc⟩
  obtain ⟨ins, d, n, hrun, hlen, -⟩ := storingIds_spec hi
  obtain ⟨-, hcontrol, hcaller, -⟩ := afterExchange_same hi [0x90, 0, 0, 0, 0, 0] ins d n
  exact ⟨_, ins, exec_of_body rfl hc hrun, hlen, rfl, rfl, rfl, rfl, rfl, rfl, hcontrol, hcaller, rfl, rfl, rfl⟩

/-- From an idle state `begin` configures the line, makes the 0x90 exchange and stores its answers 5 and 6; an answer the
chip fixes is that one (R109). -/
theorem exec_opBegin_spec {s : State} (hi : Idle s) : ∃ ins d n,
    exec .opBegin s = .next (((afterExchange (configureLine s) [0x90, 0, 0, 0, 0, 0] ins d n).setIds (ins.getD 4 0)
      (ins.getD 5 0)).setResult .unit) ∧ ins.length = 6 ∧
      ∀ k b, k < 6 → s.env.answer ([0x90, 0, 0, 0, 0, 0].take (k + 1)) = some b → ins[k]? = some b := by
  obtain ⟨ins, d, n, hrun, hlen, hanswers⟩ := storingIds_spec (s := configureLine s) hi
  refine ⟨ins, d, n, ?_, hlen, hanswers⟩
  rw [exec_of_allowed rfl (.inl rfl)]
  exact congrArg complete hrun

/-- Settles O36: `begin(cs)` is `begin` on the line `cs`. -/
theorem beginPopulatesTheHandle : Obligations.BeginPopulatesTheHandle := by
  intro s cs i line hi hcase
  obtain ⟨s', hs', rfl⟩ : ∃ s', exec i s = exec .opBegin s' ∧ s' = s.setCsLine line := by
    obtain ⟨rfl, rfl⟩ | ⟨rfl, rfl⟩ := hcase
    · exact ⟨s, rfl, rfl⟩
    · exact ⟨_, rfl, rfl⟩
  obtain ⟨ins, d, n, hrun, hlen, -⟩ := exec_opBegin_spec (s := s.setCsLine line) hi
  obtain ⟨-, ⟨hactive, htxn, -⟩, -⟩ :=
    afterExchange_same (s := configureLine (s.setCsLine line)) hi [0x90, 0, 0, 0, 0, 0] ins d n
  refine ⟨_, ins, hs'.trans hrun, hlen, ?_, rfl, rfl, rfl, rfl, rfl, ⟨hactive.trans hi.1, htxn.trans hi.2⟩, rfl, rfl, rfl,
    ⟨rfl, rfl, rfl⟩, rfl, rfl⟩
  exact List.append_assoc s.trace [_] _

/-! ### Power and reset -/

/-- Settles O37: `power_down` replies to its frame, a release waits after its own. -/
theorem powerOperations : Obligations.PowerOperations := by
  intro s hu
  refine ⟨isOneExchange_of_replying .framePowerDown hu rfl rfl fun _ _ => rfl, ?_, ?_⟩
  · obtain ⟨ins, d, n, hrun, hlen, -⟩ := oneFrame_spec .frameReleasePowerDown
      (fun u _ => (delayUs tReleaseUs u, .unit)) hu.1.1
    exact ⟨_, ins, exec_of_body rfl hu.2 hrun, hlen, rfl, rfl, rfl, rfl, afterExchange_same hu.1 [0xAB] ins d n⟩
  · obtain ⟨ins, d, n, hrun, hlen, -⟩ := oneFrame_spec .frameReleasePowerDownId
      (fun u ins => (delayUs tReleaseUs u, .byte (answerAt ins 5))) hu.1.1
    exact ⟨_, ins, exec_of_body rfl hu.2 hrun, hlen, rfl, rfl, rfl, rfl,
      afterExchange_same hu.1 [0xAB, 0, 0, 0, 0] ins d n⟩

/-- From an idle state `reset` is the two exchanges and the delay (R125). -/
theorem exec_opReset_spec {s : State} (hu : Usable s) : ∃ i1 d1 n1 i2 d2 n2, exec .opReset s = .next ((delayUs 30
    (afterExchange (afterExchange s [0x66] [i1] d1 n1) [0x99] [i2] d2 n2)).setResult .unit) := by
  obtain ⟨ins1, d1, n1, hfirst, hlen1, -⟩ := exchange_spec (encode .frameEnableReset) hu.1.1
  obtain ⟨ins2, d2, n2, hsecond, hlen2, -⟩ := oneFrame_spec .frameReset (fun v _ => (delayUs tResetUs v, .unit))
    (s := afterExchange s [0x66] ins1 d1 n1) rfl
  obtain ⟨i1, rfl⟩ := List.length_eq_one_iff.1 hlen1
  obtain ⟨i2, rfl⟩ := List.length_eq_one_iff.1 hlen2
  refine ⟨i1, d1, n1, i2, d2, n2, exec_of_body rfl hu.2 ?_⟩
  simp only [body, sendFrame, hfirst, andThen_next]
  exact hsecond

/-- Settles O38: `reset` emits nothing between its two exchanges. -/
theorem resetSendsThePairBackToBack : Obligations.ResetSendsThePairBackToBack := by
  intro s hu
  obtain ⟨i1, d1, n1, i2, d2, n2, hrun⟩ := exec_opReset_spec hu
  obtain ⟨-, -, -, -, hsame⟩ := setResult_afterExchange_afterExchange hu.1 [0x66] [i1] [0x99] [i2] d1 d2 n1 n2 .unit
  exact ⟨_, i1, i2, hrun, rfl, rfl, rfl, rfl, hsame⟩

end Sys2Proof.Proofs
end

section
/-! The step (R25, R26, R30, R71, R108, D5, D19): what a step consumes, and the three invariants, each true at creation and
kept by every move of an instruction, so kept by every step. -/

namespace Sys2Proof.Proofs

open Sys2Proof.Machine Sys2Proof.Laws

/-! ### Creation -/

/-- Settles O6: the fields of the state at creation. -/
theorem resetLeavesHandleAsCreated : Obligations.ResetLeavesHandleAsCreated :=
  ⟨rfl, rfl, rfl, rfl, rfl, rfl, rfl, rfl, rfl, rfl⟩

theorem inv_reset : Inv State.reset :=
  ⟨⟨rfl, rfl⟩, nofun, fun _ => ⟨rfl, rfl, rfl⟩, wf_nil, nofun, nofun, nofun⟩

theorem clockOrdered_reset : ClockOrdered State.reset := ⟨.nil, nofun⟩

/-- Settles O7: creation has emitted nothing and opened nothing. -/
theorem invariantsHoldAtReset : Obligations.InvariantsHoldAtReset := ⟨inv_reset, rfl, clockOrdered_reset⟩

/-! ### What a step runs and consumes -/

theorem step_of_loneFrame {s : State} {i : Instr} (h : s.loneFrame = some i) :
    step s = onNext State.clearLone (exec i s) := by
  simp only [step, h]

theorem step_of_pending {s : State} {i : Instr} {rest : List Instr} (hl : s.loneFrame = none)
    (hp : s.pending = i :: rest) :
    step s = if i.isFrame then .refused .notPublic else onNext State.advance (exec i s) := by
  simp only [step, hl, hp]

theorem step_of_waiting {s : State} (hl : s.loneFrame = none) (hp : s.pending = []) : step s = .next s := by
  simp only [step, hl, hp]

/-- A step that runs `o` and then updates the state ends as `o` does. -/
theorem step_outcomes {s : State} {f : State → State} {o : Host.Outcome State Fault Refusal}
    (h : step s = onNext f o) : (∀ t, o = .next t → step s = .next (f t)) ∧ (∀ r, o = .fault r → step s = .fault r) ∧
      ∀ r, o = .refused r → step s = .refused r := by
  rw [h]
  exact ⟨fun _ ho => congrArg (onNext f) ho, fun _ ho => congrArg (onNext f) ho, fun _ ho => congrArg (onNext f) ho⟩

/-- Settles O8: each case of `step`, and what a table word places. -/
theorem stepRunsTheFirstCommand : Obligations.StepRunsTheFirstCommand := by
  refine ⟨fun s i rest hl hp hframe => ?_, fun s i hl => step_outcomes (step_of_loneFrame hl), fun s nbits w i hdecode => ?_⟩
  · refine step_outcomes (f := State.advance) ?_
    rw [step_of_pending hl hp, hframe, if_neg Bool.false_ne_true]
  · rw [State.withFetchWord, decodeTableWord, hdecode]

/-- Settles O10: an instruction touches neither list nor index, so only the step's own update shows. -/
theorem stepConsumesOneCommand : Obligations.StepConsumesOneCommand := by
  intro s t h
  refine ⟨fun i rest hl hp => ?_, fun i hl => ?_⟩
  · obtain ⟨_, _, hl', -⟩ | ⟨-, hp', -⟩ | ⟨j, rest', u, -, hp', -, hu, rfl⟩ := step_eq_next h
    · rw [hl] at hl'; cases hl'
    · rw [hp] at hp'; cases hp'
    · obtain ⟨⟨hpending, hindex, -⟩, -⟩ := (exec_moves hu).caller
      exact ⟨by rw [advance_pending, hpending, hp, List.tail_cons], by rw [advance_opIndex, hindex]⟩
  · obtain ⟨j, u, -, hu, rfl⟩ | ⟨hl', -⟩ | ⟨_, _, _, hl', -⟩ := step_eq_next h
    · obtain ⟨⟨hpending, hindex, -⟩, -⟩ := (exec_moves hu).caller
      exact ⟨hpending, hindex⟩
    · rw [hl] at hl'; cases hl'
    · rw [hl] at hl'; cases hl'

/-- The operations that perform the 0x90 exchange are `begin` and `begin(cs)` (R108). -/
theorem begin_of_writesIds {i : Instr} (hframe : i.isFrame = false) (h : i.writesIds = true) :
    i = .opBegin ∨ ∃ cs, i = .opBeginCs cs := by
  cases i
  case opBegin => exact .inl rfl
  case opBeginCs cs => exact .inr ⟨cs, rfl⟩
  case frameMfrDeviceId => cases hframe
  all_goals cases h

/-- Settles O9: a step that changes an ID ran an operation with the 0x90 exchange. -/
theorem callerCannotSendAFrame : Obligations.CallerCannotSendAFrame := by
  refine ⟨fun s => step_of_waiting, fun s i rest hl hp hframe => ?_, fun s t h => ⟨step_loneFrame h, fun hl hids => ?_⟩⟩
  · rw [step_of_pending hl hp, if_pos hframe]
  · obtain ⟨_, _, hl', -⟩ | ⟨-, -, rfl⟩ | ⟨i, rest, u, -, hp, hframe, hu, rfl⟩ := step_eq_next h
    · rw [hl] at hl'; cases hl'
    · exact absurd hids (by simp)
    · refine ⟨i, rest, hp, begin_of_writesIds hframe ?_⟩
      by_contra hw
      obtain ⟨hm, hd⟩ := idWriters i s u hu (by simpa using hw)
      exact hids.elim (absurd hm) (absurd hd)

/-! ### What every instruction keeps, every step keeps -/

/-- A property that every instruction keeps, and that does not see the caller's side, is kept by every step. -/
theorem step_keeps {P : State → Prop} (hexec : ∀ i s t, P s → exec i s = .next t → P t)
    (hlone : ∀ s, P s → P s.clearLone) (hadvance : ∀ s, P s → P s.advance) {s t : State} (hs : P s)
    (h : step s = .next t) : P t := by
  obtain ⟨i, u, -, hu, rfl⟩ | ⟨-, -, rfl⟩ | ⟨i, rest, u, -, -, -, hu, rfl⟩ := step_eq_next h
  · exact hlone u (hexec i s u hs hu)
  · exact hs
  · exact hadvance u (hexec i s u hs hu)

section Kept

variable {frames : List Instr} {writes : Write → Prop} {s t : State}

/-- The line is high and both IDs hold a value. -/
def LineUp (s : State) : Prop := s.csLevel = .high ∧ s.mfrId ≠ none ∧ s.devId ≠ none

/-- Moves without `begin` keep the line high and both IDs held. -/
theorem moves_lineUp (h : Moves frames writes s t) (hw : ¬ writes .configure) (hs : LineUp s) : LineUp t := by
  induction h with
  | refl => exact hs
  | frame j _ _ _ _ he ih =>
    obtain ⟨_, _, d, n, rfl⟩ := exchange_eq_next he
    exact ⟨rfl, ih.2⟩
  | ids _ _ _ _ ih => exact ⟨ih.1, Option.some_ne_none _, Option.some_ne_none _⟩
  | configure _ hconf _ => exact absurd hconf hw
  | now _ ih | delay _ _ ih | timeout _ _ ih | clear _ _ ih | rebind _ _ _ ih | result _ _ ih => exact ih

/-- The bytes of a well-formed frame are a frame of R69. -/
theorem isFrameBytes_encode {j : Instr} (hf : j.isFrame = true) (hwf : j.wellFormed = true) :
    isFrameBytes (encode j) = true := by
  rw [isFrameBytes, decodeOfEncodeIsTheFrame j hf hwf]

/-- Moves keep the trace legal (R27, R71, R77). -/
theorem moves_legalTrace (h : Moves frames writes s t) (hs : LegalTrace s) : LegalTrace t := by
  have hone : ∀ {u : State} {e : Event}, LegalTrace u → scanEvent u.hasTxn .between e = some .between →
      scanTrace u.hasTxn .between (u.trace ++ [e]) = some .between := fun hu he => by
    simp only [scanTrace_append, hu, Option.bind_some, scanTrace, he]
  induction h with
  | refl => exact hs
  | frame j _ _ hf hwf he ih =>
    obtain ⟨_, hlen, d, n, rfl⟩ := exchange_eq_next he
    rw [LegalTrace, afterExchange_hasTxn, afterExchange_trace, scanTrace_append, ih, Option.bind_some]
    exact scanTrace_exchange (isFrameBytes_encode hf hwf) hlen
  | now _ ih | delay _ _ ih | configure _ _ ih => exact hone ih rfl
  | timeout _ _ ih | clear _ _ ih | ids _ _ _ _ ih | rebind _ _ _ ih | result _ _ ih => exact ih

/-- Moves keep the clock samples of the trace in order (D5). -/
theorem moves_clockOrdered (h : Moves frames writes s t) (hs : ClockOrdered s) : ClockOrdered t := by
  have hsame : ∀ {u v : State}, ClockOrdered u → clockSamples v.trace = clockSamples u.trace → v.clock = u.clock →
      ClockOrdered v := fun hu htrace hclock => by rwa [ClockOrdered, htrace, hclock]
  induction h with
  | refl => exact hs
  | frame j _ _ _ _ he ih =>
    obtain ⟨_, _, d, n, rfl⟩ := exchange_eq_next he
    exact hsame ih (by rw [afterExchange_trace, clockSamples_append, clockSamples_exchange, List.append_nil]) rfl
  | @now u _ ih =>
    obtain ⟨hsorted, hle⟩ := ih
    have hread : ∀ x ∈ clockSamples u.trace, x ≤ u.clock.read.2 := fun x hx =>
      (hle x hx).trans (clock_read_mono u.clock)
    rw [ClockOrdered, now_trace, clockSamples_append, now_clock, clock_read_last]
    refine ⟨List.pairwise_append.2 ⟨hsorted, List.pairwise_singleton _ _, fun x hx y hy => ?_⟩,
      List.forall_mem_append.2 ⟨hread, List.forall_mem_singleton.2 le_rfl⟩⟩
    rw [List.mem_singleton.1 hy]
    exact hread x hx
  | delay _ _ ih => exact hsame ih (by rw [delayUs_trace, clockSamples_append]; exact List.append_nil _) rfl
  | configure _ _ ih => exact hsame ih (by rw [configureLine_trace, clockSamples_append]; exact List.append_nil _) rfl
  | timeout _ _ ih | clear _ _ ih | ids _ _ _ _ ih | rebind _ _ _ ih | result _ _ ih => exact ih

end Kept

/-- `begin` leaves the block configured, the line high and both IDs held (R109, R142). -/
theorem lineUp_of_begin {i : Instr} {s t : State} (hi : Idle s) (hbegin : i = .opBegin ∨ ∃ cs, i = .opBeginCs cs)
    (h : exec i s = .next t) : t.configured = true ∧ LineUp t := by
  obtain ⟨cs, line, hcase⟩ : ∃ cs line, i = .opBegin ∧ line = s.csLine ∨ i = .opBeginCs cs ∧ line = cs := by
    obtain rfl | ⟨cs, rfl⟩ := hbegin
    · exact ⟨0, s.csLine, .inl ⟨rfl, rfl⟩⟩
    · exact ⟨cs, cs, .inr ⟨rfl, rfl⟩⟩
  obtain ⟨u, ins, hu, -, -, -, hm, hd, -, hc, -, -, hlevel, -⟩ := beginPopulatesTheHandle s cs i line hi hcase
  cases hu.symm.trans h
  exact ⟨hc, hlevel, hm ▸ Option.some_ne_none _, hd ▸ Option.some_ne_none _⟩

/-- Every instruction keeps the invariant. -/
theorem exec_keeps_inv {i : Instr} {s t : State} (hs : Inv s) (h : exec i s = .next t) : Inv t := by
  obtain ⟨hi, hup, hdown, hok⟩ := hs
  have hmoves := exec_moves h
  suffices (t.configured = true → LineUp t) ∧
      (t.configured = false → t.csLevel = .unspecified ∧ t.mfrId = none ∧ t.devId = none) from
    ⟨hmoves.idle hi, this.1, this.2, hmoves.envOk hok⟩
  by_cases hbegin : i = .opBegin ∨ ∃ cs, i = .opBeginCs cs
  · obtain ⟨hc, hlineUp⟩ := lineUp_of_begin hi hbegin h
    exact ⟨fun _ => hlineUp, fun hc' => absurd (hc.symm.trans hc') Bool.true_eq_false.mp⟩
  · have hsame := hmoves.configured hbegin
    refine ⟨fun hc => moves_lineUp hmoves hbegin (hup (hsame ▸ hc)), fun hc => ?_⟩
    have hdown := hdown (hsame ▸ hc)
    obtain ⟨-, hallowed, -⟩ := exec_eq_next h
    rw [← hsame, hc] at hallowed
    have hallowed := hallowed.resolve_right Bool.false_ne_true
    cases i
    case opErrorCode | opClearError => cases h; exact hdown
    case opBegin => exact absurd (.inl rfl) hbegin
    case opBeginCs => exact absurd (.inr ⟨_, rfl⟩) hbegin
    all_goals cases hallowed

/-- Settles O11: the invariant is kept by every instruction and does not see the caller's side. -/
theorem stepKeepsInvariant : Obligations.StepKeepsInvariant := fun _ _ hs h =>
  step_keeps (P := Inv) (fun _ _ _ hs h => exec_keeps_inv hs h) (fun _ h => h) (fun _ h => h) hs h

/-- Settles O12: every exchange is the legal bracket of a frame the decoder knows, every other event stands outside. -/
theorem stepKeepsTraceLegal : Obligations.StepKeepsTraceLegal := fun _ _ _ hs h =>
  step_keeps (P := LegalTrace) (fun _ _ _ hs h => moves_legalTrace (exec_moves h) hs) (fun _ h => h) (fun _ h => h) hs h

/-- Settles O13: a clock read answers at least the last answer, and nothing else adds a sample. -/
theorem stepKeepsClockOrdered : Obligations.StepKeepsClockOrdered := fun _ _ hs h =>
  step_keeps (P := ClockOrdered) (fun _ _ _ hs h => moves_clockOrdered (exec_moves h) hs) (fun _ h => h) (fun _ h => h)
    hs h

end Sys2Proof.Proofs
end

section
/-! The chip (R42, R43, R53 to R62): what each frame can make of the responder, said once, and what that leaves of the array,
the busy count and the reset arm after any instruction. -/

namespace Sys2Proof.Proofs

open Sys2Proof.Machine Sys2Proof.Laws

/-! ### What one frame can do -/

/-- What the frame `j` can make of the array of `c`: only program frames program, and only erase frames erase. -/
def ArrayEffect (j : Instr) (c : Chip) (m : Memory) : Prop :=
  m = c.mem ∨ (j.programs = true ∧ ∃ addr payload, m = c.mem.program addr 0 payload) ∨
    (j.erases = true ∧ ((∃ addr size, m = c.mem.erase addr size) ∨ m = []))

/-- What the frame `j` can make of the responder `c`: nothing is known only after a mutating frame, or a reset frame while
busy; only a reset frame leaves the arm set; only a mutating frame makes a ready chip busy. -/
def FrameEffect (j : Instr) (c : Chip) (e : Environment) : Prop :=
  (e = .anyChip ∧ (j.programs = true ∨ j.erases = true ∨ (j.resetsChip = true ∧ c.nBusy.isBusy = true))) ∨
    ∃ m n w p a, e = .responder { c with mem := m, nBusy := n, wel := w, pd := p, armed := a } ∧
      (a = true → j.resetsChip = true) ∧
      (c.nBusy = .reads 0 → n = .reads 0 ∨ j.programs = true ∨ j.erases = true) ∧ ArrayEffect j c m

section Effect

variable {c : Chip} {j : Instr}

/-- A frame that leaves the array and the busy count. -/
theorem effect_flags (w p a : Bool) (ha : a = true → j.resetsChip = true) :
    FrameEffect j c (.responder { c with wel := w, pd := p, armed := a }) :=
  .inr ⟨c.mem, c.nBusy, w, p, a, rfl, ha, .inl, .inl rfl⟩

/-- An accepted mutating frame. -/
theorem effect_beginBusy (kind : MutationKind) {m : Memory} (hj : j.programs = true ∨ j.erases = true)
    (hm : ArrayEffect j c m) : FrameEffect j c (.responder ({ c with armed := false, mem := m }.beginBusy kind)) :=
  .inr ⟨m, _, _, _, false, rfl, nofun, fun _ => .inr hj, hm⟩

theorem effect_pageProgram (rest : List Byte) (hj : j.programs = true) :
    FrameEffect j c ({ c with armed := false }.pageProgram rest) := by
  unfold Chip.pageProgram
  split
  · simp only
    split
    · exact effect_flags c.wel c.pd false nofun
    · split
      · exact effect_beginBusy .program (.inl hj) (.inr (.inl ⟨hj, _, _, rfl⟩))
      · exact .inl ⟨rfl, .inl hj⟩
  · exact .inl ⟨rfl, .inl hj⟩

theorem effect_unitErase (kind : MutationKind) (size : Nat) (rest : List Byte) (hj : j.erases = true) :
    FrameEffect j c ({ c with armed := false }.unitErase kind size rest) := by
  unfold Chip.unitErase
  split
  · simp only
    split
    · exact effect_flags c.wel c.pd false nofun
    · split
      · exact effect_beginBusy kind (.inr hj) (.inr (.inr ⟨hj, .inl ⟨_, _, rfl⟩⟩))
      · exact .inl ⟨rfl, .inr (.inl hj)⟩
  · exact .inl ⟨rfl, .inr (.inl hj)⟩

theorem effect_chipErase (hj : j.erases = true) : FrameEffect j c ({ c with armed := false }.chipErase) := by
  unfold Chip.chipErase
  split
  · exact effect_flags c.wel c.pd false nofun
  · exact effect_beginBusy .chip (.inr hj) (.inr (.inr ⟨hj, .inr rfl⟩))

theorem effect_afterStatusRead : FrameEffect j c (.responder ({ c with armed := false }.afterStatusRead)) := by
  unfold Chip.afterStatusRead
  split
  · next n hbusy =>
    refine .inr ⟨c.mem, .reads n, if n = 0 then false else c.wel, c.pd, false, rfl, nofun, fun h => ?_, .inl rfl⟩
    cases hbusy.symm.trans h
  · exact effect_flags c.wel c.pd false nofun
  · exact effect_flags c.wel c.pd false nofun

theorem effect_resetFrame (hj : j.resetsChip = true) : FrameEffect j c (.responder c.resetFrame) := by
  unfold Chip.resetFrame
  split
  · exact .inr ⟨c.mem, _, _, c.pd, false, rfl, nofun, fun _ => .inl rfl, .inl rfl⟩
  · exact effect_flags c.wel c.pd c.armed fun _ => hj

/-- What an accepted frame can do, by its opcode. -/
theorem accept_effect (hf : j.isFrame = true) :
    ∃ rest, encode j = headOp j :: rest ∧ FrameEffect j c ((c.disarm (headOp j)).accept (headOp j) rest) := by
  cases j
  case frameReadStatus1 => exact ⟨_, rfl, effect_afterStatusRead⟩
  case frameReadStatus2 | frameReadBytes | frameMfrDeviceId | frameJedecId | frameReadUniqueId | frameReadSfdp =>
    exact ⟨_, rfl, effect_flags c.wel c.pd false nofun⟩
  case frameWriteEnable => exact ⟨_, rfl, effect_flags true c.pd false nofun⟩
  case frameWriteDisable => exact ⟨_, rfl, effect_flags false c.pd false nofun⟩
  case framePageProgram addr payload => exact ⟨_, rfl, effect_pageProgram (addressBytes addr ++ payload) rfl⟩
  case frameChipErase => exact ⟨_, rfl, effect_chipErase rfl⟩
  case frameSectorErase4KB addr => exact ⟨_, rfl, effect_unitErase .sector sectorBytes (addressBytes addr) rfl⟩
  case frameBlockErase32KB addr => exact ⟨_, rfl, effect_unitErase .block32 block32Bytes (addressBytes addr) rfl⟩
  case frameBlockErase64KB addr => exact ⟨_, rfl, effect_unitErase .block64 block64Bytes (addressBytes addr) rfl⟩
  case framePowerDown => exact ⟨_, rfl, effect_flags c.wel true false nofun⟩
  case frameReleasePowerDown | frameReleasePowerDownId => exact ⟨_, rfl, effect_flags c.wel false false nofun⟩
  case frameEnableReset => exact ⟨_, rfl, effect_flags c.wel c.pd true fun _ => rfl⟩
  case frameReset => exact ⟨_, rfl, effect_resetFrame rfl⟩
  all_goals cases hf

/-- The opcodes of R54's exception are those of the reset frames. -/
theorem resetsChip_of_headOp (hf : j.isFrame = true) (h : headOp j = 0x66 ∨ headOp j = 0x99) :
    j.resetsChip = true := by
  have hops : (j.isFrame && (headOp j == 0x66 || headOp j == 0x99)) = (j.isFrame && j.resetsChip) := by cases j <;> rfl
  rwa [hf, Bool.true_and, Bool.true_and, Bool.or_eq_true_iff.2 (h.imp beq_iff_eq.2 beq_iff_eq.2), eq_comm] at hops

/-- Everything the end of a frame can do to the responder, by the frame (R54 to R62). -/
theorem endFrame_effect (hf : j.isFrame = true) : FrameEffect j c ((Environment.responder c).endFrame (encode j)) := by
  obtain ⟨rest, hbytes, haccept⟩ := accept_effect (c := c) hf
  rw [hbytes, Environment.endFrame, Chip.endFrame]
  split
  · next hreset => exact .inl ⟨rfl, .inr (.inr ⟨resetsChip_of_headOp hf hreset.1, hreset.2⟩)⟩
  · split
    · unfold Chip.disarm
      split
      · next hreset => exact effect_flags c.wel c.pd c.armed fun _ => resetsChip_of_headOp hf hreset
      · exact effect_flags c.wel c.pd false nofun
    · exact haccept

end Effect

/-! ### What moves do to the chip -/

section Moved

variable {frames : List Instr} {writes : Write → Prop} {s t : State}

/-- Only frames reach the chip: what every frame of the moves keeps, the moves keep. -/
theorem moves_env {P : Environment → Prop} (h : Moves frames writes s t)
    (hframe : ∀ j ∈ frames, j.isFrame = true → ∀ e, P e → P (e.endFrame (encode j))) (hs : P s.env) : P t.env := by
  induction h with
  | refl => exact hs
  | frame j _ hmem hf _ he ih =>
    obtain ⟨_, _, d, n, rfl⟩ := exchange_eq_next he
    exact hframe j hmem hf _ ih
  | now _ ih | delay _ _ ih | timeout _ _ ih | clear _ _ ih | ids _ _ _ _ ih | configure _ _ ih | rebind _ _ _ ih
    | result _ _ ih => exact ih

/-- A chip of which nothing is known stays so. -/
theorem moves_anyChip (h : Moves frames writes s t) (hs : s.env = .anyChip) : t.env = .anyChip :=
  moves_env (P := (· = .anyChip)) h (fun _ _ _ _ he => by rw [he]; rfl) hs

/-- `e` is the responder `c` but for its flags and its busy count, which is 0 if it was. -/
def SameButFlags (c : Chip) (e : Environment) : Prop :=
  ∃ n w p a, e = .responder { c with nBusy := n, wel := w, pd := p, armed := a } ∧ (c.nBusy = .reads 0 → n = .reads 0)

/-- Frames that neither program nor erase, and reset only a chip that is not busy, change nothing but flags. -/
theorem moves_sameButFlags {c : Chip} (h : Moves frames writes s t) (hs : s.env = .responder c)
    (hframes : ∀ j ∈ frames, j.programs = false ∧ j.erases = false ∧ (j.resetsChip = true → c.nBusy = .reads 0)) :
    SameButFlags c t.env := by
  refine moves_env h (fun j hmem hf e he => ?_) ⟨c.nBusy, c.wel, c.pd, c.armed, hs, id⟩
  obtain ⟨hprograms, herases, hresets⟩ := hframes j hmem
  obtain ⟨n, w, p, a, rfl, hn⟩ := he
  obtain ⟨-, hany⟩ | ⟨m, n', w', p', a', heq, -, hn', hm⟩ :=
    endFrame_effect (c := { c with nBusy := n, wel := w, pd := p, armed := a }) hf
  · simp only [hprograms, herases, Bool.false_eq_true, false_or] at hany
    obtain ⟨hreset, hbusy⟩ := hany
    have hready := hn (hresets hreset)
    subst hready
    cases hbusy
  · simp only [ArrayEffect, hprograms, herases, Bool.false_eq_true, false_and, or_false] at hm hn'
    subst hm
    exact ⟨n', w', p', a', heq, fun hc => hn' (hn hc)⟩

/-- What each frame of the moves can do to an array, the moves can do, unless nothing is known of the chip any more. -/
theorem moves_array {R : Memory → Memory → Prop} {c : Chip} (h : Moves frames writes s t)
    (hs : s.env = .responder c) (hrefl : ∀ m, R m m) (htrans : ∀ m1 m2 m3, R m1 m2 → R m2 m3 → R m1 m3)
    (hframes : ∀ j ∈ frames, ∀ c m, ArrayEffect j c m → R c.mem m) :
    t.env = .anyChip ∨ ∃ c', t.env = .responder c' ∧ c'.flashBytes = c.flashBytes ∧ R c.mem c'.mem := by
  refine moves_env (P := fun e => e = .anyChip ∨ ∃ c', e = .responder c' ∧ c'.flashBytes = c.flashBytes ∧
    R c.mem c'.mem) h (fun j hmem hf e he => ?_) (.inr ⟨c, hs, rfl, hrefl _⟩)
  obtain rfl | ⟨c', rfl, hbytes, hR⟩ := he
  · exact .inl rfl
  · obtain ⟨heq, -⟩ | ⟨m, n, w, p, a, heq, -, -, hm⟩ := endFrame_effect hf
    · exact .inl heq
    · exact .inr ⟨_, heq, hbytes, htrans _ _ _ hR (hframes j hmem c' m hm)⟩

end Moved

/-! ### The array -/

theorem arrayByte_anyChip {s : State} (h : s.env = .anyChip) (a : Nat) : s.arrayByte a = none := by
  simp only [State.arrayByte, h]

theorem arrayByte_responder {s : State} {c : Chip} (h : s.env = .responder c) (a : Nat) :
    s.arrayByte a = if a < c.flashBytes then some (c.mem.read a) else none := by
  simp only [State.arrayByte, h]

/-- A chip that has the byte `x` at an address is the responder and holds it there. -/
theorem responder_of_arrayByte {s : State} {a : Nat} {x : Byte} (h : s.arrayByte a = some x) :
    ∃ c, s.env = .responder c ∧ c.mem.read a = x := by
  cases he : s.env with
  | anyChip => rw [arrayByte_anyChip he] at h; cases h
  | responder c =>
    rw [arrayByte_responder he] at h
    split at h
    · exact ⟨c, rfl, Option.some.inj h⟩
    · cases h

/-- Flags do not show in the array. -/
theorem sameArray_of_sameButFlags {s t : State} {c : Chip} (hs : s.env = .responder c) (ht : SameButFlags c t.env) :
    SameArray s t := by
  obtain ⟨n, w, p, a, ht, -⟩ := ht
  intro addr
  rw [arrayByte_responder hs, arrayByte_responder ht]

/-- A frame programs, erases or resets only if the instruction that emits it does. -/
theorem class_of_emits (i : Instr) : (i.emits.all fun j => (!j.programs || i.programs) && (!j.erases || i.erases) &&
    (!j.resetsChip || i.resetsChip)) = true := by
  cases i <;> rfl

theorem class_of_mem_emits {i j : Instr} (h : j ∈ i.emits) : (j.programs = true → i.programs = true) ∧
    (j.erases = true → i.erases = true) ∧ (j.resetsChip = true → i.resetsChip = true) := by
  have hj := List.all_eq_true.1 (class_of_emits i) j h
  simp only [Bool.and_eq_true, Bool.or_eq_true, Bool.not_eq_true'] at hj
  obtain ⟨⟨hp, he⟩, hr⟩ := hj
  exact ⟨fun h => hp.resolve_left (by simp [h]), fun h => he.resolve_left (by simp [h]),
    fun h => hr.resolve_left (by simp [h])⟩

/-- Settles O23: such an instruction sends only frames that leave the array alone. -/
theorem arrayUntouchedByOtherInstructions : Obligations.ArrayUntouchedByOtherInstructions := by
  intro i s t hprograms herases hresets h
  cases hs : s.env with
  | anyChip =>
    intro a
    rw [arrayByte_anyChip hs, arrayByte_anyChip (moves_anyChip (exec_moves h) hs)]
  | responder c =>
    refine sameArray_of_sameButFlags hs (moves_sameButFlags (exec_moves h) hs fun j hj => ?_)
    obtain ⟨hp, he, hr⟩ := class_of_mem_emits hj
    exact ⟨Bool.eq_false_iff.2 fun h => Bool.false_ne_true (hprograms.symm.trans (hp h)),
      Bool.eq_false_iff.2 fun h => Bool.false_ne_true (herases.symm.trans (he h)), fun h => hresets (hr h) c hs⟩

/-- An instruction that programs does not erase. -/
theorem erases_of_programs {i : Instr} (h : i.programs = true) : i.erases = false := by
  cases i
  case framePageProgram | opWritePage => rfl
  all_goals cases h

/-- Settles O24: a program frame clears bits, and the others of these instructions leave the array. -/
theorem programOnlyClearsBits : Obligations.ProgramOnlyClearsBits := by
  intro i s t a x y hi h hx hy
  obtain ⟨c, hs, rfl⟩ := responder_of_arrayByte hx
  obtain ⟨c', ht, rfl⟩ := responder_of_arrayByte hy
  have hmoved := moves_array (R := fun m m' => m'.read a &&& m.read a = m'.read a) (exec_moves h) hs
    (fun m => BitVec.and_self) (fun m1 m2 m3 h12 h23 => by rw [← h23, BitVec.and_assoc, h12]) fun j hj c m hm => ?_
  · obtain hany | ⟨c'', hc'', -, hbits⟩ := hmoved
    · cases ht.symm.trans hany
    · cases ht.symm.trans hc''; exact hbits
  · obtain rfl | ⟨-, addr, payload, rfl⟩ | ⟨herases, -⟩ := hm
    · exact BitVec.and_self
    · exact read_program_and addr payload c.mem 0 a
    · exact absurd ((class_of_mem_emits hj).2.1 herases) (by simp [erases_of_programs hi])

/-- Settles O25: an erase frame leaves 0xFF or the byte as it was, and the others of these instructions leave the array. -/
theorem eraseOnlyGivesOnes : Obligations.EraseOnlyGivesOnes := by
  intro i s t a x y hi h hx hy
  obtain ⟨c, hs, rfl⟩ := responder_of_arrayByte hx
  obtain ⟨c', ht, rfl⟩ := responder_of_arrayByte hy
  have hmoved := moves_array (R := fun m m' => m'.read a = m.read a ∨ m'.read a = 0xFF) (exec_moves h) hs
    (fun m => .inl rfl) (fun m1 m2 m3 h12 h23 => h23.elim (fun h => by rwa [h]) .inr) fun j hj c m hm => ?_
  · obtain hany | ⟨c'', hc'', -, hbits⟩ := hmoved
    · cases ht.symm.trans hany
    · cases ht.symm.trans hc''; exact hbits
  · obtain rfl | ⟨hprograms, -⟩ | ⟨-, ⟨addr, size, rfl⟩ | rfl⟩ := hm
    · exact .inl rfl
    · have := erases_of_programs ((class_of_mem_emits hj).1 hprograms)
      rw [hi] at this; cases this
    · rw [read_erase]
      split
      · exact .inr rfl
      · exact .inl rfl
    · exact .inr rfl

/-! ### One frame on a known chip -/

/-- A body that sends one frame and leaves the chip alone afterwards has shown the chip that frame. -/
theorem env_of_oneFrame {j : Instr} {finish : State → List Byte → State × Result} {s u : State} {r : Result}
    (h : oneFrame j finish s = .next (u, r)) (hfinish : ∀ v ins, (finish v ins).1.env = v.env) :
    u.env = s.env.endFrame (encode j) := by
  obtain ⟨v, ins, hsend, hfin⟩ := andThen_eq_next h
  obtain ⟨-, -, d, n, rfl⟩ := exchange_eq_next hsend
  have hu : (finish (afterExchange s (encode j) ins d n) ins).1 = u := by
    rw [Host.Outcome.next.inj hfin]
  rw [← hu, hfinish]; rfl

/-- `i` is one frame with the bytes of `j`, and leaves the chip alone afterwards. -/
def OneFrameOf (i j : Instr) : Prop :=
  ∃ finish, body i = oneFrame j finish ∧ ∀ v ins, (finish v ins).1.env = v.env

theorem oneFrameOf_replying {i j : Instr} {res : List Byte → Result} (h : body i = replying j res) : OneFrameOf i j :=
  ⟨fun u ins => (u, res ins), h, fun _ _ => rfl⟩

/-- A frame on its own is that one frame. -/
theorem oneFrameOf_isFrame {i : Instr} (hf : i.isFrame = true) : OneFrameOf i i := by
  cases i
  case frameMfrDeviceId =>
    exact ⟨fun u ins => (u.setIds (answerAt ins 5) (answerAt ins 6), .unit), rfl, fun _ _ => rfl⟩
  case frameReadStatus1 | frameReadStatus2 | frameWriteEnable | frameWriteDisable | frameReadBytes | framePageProgram
    | frameChipErase | frameSectorErase4KB | frameBlockErase32KB | frameBlockErase64KB | frameJedecId
    | frameReadUniqueId | frameReadSfdp | framePowerDown | frameReleasePowerDown | frameReleasePowerDownId
    | frameEnableReset | frameReset => exact oneFrameOf_replying rfl
  all_goals cases hf

/-- An instruction that is one frame shows the chip that frame. -/
theorem env_of_exec {i j : Instr} {s t : State} (hi : OneFrameOf i j) (h : exec i s = .next t) :
    t.env = s.env.endFrame (encode j) := by
  obtain ⟨-, -, u, r, hbody, rfl⟩ := exec_eq_next h
  obtain ⟨finish, heq, hfinish⟩ := hi
  rw [setResult_env]
  exact env_of_oneFrame (heq ▸ hbody) hfinish

/-- The status byte of R55: bit 1 the latch, bit 0 BUSY. -/
theorem statusByte_busy (wel : Bool) : statusByte wel true = if wel then 0x03 else 0x01 := by
  cases wel <;> rfl

theorem statusByte_ready (wel : Bool) : statusByte wel false = if wel then 0x02 else 0x00 := by
  cases wel <;> rfl

/-- After `begin`, on an awake chip, `status_register_1` returns the responder's status byte (R55, R82). -/
theorem exec_opStatusRegister1_awake {s : State} {c : Chip} (hu : Usable s) (hs : s.env = .responder c)
    (hp : c.pd = false) : ∃ t, exec .opStatusRegister1 s = .next t ∧
      t.result = some (.byte (statusByte c.wel c.nBusy.isBusy)) ∧
      t.env = .responder ({ c with armed := false }.afterStatusRead) := by
  obtain ⟨t, ins, hrun, hresult, henv, -, hanswers⟩ := exec_replying_result .frameReadStatus1 (i := .opStatusRegister1) hu
    rfl rfl
  refine ⟨t, hrun, ?_, ?_⟩
  · rw [hresult, answerAt_of_getElem? (hanswers 1 _ (by decide) (by rw [hs]; exact answer_status hp))]
  · rw [henv, hs]; exact endFrame_status hp

/-- Settles O57: one status read of a busy chip. -/
theorem statusReadCountsDown : Obligations.StatusReadCountsDown := by
  intro s c n hu hs hp hbusy
  obtain ⟨t, hrun, hresult, henv⟩ := exec_opStatusRegister1_awake hu hs hp
  rw [hbusy] at hresult
  refine ⟨t, hrun, by rw [hresult, ← statusByte_busy]; rfl, ?_⟩
  rw [henv, Chip.afterStatusRead]
  simp only [hbusy]

/-- A powered-down chip that is not busy ignores a frame that is no release, but for its arm (R54). -/
theorem endFrame_poweredDown {c : Chip} (hp : c.pd = true) (hb : c.nBusy = .reads 0) {op : Byte} (hop : op ≠ 0xAB)
    (rest : List Byte) : ∃ armed, (Environment.responder c).endFrame (op :: rest) = .responder { c with armed := armed } := by
  have hignores : c.ignores op = true := by
    simp only [Chip.ignores, hp, bne_iff_ne.2 hop, Bool.and_self, Bool.true_or]
  rw [Environment.endFrame, endFrame_cons _ _ _ (.inl hb), if_pos hignores, Chip.disarm]
  split
  · exact ⟨c.armed, rfl⟩
  · exact ⟨false, rfl⟩

/-- A release wakes a chip that is not busy, powered down or not (R61). -/
theorem endFrame_release {c : Chip} (hb : c.nBusy = .reads 0) (rest : List Byte) :
    (Environment.responder c).endFrame (0xAB :: rest) = .responder { c with pd := false, armed := false } := by
  have hignores : c.ignores 0xAB = false := by simp [Chip.ignores, hb]
  rw [Environment.endFrame, endFrame_cons _ _ _ (.inl hb), hignores, if_neg Bool.false_ne_true]
  rfl

/-- Only the release instructions emit a frame with opcode 0xAB. -/
theorem headOp_of_emits {i : Instr}
    (hi : i ∉ [.frameReleasePowerDown, .frameReleasePowerDownId, .opReleasePowerDown, .opReleasePowerDownId]) :
    ∀ j ∈ i.emits, headOp j ≠ 0xAB := by
  suffices h : (i.emits.all fun j => headOp j != 0xAB) = true from fun j hj =>
    bne_iff_ne.1 (List.all_eq_true.1 h j hj)
  cases i
  case frameReleasePowerDown | frameReleasePowerDownId | opReleasePowerDown | opReleasePowerDownId =>
    exact absurd hi (by decide)
  all_goals rfl

/-- Each release instruction is one frame 0xAB. -/
theorem oneFrameOf_release {i : Instr}
    (hi : i ∈ [.frameReleasePowerDown, .frameReleasePowerDownId, .opReleasePowerDown, .opReleasePowerDownId]) :
    ∃ j rest, OneFrameOf i j ∧ encode j = 0xAB :: rest := by
  simp only [List.mem_cons, List.not_mem_nil, or_false] at hi
  obtain rfl | rfl | rfl | rfl := hi
  · exact ⟨.frameReleasePowerDown, _, oneFrameOf_isFrame rfl, rfl⟩
  · exact ⟨.frameReleasePowerDownId, _, oneFrameOf_isFrame rfl, rfl⟩
  · exact ⟨.frameReleasePowerDown, _, ⟨fun u _ => (delayUs tReleaseUs u, .unit), rfl, fun _ _ => rfl⟩, rfl⟩
  · exact ⟨.frameReleasePowerDownId, _,
      ⟨fun u ins => (delayUs tReleaseUs u, .byte (answerAt ins 5)), rfl, fun _ _ => rfl⟩, rfl⟩

/-- Settles O58: every frame but 0xAB is ignored, and a release is one frame 0xAB. -/
theorem poweredDownChipIgnoresFrames : Obligations.PoweredDownChipIgnoresFrames := by
  intro i s t c hs hp hb h
  refine ⟨fun hi => ?_, fun hi => ?_⟩
  · refine moves_env (P := fun e => ∃ armed, e = .responder { c with armed := armed }) (exec_moves h)
      (fun j hj hf e he => ?_) ⟨c.armed, hs⟩
    obtain ⟨armed, rfl⟩ := he
    obtain ⟨rest, hbytes⟩ := encode_eq_cons hf
    rw [hbytes]
    exact endFrame_poweredDown (c := { c with armed := armed }) hp hb (headOp_of_emits hi j hj) rest
  · obtain ⟨j, rest, hone, hbytes⟩ := oneFrameOf_release hi
    exact ⟨false, by rw [env_of_exec hone h, hbytes, hs, endFrame_release hb]⟩

/-- On an awake chip that is not busy the reset pair clears latch and arm (R62). -/
theorem endFrame_resetPair {c : Chip} (hp : c.pd = false) (hb : c.nBusy = .reads 0) :
    ((Environment.responder c).endFrame [0x66]).endFrame [0x99] = .responder { c with wel := false, armed := false } := by
  rw [endFrame_awake hp hb]
  change (Environment.responder { c with armed := true }).endFrame [0x99] = _
  rw [endFrame_awake (by exact hp) (by exact hb)]
  change Environment.responder { c with wel := false, armed := false, nBusy := .reads 0 } = _
  rw [← hb]

/-- Settles O59: the pair, the second frame alone, and any other frame. -/
theorem resetPairResetsTheChip : Obligations.ResetPairResetsTheChip := by
  rintro s c hu ⟨hs, hp, hb⟩
  refine ⟨?_, fun harmed => ?_, fun i t c' hf hresets h ht => ?_⟩
  · obtain ⟨i1, d1, n1, i2, d2, n2, hrun⟩ := exec_opReset_spec hu
    refine ⟨_, hrun, ?_⟩
    rw [← endFrame_resetPair hp hb, ← hs]; rfl
  · obtain ⟨t, -, hrun, -, -, -, henv, -⟩ := (oneByteFrames s hu).2.2.2.2.2.2
    refine ⟨t, hrun, ?_⟩
    rw [henv, hs, endFrame_awake hp hb]
    change Environment.responder c.resetFrame = _
    rw [Chip.resetFrame, harmed, if_neg Bool.false_ne_true]
  · rw [env_of_exec (oneFrameOf_isFrame hf) h, hs] at ht
    obtain ⟨heq, -⟩ | ⟨m, n, w, p, a, heq, ha, -⟩ := endFrame_effect (c := c) hf
    · cases ht.symm.trans heq
    · cases ht.symm.trans heq
      exact Bool.eq_false_iff.2 fun h => Bool.false_ne_true (hresets.symm.trans (ha h))

end Sys2Proof.Proofs
end

section
/-! The wait (R56, R85, R86): what a poll loop does to the responder, and `ready_wait` from there; the busy-poll state machine
follows the loop poll by poll. -/

namespace Sys2Proof.Proofs

open Sys2Proof.Machine Sys2Proof.Laws

/-! ### The chip under a wait -/

theorem statusReady_statusByte (wel busy : Bool) : statusReady (statusByte wel busy) = !busy := by
  cases wel <;> cases busy <;> rfl

/-- A status read leaves the responder but for its busy count, latch and arm; one that finds it ready or never ready leaves
the count too (R55). -/
theorem afterStatusRead_eq (c : Chip) : ∃ n w, ({ c with armed := false } : Chip).afterStatusRead =
    { c with nBusy := n, wel := w, armed := false } ∧
    (c.nBusy.isBusy = false → n = .reads 0) ∧ (c.nBusy = .never → n = .never) := by
  unfold Chip.afterStatusRead
  split
  · next n hbusy =>
    refine ⟨.reads n, if n = 0 then false else c.wel, rfl, fun h => ?_, fun h => ?_⟩
    · rw [show c.nBusy = _ from hbusy] at h; cases h
    · cases hbusy.symm.trans h
  · next hready => exact ⟨c.nBusy, c.wel, rfl, fun _ => hready, id⟩
  · next hnever =>
    refine ⟨c.nBusy, c.wel, rfl, fun h => ?_, id⟩
    rw [show c.nBusy = _ from hnever] at h; cases h

/-- A body returns what its routine answers. -/
theorem returning_of_next {α : Type} {o : Ran α} {res : α → Result} {t : State} {a : α} (h : o = .next (t, a)) :
    returning o res = .next (t, res a) := by
  rw [returning, h, andThen_next]

section ChipUnderWait

variable {s t : State} {c : Chip} {b : Bool}

/-- A poll of an awake chip answers whether it is ready, and is one status read (R55, R84). -/
theorem ready_env (hs : s.env = .responder c) (hp : c.pd = false) (h : ready s = .next (t, b)) :
    b = !c.nBusy.isBusy ∧ t.env = .responder ({ c with armed := false }.afterStatusRead) := by
  obtain ⟨hactive, -⟩ := ready_eq_next h
  obtain ⟨f, st, d, n, hrun, hanswer⟩ := ready_spec hactive
  obtain rfl := hanswer _ (by rw [hs]; exact answer_status hp)
  cases hrun.symm.trans h
  exact ⟨statusReady_statusByte _ _, by rw [afterExchange_env, hs, endFrame_status hp]⟩

/-- `e` is the responder `c` but for its busy count, latch and arm; a chip that is never ready stays so. -/
def WaitedOn (c : Chip) (e : Environment) (ended : Bool) : Prop :=
  ∃ n w a, e = .responder { c with nBusy := n, wel := w, armed := a } ∧ (ended = true → n = .reads 0) ∧
    (c.nBusy = .never → n = .never)

/-- A poll loop on an awake chip leaves it waited on, and ready if it ended with true. -/
theorem readyLoop_env {t0 timeout : Time} : ∀ {polls : List Unit} {s : State} {c : Chip}, s.env = .responder c →
    c.pd = false → readyLoop t0 timeout polls s = .next (t, b) → WaitedOn c t.env b := by
  intro polls
  induction polls with
  | nil => intro s c _ _ h; cases h
  | cons _ polls ih =>
    intro s c hs hp h
    obtain ⟨u, isReady, hr, hk⟩ := andThen_eq_next h
    obtain ⟨rfl, hu⟩ := ready_env hs hp hr
    obtain ⟨n, w, heq, hready, hnever⟩ := afterStatusRead_eq c
    rw [heq] at hu
    split at hk
    · next hb =>
      cases hk
      exact ⟨n, w, false, hu, fun _ => hready (by simpa using hb), hnever⟩
    · split at hk
      · cases hk
        exact ⟨n, w, false, hu, nofun, hnever⟩
      · obtain ⟨n', w', a', ht, hended, hnever'⟩ := 
          ih (s := u.now.1) (c := { c with nBusy := n, wel := w, armed := false }) hu hp hk
        exact ⟨n', w', a', ht, hended, fun h => hnever' (hnever h)⟩

theorem readyWait_env {timeout : Time} (hs : s.env = .responder c) (hp : c.pd = false)
    (h : readyWait timeout s = .next (t, b)) : WaitedOn c t.env b := readyLoop_env (s := s.now.1) hs hp h

/-- A wait on an awake chip that is never ready runs late. -/
theorem readyWait_never {timeout : Time} (hs : s.env = .responder c) (hp : c.pd = false) (hb : c.nBusy = .never)
    (h : readyWait timeout s = .next (t, b)) : b = false := by
  obtain ⟨n, w, a, -, hended, hnever⟩ := readyWait_env hs hp h
  rw [hnever hb] at hended
  cases b with
  | false => rfl
  | true => cases hended rfl

/-- A wait on an awake chip that is not busy returns true at its first poll (R85). -/
theorem readyWait_awake {timeout : Time} (hi : Idle s) (hc : ChipAwake s c) : ∃ f st d n,
    readyWait timeout s = .next (afterExchange s.now.1 [0x05, 0x00] [f, st] d n, true) := by
  obtain ⟨hs, hp, hb⟩ := hc
  obtain ⟨f, d, n, hrun⟩ := readyWait_ready (timeout := timeout) hi (by rw [hs]; exact answer_status hp)
    (by rw [hb]; exact statusReady_statusByte _ _)
  exact ⟨f, _, d, n, hrun⟩

/-- After `begin` the operation `ready_wait` stores what `readyWait` answers. -/
theorem exec_opReadyWait_of_next {operand : Option Time} (hc : s.configured = true)
    (h : readyWait (operand.getD 100) s = .next (t, b)) :
    exec (.opReadyWait operand) s = .next (t.setResult (.bool b)) :=
  exec_of_body rfl hc (returning_of_next h)

end ChipUnderWait

/-! ### `ready_wait` -/

/-- Settles O43: with a live clock the wait returns, and its events are those of the poll loop. -/
theorem readyWaitPollsUntilReadyOrLate : Obligations.ReadyWaitPollsUntilReadyOrLate := by
  rintro s operand ⟨hi, hc⟩ hlive
  obtain ⟨t, b, hrun⟩ := readyWait_returns (timeout := operand.getD 100) hi hlive
  obtain ⟨hwait, t0, polls, hbusy, hend⟩ := readyWait_events hi hrun
  obtain ⟨hline, hcontrol, hcaller, -⟩ := hwait.same
  refine ⟨_, t0, polls, exec_opReadyWait_of_next hc hrun, hline, hcontrol, hcaller, hbusy, ?_⟩
  obtain ⟨rfl, herr, hin, f, st, hst, htrace⟩ | ⟨rfl, herr, ⟨init, last, hlate⟩, htrace⟩ := hend
  · exact .inl ⟨rfl, herr, hin, f, st, hst, htrace⟩
  · exact .inr ⟨rfl, herr, htrace, init, last, hlate⟩

/-- Settles O44: the first poll of an awake chip ends the wait. -/
theorem readyChipEndsTheWaitAtOnce : Obligations.ReadyChipEndsTheWaitAtOnce := by
  rintro s c operand ⟨hi, hc⟩ hawake
  obtain ⟨f, st, d, n, hrun⟩ := readyWait_awake (timeout := operand.getD 100) hi hawake
  have hexec := exec_opReadyWait_of_next hc hrun
  obtain ⟨hline, hcontrol, hcaller, -⟩ :=
    ((waitOnly_now s).trans (waitOnly_afterExchange (s := s.now.1) hi [0x05, 0x00] [f, st] d n)).same
  exact ⟨_, s.now.2, f, st, hexec, rfl, ⟨hline, rfl⟩, hcontrol, hcaller, List.append_assoc s.trace [_] _,
    arrayUntouchedByOtherInstructions (.opReadyWait operand) s _ rfl rfl nofun hexec⟩

/-- Settles O45: with a live clock the wait returns, and no poll of it finds the chip ready. -/
theorem neverReadyChipTimesOut : Obligations.NeverReadyChipTimesOut := by
  rintro s c operand ⟨hi, hc⟩ hlive hs hp hb
  obtain ⟨t, b, hrun⟩ := readyWait_returns (timeout := operand.getD 100) hi hlive
  obtain rfl := readyWait_never hs hp hb hrun
  have hexec := exec_opReadyWait_of_next hc hrun
  exact ⟨_, hexec, rfl, ((readyWait_err hrun).resolve_left nofun).2,
    arrayUntouchedByOtherInstructions (.opReadyWait operand) s _ rfl rfl nofun hexec⟩

/-! ### The busy-poll state machine -/

/-- A run of `m` transitions, then one of `n`. -/
theorem pollRun_append {m n : Nat} : ∀ {r r' : PollRegs} {s s' : State}, pollRun m r s = .next (s', r') →
    pollRun (m + n) r s = pollRun n r' s' := by
  induction m with
  | zero => intro r r' s s' h; cases h; rw [Nat.zero_add]
  | succ m ih =>
    intro r r' s s' h
    obtain ⟨u, q, hstep, hrest⟩ := andThen_eq_next h
    rw [Nat.add_right_comm, pollRun, hstep, andThen_next]
    exact ih hrest

/-- From `P_POLL` the state machine follows the poll loop to its end. -/
theorem pollRun_of_readyLoop {t0 timeout : Time} : ∀ {polls : List Unit} {s t : State} {b : Bool},
    readyLoop t0 timeout polls s = .next (t, b) → ∀ status, ∃ n r,
      pollRun n ⟨.pPoll, timeout, t0, status, none⟩ s = .next (t, r) ∧ r.phase = .pIdle ∧ r.returned = some b := by
  intro polls
  induction polls with
  | nil => intro s t b h; cases h
  | cons _ polls ih =>
    intro s t b h status
    obtain ⟨u, isReady, hr, hk⟩ := andThen_eq_next h
    obtain ⟨u, st, hx, hr⟩ := andThen_eq_next hr
    cases hr
    have hpoll : pollStep ⟨.pPoll, timeout, t0, status, none⟩ s = .next (u, ⟨.pDecode, timeout, t0, st, none⟩) := by
      rw [pollStep, hx, andThen_next]
    split at hk
    · next hst =>
      cases hk
      refine ⟨3, ⟨.pIdle, timeout, t0, st, some true⟩, ?_, rfl, rfl⟩
      rw [pollRun, hpoll, andThen_next]
      simp only [pollRun, pollStep, andThen_next, hst, if_true]
    · next hst =>
      have hdecode : pollRun 2 ⟨.pPoll, timeout, t0, status, none⟩ s = .next (u, ⟨.pTime, timeout, t0, st, none⟩) := by
        rw [pollRun, hpoll, andThen_next]
        simp only [pollRun, pollStep, andThen_next, hst, Bool.false_eq_true, if_false]
      split at hk
      · next hlate =>
        cases hk
        refine ⟨2 + 2, ⟨.pIdle, timeout, t0, st, some false⟩, ?_, rfl, rfl⟩
        rw [pollRun_append hdecode]
        simp only [pollRun, andThen_next, pollStep, hlate, if_true]
      · next hlate =>
        obtain ⟨n, r, hrun, hend⟩ := ih hk st
        refine ⟨2 + (n + 1), r, ?_, hend⟩
        rw [pollRun_append hdecode, pollRun, pollStep]
        simpa only [andThen_next, hlate, if_false] using hrun

/-- Settles O46: the first transition is the start sample, the others follow the poll loop. -/
theorem pollMachineIsReadyWait : Obligations.PollMachineIsReadyWait := by
  intro timeout s t b _ h
  obtain ⟨n, r, hrun, hend⟩ := pollRun_of_readyLoop h 0
  exact ⟨n + 1, r, hrun, hend⟩

/-! ### The latch in the status -/

/-- After `begin`, `status_register_1` on an awake chip that is not busy shows the latch in bit 1 and BUSY clear. -/
theorem exec_opStatusRegister1_ready {s : State} {c : Chip} (hu : Usable s) (hc : ChipAwake s c) :
    ∃ t, exec .opStatusRegister1 s = .next t ∧ t.result = some (.byte (if c.wel then 0x02 else 0x00)) := by
  obtain ⟨hs, hp, hb⟩ := hc
  obtain ⟨t, hrun, hresult, -⟩ := exec_opStatusRegister1_awake hu hs hp
  refine ⟨t, hrun, ?_⟩
  rw [hresult, hb, isBusy_zero, statusByte_ready]

/-- With the control state as it was, a state can still be operated on. -/
theorem usable_of_sameControl {s t : State} (hu : Usable s) (h : SameControl s t) : Usable t := by
  obtain ⟨⟨hactive, htxn⟩, hc⟩ := hu
  obtain ⟨hactive', htxn', hc', -⟩ := h
  exact ⟨⟨hactive'.trans hactive, htxn'.trans htxn⟩, hc'.trans hc⟩

/-- A latch frame on an awake chip that is not busy sets the latch to `wel`, and the next status read shows it. -/
theorem status_after_latch {s : State} {c : Chip} {op : Byte} {wel : Bool} (hc : ChipAwake s c)
    (hop : (Environment.responder c).endFrame [op] = .responder { c with wel := wel, armed := false }) :
    (s.env.endFrame [op]).answer [0x05, 0x00] = some (statusByte wel false) ∧
      (s.env.endFrame [op]).endFrame [0x05, 0x00] = .responder { c with wel := wel, armed := false } := by
  obtain ⟨hs, hp, hb⟩ := hc
  rw [hs, hop]
  refine ⟨?_, ?_⟩
  · rw [answer_status (by exact hp)]
    simp only [hb, isBusy_zero]
  · rw [endFrame_status_ready (by exact hp) (by exact hb)]

/-- Settles O42: on an awake chip the status after a latch frame is fixed. -/
theorem latchShowsInTheStatus : Obligations.LatchShowsInTheStatus := by
  rintro s c ⟨hi, hconf⟩ hc
  have ⟨_, hp, hb⟩ := hc
  constructor
  · obtain ⟨hanswer, henv⟩ := status_after_latch (op := 0x06) (wel := true) hc (endFrame_awake hp hb _ _)
    obtain ⟨i1, d1, n1, i2, st, d2, n2, hrun, hst⟩ := enableWrite_spec hi
    obtain rfl := hst _ hanswer
    obtain ⟨-, -, -, -, -, hcontrol, -⟩ :=
      setResult_afterExchange_afterExchange hi [0x06] [i1] [0x05, 0x00] [i2, statusByte true false] d1 d2 n1 n2 (.bool true)
    obtain ⟨u, hstatus, hresult⟩ := exec_opStatusRegister1_ready (usable_of_sameControl ⟨hi, hconf⟩ hcontrol)
      ⟨henv, hp, hb⟩
    exact ⟨_, u, exec_opEnableWrite_of_next hconf hrun, rfl, hstatus, hresult⟩
  · obtain ⟨hanswer, henv⟩ := status_after_latch (op := 0x04) (wel := false) hc (endFrame_awake hp hb _ _)
    obtain ⟨i1, d1, n1, i2, st, d2, n2, hrun, hst⟩ := disableWrite_spec hi
    obtain rfl := hst _ hanswer
    obtain ⟨-, -, -, -, -, hcontrol, -⟩ :=
      setResult_afterExchange_afterExchange hi [0x04] [i1] [0x05, 0x00] [i2, statusByte false false] d1 d2 n1 n2 (.bool true)
    obtain ⟨u, hstatus, hresult⟩ := exec_opStatusRegister1_ready (usable_of_sameControl ⟨hi, hconf⟩ hcontrol)
      ⟨henv, hp, hb⟩
    exact ⟨_, u, exec_opDisableWrite_of_next hconf hrun, rfl, hstatus, hresult⟩

end Sys2Proof.Proofs
end

section
/-! Mutating operations (R39, R40, R43, R58, R59, R92, R93, R98 to R107): each is the command `mutate` on its own frame and
budget; on an awake chip the frame finds the latch set, and the settling after it leaves the array alone. -/

namespace Sys2Proof.Proofs

open Sys2Proof.Machine Sys2Proof.Laws

/-! ### The command of each operation -/

/-- The operation `i` is the mutating command of the frame `j`. -/
def Commands (i j : Instr) : Prop :=
  j.isFrame = true ∧ ∀ s, body i s = returning (mutate j i.settleBudget s) .bool

theorem commands_opWritePage (addr : Nat) (bytes : List Byte) :
    Commands (.opWritePage addr bytes) (.framePageProgram (toAddress addr) bytes) := ⟨rfl, fun _ => rfl⟩

theorem commands_opEraseChip : Commands .opEraseChip .frameChipErase := ⟨rfl, fun _ => rfl⟩

theorem commands_opEraseSector4KB (addr : Nat) :
    Commands (.opEraseSector4KB addr) (.frameSectorErase4KB (toAddress addr)) := ⟨rfl, fun _ => rfl⟩

theorem commands_opEraseBlock32KB (addr : Nat) :
    Commands (.opEraseBlock32KB addr) (.frameBlockErase32KB (toAddress addr)) := ⟨rfl, fun _ => rfl⟩

theorem commands_opEraseBlock64KB (addr : Nat) :
    Commands (.opEraseBlock64KB addr) (.frameBlockErase64KB (toAddress addr)) := ⟨rfl, fun _ => rfl⟩

theorem toNat_toAddress {addr : Nat} (h : addr < 2 ^ 24) : (toAddress addr).toNat = addr :=
  BitVec.toNat_ofNat addr 24 ▸ Nat.mod_eq_of_lt h

/-- The octets of an address in its domain (R35). -/
theorem addressBytes_toAddress {addr : Nat} (h : addr < 2 ^ 24) : addressBytes (toAddress addr) = addressOctets addr := by
  rw [addressBytes_eq, toNat_toAddress h, addressOctets]

/-- An operation with mutating bytes commands the frame with those bytes. -/
theorem commands_of_mutatingBytes {i : Instr} {bytes : List Byte} (hwf : i.wellFormed = true)
    (h : i.mutatingBytes = some bytes) : ∃ j, Commands i j ∧ encode j = bytes := by
  cases i
  case opWritePage addr payload =>
    have haddr : addr < 2 ^ 24 := of_decide_eq_true (Bool.and_eq_true_iff.1 hwf).1
    cases h
    exact ⟨_, commands_opWritePage addr payload, by rw [encode, addressBytes_toAddress haddr]; rfl⟩
  case opEraseChip => cases h; exact ⟨_, commands_opEraseChip, rfl⟩
  case opEraseSector4KB addr =>
    cases h
    exact ⟨_, commands_opEraseSector4KB addr, by rw [encode, addressBytes_toAddress (of_decide_eq_true hwf)]⟩
  case opEraseBlock32KB addr =>
    cases h
    exact ⟨_, commands_opEraseBlock32KB addr, by rw [encode, addressBytes_toAddress (of_decide_eq_true hwf)]⟩
  case opEraseBlock64KB addr =>
    cases h
    exact ⟨_, commands_opEraseBlock64KB addr, by rw [encode, addressBytes_toAddress (of_decide_eq_true hwf)]⟩
  all_goals cases h

/-- After `begin` an operation stores what its command answers. -/
theorem exec_of_mutate {i j : Instr} {s t : State} {b : Bool} (hij : Commands i j) (hwf : i.wellFormed = true)
    (hc : s.configured = true) (h : mutate j i.settleBudget s = .next (t, b)) :
    exec i s = .next (t.setResult (.bool b)) :=
  exec_of_body hwf hc (by rw [hij.2, returning_of_next h])

/-- An operation that answers a next state stored what its command answered. -/
theorem mutate_of_exec {i j : Instr} {s t : State} (hij : Commands i j) (h : exec i s = .next t) :
    ∃ u b, mutate j i.settleBudget s = .next (u, b) ∧ t = u.setResult (.bool b) := by
  obtain ⟨-, -, u, r, hbody, rfl⟩ := exec_eq_next h
  rw [hij.2] at hbody
  obtain ⟨b, hrun, rfl⟩ := returning_eq_next hbody
  exact ⟨u, b, hrun, rfl⟩

/-- Settles O47: the events of the operation are those of its command. -/
theorem mutatingOperationsFollowTheHandshake : Obligations.MutatingOperationsFollowTheHandshake := by
  rintro i bytes s t ⟨hi, -⟩ hbytes h
  obtain ⟨hwf, -⟩ := exec_eq_next h
  obtain ⟨j, hij, rfl⟩ := commands_of_mutatingBytes hwf hbytes
  obtain ⟨u, b, hrun, rfl⟩ := mutate_of_exec hij h
  obtain ⟨hwait, t0, polls, hbusy, hend⟩ := mutate_events hi hrun
  obtain ⟨hline, hcontrol, hcaller, -⟩ := hwait.same
  refine ⟨hline, hcontrol, hcaller, t0, polls, hbusy, ?_⟩
  obtain ⟨hlate, htrace, rfl, herr⟩ | ⟨hin, a, status, i1, i2, latch, hstatus, hgate⟩ := hend
  · exact .inl ⟨hlate, htrace, rfl, herr⟩
  · refine .inr ⟨hin, a, status, i1, i2, latch, hstatus, ?_⟩
    obtain ⟨hclear, htrace, rfl, herr⟩ | ⟨hset, ins, u0, later, hlen, hbusy', hsettle⟩ := hgate
    · exact .inl ⟨hclear, htrace, rfl, herr⟩
    · refine .inr ⟨hset, ins, u0, later, hlen, hbusy', ?_⟩
      obtain ⟨hin', rfl, herr, hdone⟩ | ⟨hlate, rfl, herr, hlast⟩ := hsettle
      · exact .inl ⟨hin', rfl, herr, hdone⟩
      · exact .inr ⟨hlate, rfl, herr, hlast⟩

/-! ### The mutating frames on the chip -/

section Accepted

variable {c : Chip}

/-- With the latch set, a page program inside the array programs (R58). -/
theorem pageProgram_latched {addr : Address} {payload : List Byte} (hw : c.wel = true) (hlen : payload.length ≤ 256)
    (hfit : ∀ i < payload.length, pageAddress addr i < c.flashBytes) : c.pageProgram (addressBytes addr ++ payload) =
      .responder ({ c with mem := c.mem.program addr 0 payload }.beginBusy .program) := by
  simp only [Chip.pageProgram, addressBytes, List.cons_append, List.nil_append, addressOf_bytes, hw, Bool.not_true,
    Bool.false_eq_true, if_false]
  rw [if_pos ⟨hlen, hfit⟩]

theorem pageProgram_unlatched {addr : Address} {payload : List Byte} (hw : c.wel = false) :
    c.pageProgram (addressBytes addr ++ payload) = .responder c := by
  simp only [Chip.pageProgram, addressBytes, List.cons_append, List.nil_append, hw, Bool.not_false, if_true]

/-- With the latch set, the erase of an aligned unit inside the array erases it (R59). -/
theorem unitErase_latched {kind : MutationKind} {size : Nat} {addr : Address} (hw : c.wel = true)
    (halign : addr.toNat % size = 0) (hfit : addr.toNat + size ≤ c.flashBytes) :
    c.unitErase kind size (addressBytes addr) =
      .responder ({ c with mem := c.mem.erase addr.toNat size }.beginBusy kind) := by
  simp only [Chip.unitErase, addressBytes, addressOf_bytes, hw, Bool.not_true, Bool.false_eq_true, if_false]
  rw [if_pos ⟨halign, hfit⟩]

/-- With the latch set, a misaligned erase has no stated meaning (R40, U1). -/
theorem unitErase_misaligned {kind : MutationKind} {size : Nat} {addr : Address} (hw : c.wel = true)
    (halign : addr.toNat % size ≠ 0) : c.unitErase kind size (addressBytes addr) = .anyChip := by
  simp only [Chip.unitErase, addressBytes, addressOf_bytes, hw, Bool.not_true, Bool.false_eq_true, if_false]
  rw [if_neg fun h => halign h.1]

theorem unitErase_unlatched {kind : MutationKind} {size : Nat} {addr : Address} (hw : c.wel = false) :
    c.unitErase kind size (addressBytes addr) = .responder c := by
  simp only [Chip.unitErase, addressBytes, hw, Bool.not_false, if_true]

theorem chipErase_latched (hw : c.wel = true) : c.chipErase = .responder ({ c with mem := [] }.beginBusy .chip) := by
  rw [Chip.chipErase, hw]; rfl

theorem chipErase_unlatched (hw : c.wel = false) : c.chipErase = .responder c := by
  rw [Chip.chipErase, hw]; rfl

end Accepted

/-! ### What the array reads as -/

section Array

variable {s t : State} {c c' : Chip}

/-- A programmed array, where every landing address is in the chip (R39, R43). -/
theorem programsPage_of_env {addr : Address} {bytes : List Byte} (hs : s.env = .responder c)
    (ht : t.env = .responder c') (hsize : c'.flashBytes = c.flashBytes) (hmem : c'.mem = c.mem.program addr 0 bytes)
    (hwf : c.mem.wf) (hlen : bytes.length ≤ 256) (hfit : ∀ i < bytes.length, pageAddress addr i < c.flashBytes) :
    ProgramsPage s t addr.toNat bytes := by
  constructor
  · intro i hi
    change t.arrayByte (pageAddress addr i) = (s.arrayByte (pageAddress addr i)).map _
    have hland := read_program_landed (addr := addr) (i := 0) (k := i) hwf (by omega) hi
    rw [Nat.zero_add] at hland
    rw [arrayByte_responder hs, arrayByte_responder ht, hsize, if_pos (hfit i hi), if_pos (hfit i hi), hmem, hland]
    rfl
  · intro a ha
    have hother : (c.mem.program addr 0 bytes).read a = c.mem.read a :=
      read_program_other hwf fun k hk => by rw [Nat.zero_add]; exact ha k hk
    rw [arrayByte_responder hs, arrayByte_responder ht, hsize, hmem, hother]

/-- An erased unit inside the chip (R43, R59). -/
theorem erasesUnit_of_env {addr size : Nat} (hs : s.env = .responder c) (ht : t.env = .responder c')
    (hsize : c'.flashBytes = c.flashBytes) (hfit : addr + size ≤ c.flashBytes)
    (hmem : ∀ a < c.flashBytes, c'.mem.read a = if addr ≤ a ∧ a < addr + size then erasedByte else c.mem.read a) :
    ErasesUnit s t addr size := by
  constructor
  · intro a hle hlt
    rw [arrayByte_responder ht, hsize, if_pos (by omega), hmem a (by omega), if_pos ⟨hle, hlt⟩]; rfl
  · intro a ha
    rw [arrayByte_responder hs, arrayByte_responder ht, hsize]
    split
    · next hin => rw [hmem a hin, if_neg (by omega)]
    · rfl

/-- The whole array erased. -/
theorem read_chipErased (m : Memory) : ∀ a < c.flashBytes,
    Memory.read [] a = if 0 ≤ a ∧ a < 0 + c.flashBytes then erasedByte else m.read a := fun a ha => by
  rw [if_pos ⟨Nat.zero_le a, by omega⟩, read_nil]

end Array

/-! ### The operations on an awake chip -/

/-- The settling after a mutating frame leaves the responder but for flags and count. -/
theorem sameButFlags_of_settled {u t : State} {c : Chip} {writes : Write → Prop}
    (h : Moves [.frameReadStatus1, .frameWriteDisable] writes u t) (hu : u.env = .responder c) :
    SameButFlags c t.env := by
  refine moves_sameButFlags h hu fun j hj => ?_
  simp only [List.mem_cons, List.not_mem_nil, or_false] at hj
  obtain rfl | rfl := hj
  · exact ⟨rfl, rfl, nofun⟩
  · exact ⟨rfl, rfl, nofun⟩

/-- A mutating operation on an awake chip whose frame makes the array `m` and begins the work of `kind`: it completes, the
array is `m` then, and a chip done at once ends it with true and H.ERR unchanged. -/
theorem exec_mutating_awake {i j : Instr} {op : Byte} {rest : List Byte} {kind : MutationKind} {m : Memory} {s : State}
    {c : Chip} (hu : Usable s) (hlive : ClockLive s) (hc : ChipAwake s c) (hij : Commands i j)
    (hwf : i.wellFormed = true) (hj : encode j = op :: rest) (hop : op ≠ 0x66 ∧ op ≠ 0x99)
    (haccept : ({ c with armed := false, wel := true } : Chip).accept op rest =
      .responder ({ c with armed := false, wel := true, mem := m }.beginBusy kind)) :
    ∃ t n w p a, exec i s = .next t ∧
      t.env = .responder { c with mem := m, nBusy := n, wel := w, pd := p, armed := a } ∧
      SameLineAndIds s t ∧ SameControl s t ∧ SameCaller s t ∧
      (c.busyReads.of kind = .reads 0 → t.result = some (.bool true) ∧ t.err = s.err) := by
  obtain ⟨u, t, b, hrun, hmoves, -, henv, -, hwait, -, hdone, -⟩ :=
    mutate_awake (budget := i.settleBudget) hij.1 hj hop hu.1 hlive hc
  rw [haccept] at henv
  obtain ⟨n, w, p, a, ht, -⟩ := sameButFlags_of_settled hmoves henv
  obtain ⟨hline, hcontrol, hcaller, -⟩ := hwait.same
  refine ⟨_, n, w, p, a, exec_of_mutate hij hwf hu.2 hrun, ht, hline, hcontrol, hcaller, fun hzero => ?_⟩
  obtain ⟨-, hp, -⟩ := hc
  obtain ⟨rfl, herr⟩ := hdone _ (by rw [henv]; exact answer_status hp) (by
    rw [statusReady_statusByte, show Chip.nBusy _ = _ from hzero]; rfl)
  exact ⟨rfl, herr⟩

/-- Settles O48: the page-program frame finds the latch set, and every byte lands inside the chip. -/
theorem writePageProgramsThePage : Obligations.WritePageProgramsThePage := by
  intro s c addr bytes hu hlive hc hok haddr hlen hfit
  have hs := hc.1
  rw [hs] at hok
  have hto := toNat_toAddress haddr
  have hland : ∀ i < bytes.length, pageAddress (toAddress addr) i < c.flashBytes := by
    intro i hi; rw [pageAddress, hto]; exact hfit i hi
  obtain ⟨t, n, w, p, a, hrun, ht, hline, hcontrol, hcaller, hdone⟩ := exec_mutating_awake (kind := .program) hu hlive hc
    (commands_opWritePage addr bytes) (Bool.and_eq_true_iff.2 ⟨decide_eq_true haddr, decide_eq_true hlen⟩) rfl
    (by decide)
    (pageProgram_latched (c := { c with armed := false, wel := true }) rfl hlen hland)
  have hpage := programsPage_of_env hs ht rfl rfl hok.1 hlen hland
  rw [hto] at hpage
  exact ⟨t, hrun, hpage, hline, hcontrol, hcaller, hdone⟩

/-- Settles O49: each erase frame finds the latch set and erases its unit. -/
theorem eraseOperationsSetTheUnitToOnes : Obligations.EraseOperationsSetTheUnitToOnes := by
  intro s c i addr size busy hu hlive hc hcase haddr halign hfit
  have hs := hc.1
  have hto := toNat_toAddress haddr
  have hunit : ∀ {j op kind}, Commands i j → i.wellFormed = true → encode j = op :: addressBytes (toAddress addr) →
      op ≠ 0x66 ∧ op ≠ 0x99 → (∀ (c : Chip) (rest : List Byte), c.accept op rest = c.unitErase kind size rest) →
      busy = c.busyReads.of kind →
      ∃ t, exec i s = .next t ∧ ErasesUnit s t addr size ∧ SameLineAndIds s t ∧ SameControl s t ∧ SameCaller s t ∧
        (busy = .reads 0 → t.result = some (.bool true) ∧ t.err = s.err) := by
    intro j op kind hij hwf hj hop haccept hbusy
    obtain ⟨t, n, w, p, a, hrun, ht, hline, hcontrol, hcaller, hdone⟩ := exec_mutating_awake hu hlive hc hij hwf hj hop
      ((haccept _ _).trans (unitErase_latched (kind := kind) (c := { c with armed := false, wel := true }) rfl
        (hto.symm ▸ halign) (hto.symm ▸ hfit)))
    refine ⟨t, hrun, erasesUnit_of_env hs ht rfl hfit fun a _ => ?_, hline, hcontrol, hcaller, hbusy ▸ hdone⟩
    rw [hto]
    exact read_erase c.mem addr size a
  obtain ⟨rfl, rfl, hbusy⟩ | ⟨rfl, rfl, hbusy⟩ | ⟨rfl, rfl, hbusy⟩ | ⟨rfl, rfl, rfl, hbusy⟩ := hcase
  · exact hunit (kind := .sector) (commands_opEraseSector4KB addr) (decide_eq_true haddr) rfl (by decide)
      (fun _ _ => rfl) hbusy
  · exact hunit (kind := .block32) (commands_opEraseBlock32KB addr) (decide_eq_true haddr) rfl (by decide)
      (fun _ _ => rfl) hbusy
  · exact hunit (kind := .block64) (commands_opEraseBlock64KB addr) (decide_eq_true haddr) rfl (by decide)
      (fun _ _ => rfl) hbusy
  · obtain ⟨t, n, w, p, a, hrun, ht, hline, hcontrol, hcaller, hdone⟩ := exec_mutating_awake (kind := .chip) hu hlive hc
      commands_opEraseChip rfl rfl (by decide) (chipErase_latched (c := { c with armed := false, wel := true }) rfl)
    exact ⟨t, hrun, erasesUnit_of_env hs ht rfl hfit (read_chipErased c.mem), hline, hcontrol, hcaller, hbusy ▸ hdone⟩

/-- Settles O51: the misaligned frame finds the latch set, and after it nothing is known of the chip. -/
theorem misalignedEraseLeavesTheChipOpen : Obligations.MisalignedEraseLeavesTheChipOpen := by
  intro s c i op addr size hu hlive hc hcase hopcode haddr halign
  have hto := toNat_toAddress haddr
  have hunit : ∀ {j kind}, Commands i j → i.wellFormed = true → encode j = op :: addressBytes (toAddress addr) →
      op ≠ 0x66 ∧ op ≠ 0x99 → (∀ (c : Chip) (rest : List Byte), c.accept op rest = c.unitErase kind size rest) →
      ∃ t events, exec i s = .next t ∧ t.trace = s.trace ++ events ∧ op ∈ opcodesSent events ∧ t.env = .anyChip := by
    intro j kind hij hwf hj hop haccept
    obtain ⟨u, t, b, hrun, hmoves, -, henv, -, -, -, -, e0, e1, hu0, hsends0, ht1, m, hend⟩ :=
      mutate_awake (budget := i.settleBudget) hij.1 hj hop hu.1 hlive hc
    rw [haccept, unitErase_misaligned rfl (hto.symm ▸ halign)] at henv
    obtain ⟨ops, hsends1⟩ : ∃ ops, Sends e1 ops := by
      obtain ⟨-, h⟩ | ⟨-, -, h⟩ := hend
      · exact ⟨_, h⟩
      · exact ⟨_, h⟩
    refine ⟨_, e0 ++ e1, exec_of_mutate hij hwf hu.2 hrun, ?_, ?_, by rw [setResult_env, moves_anyChip hmoves henv]⟩
    · rw [setResult_trace, ht1, hu0, List.append_assoc]
    · rw [(hsends0.append hsends1).opcodes]; simp
  obtain ⟨rfl, rfl⟩ | ⟨rfl, rfl⟩ | ⟨rfl, rfl⟩ := hcase <;> cases hopcode
  · exact hunit (kind := .sector) (commands_opEraseSector4KB addr) (decide_eq_true haddr) rfl (by decide) fun _ _ => rfl
  · exact hunit (kind := .block32) (commands_opEraseBlock32KB addr) (decide_eq_true haddr) rfl (by decide) fun _ _ => rfl
  · exact hunit (kind := .block64) (commands_opEraseBlock64KB addr) (decide_eq_true haddr) rfl (by decide) fun _ _ => rfl

/-- Settles O52: the frame erases the array, and the wait after it never finds the chip ready. -/
theorem eraseChipThatNeverFinishes : Obligations.EraseChipThatNeverFinishes := by
  intro s c hu hlive hc hnever
  obtain ⟨u, t, b, hrun, hmoves, -, henv, -, -, hsettle, -, e0, e1, hu0, hsends0, ht1, m, hend⟩ :=
    mutate_awake (budget := Instr.settleBudget .opEraseChip) commands_opEraseChip.1 (rest := []) rfl (by decide) hu.1
      hlive hc
  have henv := henv.trans (chipErase_latched (c := { c with armed := false, wel := true }) rfl)
  obtain ⟨rfl, herr, hsends1⟩ : b = false ∧ t.err = .timeout ∧
      Sends e1 (List.replicate (m + 1) 0x05 ++ [0x04, 0x05]) := by
    refine hend.resolve_left fun ⟨hb, _⟩ => ?_
    obtain ⟨hwait, -⟩ | ⟨_, _, -, -, hb'⟩ := settle_eq_next hsettle
    · cases readyWait_never henv hc.2.1 hnever hwait
    · exact Bool.false_ne_true (hb'.symm.trans hb)
  obtain ⟨n, w, p, a, ht, -⟩ := sameButFlags_of_settled hmoves henv
  refine ⟨_, e0 ++ e1, m, exec_of_mutate commands_opEraseChip rfl hu.2 hrun, rfl, herr, ?_, ?_, fun addr haddr => ?_⟩
  · rw [setResult_trace, ht1, hu0, List.append_assoc]
  · rw [(hsends0.append hsends1).opcodes, List.append_assoc]
  · exact (arrayByte_responder (s := t.setResult _) ht addr).trans (if_pos haddr)

/-! ### The frames on their own -/

/-- After `begin`, on an awake chip that is not busy, a mutating frame on its own completes and is accepted. -/
theorem exec_frame_awake {i : Instr} {op : Byte} {rest : List Byte} {s : State} {c : Chip} (hu : Usable s)
    (hc : ChipAwake s c) (hwf : i.wellFormed = true) (hbody : body i = replying i fun _ => .unit)
    (hi : encode i = op :: rest) (hop : op ≠ 0x66 ∧ op ≠ 0x99) :
    ∃ t, exec i s = .next t ∧ t.env = ({ c with armed := false } : Chip).accept op rest := by
  obtain ⟨t, -, hrun, -, -, -, henv, -⟩ := isOneExchange_of_replying i hu hwf hbody fun _ _ => rfl
  obtain ⟨hs, hp, hb⟩ := hc
  refine ⟨t, hrun, ?_⟩
  rw [henv, hi, hs, endFrame_awake hp hb, Chip.disarm, if_neg fun h => h.elim hop.1 hop.2]

/-- An unlatched chip that saw a mutating frame has only lost its arm. -/
theorem sameArray_of_unlatched {s t : State} {c : Chip} (hs : s.env = .responder c)
    (ht : t.env = .responder { c with armed := false }) : SameArray s t :=
  sameArray_of_sameButFlags hs ⟨c.nBusy, c.wel, c.pd, false, ht, id⟩

/-- Settles O50: each frame is accepted, and its effect is decided by the latch. -/
theorem mutatingFramesNeedTheLatch : Obligations.MutatingFramesNeedTheLatch := by
  intro s c addr payload hu hc hok hlen hfit
  have hs := hc.1
  rw [hs] at hok
  have hunit : ∀ {i op kind size}, i.wellFormed = true → body i = replying i (fun _ => .unit) →
      encode i = op :: addressBytes addr → op ≠ 0x66 ∧ op ≠ 0x99 →
      (∀ (c : Chip) (rest : List Byte), c.accept op rest = c.unitErase kind size rest) →
      addr.toNat % size = 0 → addr.toNat + size ≤ c.flashBytes →
      ∃ t, exec i s = .next t ∧ (c.wel = true → ErasesUnit s t addr.toNat size) ∧ (c.wel = false → SameArray s t) := by
    intro i op kind size hwf hbody hi hop haccept halign hfit
    obtain ⟨t, hrun, ht⟩ := exec_frame_awake hu hc hwf hbody hi hop
    rw [haccept] at ht
    refine ⟨t, hrun, fun hw => ?_, fun hw => sameArray_of_unlatched hs (ht.trans (unitErase_unlatched hw))⟩
    have ht := ht.trans (unitErase_latched (kind := kind) (c := { c with armed := false }) hw halign hfit)
    exact erasesUnit_of_env hs ht rfl hfit fun a _ => read_erase c.mem addr.toNat size a
  refine ⟨?_, ?_, fun i size hcase => ?_⟩
  · obtain ⟨t, hrun, ht⟩ := exec_frame_awake (i := .framePageProgram addr payload) hu hc (decide_eq_true hlen) rfl rfl
      (by decide)
    change t.env = Chip.pageProgram _ (addressBytes addr ++ payload) at ht
    refine ⟨t, hrun, fun hw => ?_, fun hw => sameArray_of_unlatched hs (ht.trans (pageProgram_unlatched hw))⟩
    have ht := ht.trans (pageProgram_latched (c := { c with armed := false }) hw hlen hfit)
    exact programsPage_of_env hs ht rfl rfl hok.1 hlen hfit
  · obtain ⟨t, hrun, ht⟩ := exec_frame_awake (i := .frameChipErase) hu hc rfl rfl rfl (by decide)
    change t.env = Chip.chipErase _ at ht
    refine ⟨t, hrun, fun hw => ?_, fun hw => sameArray_of_unlatched hs (ht.trans (chipErase_unlatched hw))⟩
    have ht := ht.trans (chipErase_latched (c := { c with armed := false }) hw)
    exact erasesUnit_of_env hs ht rfl (Nat.zero_add _).le (read_chipErased c.mem)
  · obtain ⟨rfl, rfl⟩ | ⟨rfl, rfl⟩ | ⟨rfl, rfl⟩ := hcase
    · exact hunit (kind := .sector) rfl rfl rfl (by decide) fun _ _ => rfl
    · exact hunit (kind := .block32) rfl rfl rfl (by decide) fun _ _ => rfl
    · exact hunit (kind := .block64) rfl rfl rfl (by decide) fun _ _ => rfl

end Sys2Proof.Proofs
end

section
/-! Reads (R44, R55, R57, R60, R61, R94, R96, R97): `read` is a wait and one 0x03 exchange whose kept answers it returns; on
the responder the answers of the reads are its own bytes. -/

namespace Sys2Proof.Proofs

open Sys2Proof.Machine Sys2Proof.Laws

/-! ### The array read, event by event -/

/-- A 0x03 exchange that returned kept the answers to its read cycles (R94). -/
theorem xReadBytes_eq_next {addr : Address} {len : Nat} {s t : State} {bs : List Byte}
    (h : xReadBytes addr len s = .next (t, bs)) : ∃ ins d n,
      t = afterExchange s (encode (.frameReadBytes addr len)) ins d n ∧ ins.length = 4 + len ∧ bs = ins.drop 4 := by
  obtain ⟨u, ins, hsend, hk⟩ := andThen_eq_next h
  obtain ⟨-, hlen, d, n, rfl⟩ := exchange_eq_next hsend
  cases hk
  rw [length_encode_readBytes] at hlen
  exact ⟨ins, d, n, rfl, hlen, keptAnswers_readBytes hlen⟩

/-- After `begin`, with its address in the domain, `read` stores what `readArray` answers. -/
theorem exec_opRead_of_next {addr len : Nat} {s t : State} {r : Option (List Byte)} (haddr : addr < 2 ^ 24)
    (hc : s.configured = true) (h : readArray (toAddress addr) len s = .next (t, r)) :
    exec (.opRead addr len) s = .next (t.setResult (readResult r)) :=
  exec_of_body (decide_eq_true haddr) hc (returning_of_next h)

/-- A wait keeps the line and the transport of the brackets. -/
theorem waitOnly_bracket {s t : State} (h : WaitOnly s t) (out ins : List Byte) : t.bracket out ins = s.bracket out ins := by
  obtain ⟨hline, htxn⟩ := h.line
  simp only [State.bracket, hline, htxn]

/-- Settles O53: the wait ran late, or the exchange follows it. -/
theorem readWaitsThenClearsTheError : Obligations.ReadWaitsThenClearsTheError := by
  rintro s addr len ⟨hi, hc⟩ hlive haddr
  obtain ⟨t, r, hrun, -⟩ | ⟨-, hfrozen, -⟩ := readArray_completes (addr := toAddress addr) (len := len) hi
  · obtain ⟨u, v, bs, hwait, hread, rfl, rfl⟩ | ⟨hwait, rfl⟩ := readArray_eq_next hrun
    · obtain ⟨hwaited, t0, polls, hbusy, hend⟩ := readyWait_events hi hwait
      obtain ⟨-, -, hin, a, status, hstatus, htrace⟩ := hend.resolve_right nofun
      obtain ⟨ins, d, n, rfl, hlen, rfl⟩ := xReadBytes_eq_next hread
      have hall := (hwaited.trans (waitOnly_afterExchange (hwaited.idle hi) (encode (.frameReadBytes (toAddress addr) len))
        ins d n)).trans (waitOnly_setErr _ .none)
      obtain ⟨hline, hcontrol, hcaller, -⟩ := hall.same
      refine ⟨_, t0, polls, exec_opRead_of_next haddr hc hrun, hbusy, hline, hcontrol, hcaller,
        .inr ⟨hin, a, status, ins, hstatus, hlen, ?_, rfl, rfl⟩⟩
      rw [setResult_trace, clearError_trace, afterExchange_trace, htrace, waitOnly_bracket hwaited, encode,
        addressBytes_toAddress haddr]
      rfl
    · obtain ⟨hwaited, t0, polls, hbusy, hend⟩ := readyWait_events hi hwait
      obtain ⟨-, herr, hlate, htrace⟩ := hend.resolve_left nofun
      obtain ⟨hline, hcontrol, hcaller, -⟩ := hwaited.same
      exact ⟨_, t0, polls, exec_opRead_of_next haddr hc hrun, hbusy, hline, hcontrol, hcaller,
        .inl ⟨hlate, htrace, rfl, herr⟩⟩
  · exact absurd (hlive.symm.trans hfrozen) Bool.false_ne_true

/-- Settles O55: both forms run the same `readArray`, whose answer is of length one. -/
theorem readByteIsReadOfLengthOne : Obligations.ReadByteIsReadOfLengthOne := by
  intro s t addr h
  obtain ⟨hwf, hallowed, u, r, hbody, rfl⟩ := exec_eq_next h
  obtain ⟨a, hrun, rfl⟩ := returning_eq_next hbody
  refine ⟨_, exec_opRead_of_next (of_decide_eq_true hwf) (hallowed.resolve_left nofun) hrun, rfl, ?_⟩
  obtain ⟨v, w, bs, -, hread, -, rfl⟩ | ⟨-, rfl⟩ := readArray_eq_next hrun
  · obtain ⟨ins, d, n, -, hlen, rfl⟩ := xReadBytes_eq_next hread
    obtain ⟨b, hb⟩ := List.length_eq_one_iff.1 (show (ins.drop 4).length = 1 by rw [List.length_drop, hlen])
    rw [hb]
    exact .inr ⟨b, rfl, rfl⟩
  · exact .inl ⟨rfl, rfl⟩

/-! ### The array bytes -/

/-- The `len` bytes of an array from `addr` on. -/
def arrayBytes (m : Memory) (addr len : Nat) : List Byte := (List.range len).map fun k => m.read (addr + k)

theorem length_arrayBytes (m : Memory) (addr len : Nat) : (arrayBytes m addr len).length = len := by simp [arrayBytes]

theorem getElem?_arrayBytes (m : Memory) (addr : Nat) {len k : Nat} (h : k < len) :
    (arrayBytes m addr len)[k]? = some (m.read (addr + k)) := by
  simp [arrayBytes, h]

/-- The answer of an awake chip to read cycle `k` of a read at `addr` (R57). -/
theorem answer_readBytes {c : Chip} (hp : c.pd = false) (hb : c.nBusy = .reads 0) (addr : Address) (k : Nat) :
    (Environment.responder c).answer (0x03 :: (addressBytes addr ++ fillers (k + 1))) =
      c.arrayAnswer addr.toNat k := by
  have hlen : (addressBytes addr ++ fillers (k + 1)).length + 1 = 5 + k := by simp [addressBytes, fillers]; omega
  simp only [Environment.answer, Chip.answer, List.getD_cons_zero, ignores_awake hp hb, List.length_cons, hlen]
  simp [addressBytes, addressOf_bytes]

/-- A 0x03 exchange with an awake chip inside its array returns the array's bytes (R57). -/
theorem xReadBytes_awake {s : State} {c : Chip} {addr : Address} {len : Nat} (hactive : s.csActive = false)
    (hc : ChipAwake s c) (hfit : addr.toNat + len ≤ c.flashBytes) : ∃ ins d n, xReadBytes addr len s =
      .next (afterExchange s (encode (.frameReadBytes addr len)) ins d n, arrayBytes c.mem addr.toNat len) := by
  obtain ⟨hs, hp, hb⟩ := hc
  obtain ⟨ins, d, n, hrun, hlen, hanswers⟩ := exchange_spec (encode (.frameReadBytes addr len)) hactive
  rw [length_encode_readBytes] at hlen hanswers
  refine ⟨ins, d, n, ?_⟩
  rw [xReadBytes, sendFrame, hrun, andThen_next, keptAnswers_readBytes hlen]
  congr 2
  refine List.ext_getElem? fun k => ?_
  by_cases hk : k < len
  · have htake : (encode (.frameReadBytes addr len)).take (4 + k + 1) = 0x03 :: (addressBytes addr ++ fillers (k + 1)) := by
      have hmin : min (k + 1) len = k + 1 := by omega
      rw [show 4 + k + 1 = (k + 1) + 4 by omega]
      simp [encode, addressBytes, fillers, hmin]
    have hanswer : s.env.answer (0x03 :: (addressBytes addr ++ fillers (k + 1))) = some (c.mem.read (addr.toNat + k)) := by
      rw [hs, answer_readBytes hp hb, Chip.arrayAnswer, if_pos (by omega)]
    rw [List.getElem?_drop, getElem?_arrayBytes c.mem _ hk]
    exact hanswers (4 + k) _ (by omega) (htake ▸ hanswer)
  · rw [List.getElem?_eq_none (by rw [List.length_drop]; omega), List.getElem?_eq_none (by rw [length_arrayBytes]; omega)]

/-- An array read of an awake chip inside its array waits for one poll, returns the array's bytes and clears H.ERR. -/
theorem readArray_awake {s : State} {c : Chip} {addr : Address} {len : Nat} (hi : Idle s) (hc : ChipAwake s c)
    (hfit : addr.toNat + len ≤ c.flashBytes) : ∃ t,
      readArray addr len s = .next (t, some (arrayBytes c.mem addr.toNat len)) ∧ WaitOnly s t ∧ t.err = .none := by
  obtain ⟨f, st, d, n, hwait⟩ := readyWait_awake (timeout := tDefaultMs) hi hc
  obtain ⟨hs, hp, hb⟩ := hc
  have hwaited := (waitOnly_now s).trans (waitOnly_afterExchange (s := s.now.1) hi [0x05, 0x00] [f, st] d n)
  have henv : (afterExchange s.now.1 [0x05, 0x00] [f, st] d n).env = .responder { c with armed := false } := by
    rw [afterExchange_env, now_env, hs, endFrame_status_ready hp hb]
  obtain ⟨ins, d', n', hread⟩ := xReadBytes_awake (addr := addr) (len := len) rfl ⟨henv, hp, hb⟩ hfit
  refine ⟨_, ?_, (hwaited.trans (waitOnly_afterExchange (hwaited.idle hi) (encode (.frameReadBytes addr len)) ins d'
    n')).trans (waitOnly_setErr _ .none), rfl⟩
  rw [readArray, hwait, andThen_next, if_pos rfl, hread, andThen_next]
  rfl

/-- Settles O54: both forms are one array read, and none of their frames touches the array. -/
theorem readReturnsTheArrayBytes : Obligations.ReadReturnsTheArrayBytes := by
  rintro s c addr len ⟨hi, hconf⟩ hc haddr
  have hto := toNat_toAddress haddr
  have hbyte : ∀ a < c.flashBytes, s.arrayByte a = some (c.mem.read a) := fun a ha => by
    rw [arrayByte_responder hc.1, if_pos ha]
  refine ⟨fun hfit => ?_, fun hfit => ?_⟩
  · obtain ⟨t, hrun, hwaited, herr⟩ := readArray_awake (addr := toAddress addr) (len := len) hi hc (by rwa [hto])
    obtain ⟨hline, hcontrol, hcaller, -⟩ := hwaited.same
    have hexec := exec_opRead_of_next haddr hconf hrun
    rw [hto] at hexec
    refine ⟨_, _, hexec, rfl, length_arrayBytes _ _ _, fun k hk => ?_, herr, hline, hcontrol, hcaller,
      arrayUntouchedByOtherInstructions (.opRead addr len) s _ rfl rfl nofun hexec⟩
    rw [getElem?_arrayBytes _ _ hk, hbyte _ (by omega)]
  · obtain ⟨t, hrun, hwaited, herr⟩ := readArray_awake (addr := toAddress addr) (len := 1) hi hc (by rwa [hto])
    obtain ⟨hline, hcontrol, hcaller, -⟩ := hwaited.same
    have hexec : exec (.opReadByte addr) s = .next (t.setResult (.okByte (c.mem.read addr))) := by
      rw [hto] at hrun
      exact exec_of_body (decide_eq_true haddr) hconf (returning_of_next hrun)
    exact ⟨_, _, hexec, rfl, hbyte addr hfit, herr, hline, hcontrol, hcaller,
      arrayUntouchedByOtherInstructions (.opReadByte addr) s _ rfl rfl nofun hexec⟩

/-! ### What was written reads back -/

section Written

variable {s t : State} {c : Chip}

/-- `enable_write` shows the chip its two frames (R90). -/
theorem enableWrite_env {b : Bool} (hi : Idle s) (h : enableWrite s = .next (t, b)) :
    t.env = (s.env.endFrame [0x06]).endFrame [0x05, 0x00] := by
  obtain ⟨i1, d1, n1, i2, st, d2, n2, hrun, -⟩ := enableWrite_spec hi
  rw [hrun] at h
  cases h; rfl

/-- A page program inside the array, seen by an awake chip that is not busy and has its latch set (R58). -/
theorem endFrame_pageProgram {addr : Address} {payload : List Byte} (hp : c.pd = false) (hb : c.nBusy = .reads 0)
    (hw : c.wel = true) (hlen : payload.length ≤ 256) (hfit : ∀ i < payload.length, pageAddress addr i < c.flashBytes) :
    (Environment.responder c).endFrame (encode (.framePageProgram addr payload)) =
      .responder ({ c with armed := false, mem := c.mem.program addr 0 payload }.beginBusy .program) :=
  (endFrame_awake hp hb _ _).trans (pageProgram_latched (c := { c with armed := false }) hw hlen hfit)

/-- A gate that passed leaves a responder that was awake ready, with the latch set (R56, R92). -/
theorem gate_passed_env (hi : Idle s) (hs : s.env = .responder c) (hp : c.pd = false) (h : gate s = .next (t, true)) :
    t.env = .responder { c with nBusy := .reads 0, wel := true, armed := false } := by
  obtain ⟨u, hwait, henable⟩ | ⟨-, hfalse⟩ := gate_eq_next h
  · obtain ⟨n, w, a, hu, hended, -⟩ := readyWait_env hs hp hwait
    obtain rfl := hended rfl
    rw [enableWrite_env ((readyWait_events hi hwait).1.idle hi) henable]
    exact (status_after_latch (c := { c with nBusy := .reads 0, wel := w, armed := a }) ⟨hu, hp, rfl⟩
      (endFrame_awake (by exact hp) rfl _ _)).2
  · cases hfalse

/-- A page program command that returned true, inside the array of a responder that was awake, leaves it awake and ready
with the page programmed (R58, R93). -/
theorem mutate_pageProgram_true {addr : Address} {payload : List Byte} {budget : Time} (hi : Idle s)
    (hs : s.env = .responder c) (hp : c.pd = false) (hlen : payload.length ≤ 256)
    (hfit : ∀ i < payload.length, pageAddress addr i < c.flashBytes)
    (h : mutate (.framePageProgram addr payload) budget s = .next (t, true)) :
    ∃ c', ChipAwake t c' ∧ c'.flashBytes = c.flashBytes ∧ c'.mem = c.mem.program addr 0 payload := by
  obtain ⟨-, hfalse⟩ | ⟨u, v, ins, hgate, hsend, hsettle⟩ := mutate_eq_next h
  · cases hfalse
  · have hu := gate_passed_env hi hs hp hgate
    obtain ⟨-, -, d, n, rfl⟩ := exchange_eq_next hsend
    have hv := endFrame_pageProgram (c := { c with nBusy := .reads 0, wel := true, armed := false }) hp rfl rfl hlen hfit
    rw [← hu] at hv
    obtain ⟨hwait, -⟩ | ⟨_, _, -, -, hfalse⟩ := settle_eq_next hsettle
    · obtain ⟨n', w, a, ht, hended, -⟩ := readyWait_env hv (by exact hp) hwait
      exact ⟨_, ⟨ht, hp, hended rfl⟩, rfl, rfl⟩
    · cases hfalse

end Written

/-- Inside one page, from `addr` on, byte `k` of a payload lands at `addr + k` (R39). -/
theorem pageAddress_inPage {addr : Address} {k : Nat} (h : k < 256 - addr.toNat % 256) :
    pageAddress addr k = addr.toNat + k := by
  rw [pageAddress]; omega

/-- A payload programmed over erased bytes, inside one page, is what the array holds there (R43, R44). -/
theorem arrayBytes_program {m : Memory} {addr : Address} {payload : List Byte} (hwf : m.wf)
    (hpage : payload.length ≤ 256 - addr.toNat % 256) (herased : ∀ k < payload.length, m.read (addr.toNat + k) = 0xFF) :
    arrayBytes (m.program addr 0 payload) addr.toNat payload.length = payload := by
  refine List.ext_getElem (length_arrayBytes _ _ _) fun k _ hk => ?_
  have hland := read_program_landed (addr := addr) (i := 0) hwf (by omega) hk
  rw [Nat.zero_add, pageAddress_inPage (by omega), herased k hk, BitVec.and_comm, and_ff] at hland
  simpa [arrayBytes] using hland

/-- Settles O56: the command left the page programmed over erased bytes, and the read returns the array's bytes. -/
theorem writtenPageReadsBack : Obligations.WrittenPageReadsBack := by
  intro s t c addr bytes hu hs hok hp haddr hpage hfit herased h hresult
  have hto := toNat_toAddress haddr
  rw [hs] at hok
  have hread : ∀ k < bytes.length, c.mem.read (addr + k) = 0xFF := fun k hk => by
    obtain ⟨c', hs', hc'⟩ := responder_of_arrayByte (herased k hk)
    cases hs.symm.trans hs'
    exact hc'
  obtain ⟨-, -, hidle, hconf⟩ := controlStateFrame _ _ _ hu.1 h
  have hconf : t.configured = true := (hconf ⟨nofun, fun _ => nofun⟩).trans hu.2
  obtain ⟨u, b, hrun, rfl⟩ := mutate_of_exec (commands_opWritePage addr bytes) h
  cases hresult
  obtain ⟨c', hc', hsize, hmem⟩ := mutate_pageProgram_true hu.1 hs hp (by omega) (fun i hi => by
    rw [pageAddress_inPage (by omega)]; omega) hrun
  obtain ⟨v, hreadRun, -⟩ := readArray_awake (s := u.setResult (.bool true)) (addr := toAddress addr)
    (len := bytes.length) hidle hc' (by omega)
  rw [hmem, arrayBytes_program hok.1 (by rwa [hto]) (by rwa [hto])] at hreadRun
  exact ⟨_, exec_opRead_of_next haddr hconf hreadRun, rfl⟩

end Sys2Proof.Proofs
end

section
/-! The chip's own answers (R55, R60, R61): each identification read on the responder, at the positions its frame keeps. -/

namespace Sys2Proof.Proofs

open Sys2Proof.Machine Sys2Proof.Laws

/-! ### The answer at a position -/

section Answers

variable {c : Chip}

/-- An awake chip that is not busy answers the second status register at position 2 (R60). -/
theorem answer_status2 (hp : c.pd = false) (hb : c.nBusy = .reads 0) :
    (Environment.responder c).answer [0x35, 0x00] = some c.sr2 := by
  simp [Environment.answer, Chip.answer, ignores_awake hp hb]

/-- An awake chip that is not busy answers CHIP_MFR and CHIP_DEV at positions 5 and 6 of the 0x90 frame (R60). -/
theorem answer_mfrDeviceId (hp : c.pd = false) (hb : c.nBusy = .reads 0) :
    (Environment.responder c).answer [0x90, 0, 0, 0, 0] = some c.mfr ∧
      (Environment.responder c).answer [0x90, 0, 0, 0, 0, 0] = some c.dev := by
  simp [Environment.answer, Chip.answer, ignores_awake hp hb]

/-- An awake chip that is not busy answers its three JEDEC bytes at positions 2 to 4 (R60). -/
theorem answer_jedecId (hp : c.pd = false) (hb : c.nBusy = .reads 0) :
    (Environment.responder c).answer [0x9F, 0] = some c.mfr ∧ (Environment.responder c).answer [0x9F, 0, 0] = some c.jtype ∧
      (Environment.responder c).answer [0x9F, 0, 0, 0] = some c.jcap := by
  simp [Environment.answer, Chip.answer, ignores_awake hp hb]

/-- An awake chip that is not busy answers the bytes of CHIP_UID from position 6 on (R60). -/
theorem answer_uniqueId (hp : c.pd = false) (hb : c.nBusy = .reads 0) (k : Nat) :
    (Environment.responder c).answer (0x4B :: fillers (5 + k)) = c.uid[k]? := by
  have hpos : 5 + k + 1 - 6 = k := by omega
  simp [Environment.answer, Chip.answer, ignores_awake hp hb, fillers, hpos]

/-- An awake chip that is not busy answers CHIP_SFDP at the address sent, at position 6 (R60). -/
theorem answer_sfdp (hp : c.pd = false) (hb : c.nBusy = .reads 0) (a : Byte) :
    (Environment.responder c).answer [0x5A, 0, 0, a, 0, 0] = c.sfdp[a.toNat]? := by
  simp [Environment.answer, Chip.answer, ignores_awake hp hb]

/-- A chip that is not busy, powered down or not, answers CHIP_DEV at position 5 of the long release (R61). -/
theorem answer_releaseId (hb : c.nBusy = .reads 0) :
    (Environment.responder c).answer [0xAB, 0, 0, 0, 0] = some c.dev := by
  simp [Environment.answer, Chip.answer, Chip.ignores, hb]

end Answers

/-! ### The operations -/

section Awake

variable {s : State} {c : Chip}

theorem exec_opReady_awake (hu : Usable s) (hc : ChipAwake s c) :
    ∃ t, exec .opReady s = .next t ∧ t.result = some (.bool true) := by
  obtain ⟨hs, hp, hb⟩ := hc
  obtain ⟨t, ins, hrun, hresult, -, -, hanswers⟩ := exec_replying_result .frameReadStatus1 (i := .opReady) hu rfl rfl
  refine ⟨t, hrun, ?_⟩
  rw [hresult, answerAt_of_getElem? (hanswers 1 _ (by decide) (by rw [hs]; exact answer_status hp)),
    statusReady_statusByte, hb]
  rfl

theorem exec_opStatusRegister2_awake (hu : Usable s) (hc : ChipAwake s c) :
    ∃ t, exec .opStatusRegister2 s = .next t ∧ t.result = some (.byte c.sr2) := by
  obtain ⟨hs, hp, hb⟩ := hc
  obtain ⟨t, ins, hrun, hresult, -, -, hanswers⟩ := exec_replying_result .frameReadStatus2 (i := .opStatusRegister2) hu
    rfl rfl
  refine ⟨t, hrun, ?_⟩
  rw [hresult, answerAt_of_getElem? (hanswers 1 _ (by decide) (by rw [hs]; exact answer_status2 hp hb))]

theorem exec_opJedecId_awake (hu : Usable s) (hc : ChipAwake s c) : ∃ t, exec .opJedecId s = .next t ∧ t.result =
    some (.u24 (BitVec.ofNat 24 (c.mfr.toNat * 65536 + c.jtype.toNat * 256 + c.jcap.toNat))) := by
  obtain ⟨hs, hp, hb⟩ := hc
  obtain ⟨hm, ht, hcap⟩ := answer_jedecId hp hb
  obtain ⟨t, ins, hrun, hresult, -, -, hanswers⟩ := exec_replying_result .frameJedecId (i := .opJedecId) hu rfl rfl
  have hins : keptAnswers (keptPositions .frameJedecId) ins = [c.mfr, c.jtype, c.jcap] := by
    change [answerAt ins 2, answerAt ins 3, answerAt ins 4] = _
    rw [answerAt_of_getElem? (hanswers 1 _ (by decide) (by rw [hs]; exact hm)),
      answerAt_of_getElem? (hanswers 2 _ (by decide) (by rw [hs]; exact ht)),
      answerAt_of_getElem? (hanswers 3 _ (by decide) (by rw [hs]; exact hcap))]
  refine ⟨t, hrun, ?_⟩
  rw [hresult, hins]
  exact congrArg (fun v => some (Result.u24 v)) (packJedec_eq_ofNat _ _ _)

theorem exec_opReadUniqueId_awake (hu : Usable s) (hc : ChipAwake s c) (hlen : c.uid.length = 8) :
    ∃ t, exec .opReadUniqueId s = .next t ∧
      t.result = some (.u64 (BitVec.ofNat 64 (c.uid.foldl (fun acc b => acc * 256 + b.toNat) 0))) := by
  obtain ⟨hs, hp, hb⟩ := hc
  obtain ⟨t, ins, hrun, hresult, -, hins, hanswers⟩ := exec_replying_result .frameReadUniqueId (i := .opReadUniqueId) hu
    rfl rfl
  have hins : ins.length = 5 + 8 := hins
  have hkept : keptAnswers (keptPositions .frameReadUniqueId) ins = c.uid := by
    rw [show keptPositions .frameReadUniqueId = List.range' (5 + 1) 8 from rfl, keptAnswers_range' hins]
    refine List.ext_getElem? fun k => ?_
    rw [List.getElem?_drop]
    by_cases hk : k < 8
    · have htake : (encode .frameReadUniqueId).take (5 + k + 1) = 0x4B :: fillers (5 + k) := by
        change (0x4B :: fillers 12).take (5 + k + 1) = _
        rw [List.take_succ_cons, fillers, List.take_replicate, Nat.min_eq_left (by omega), fillers]
      have huid : c.uid[k]? = some (c.uid[k]'(by omega)) := List.getElem?_eq_getElem _
      rw [huid]
      refine hanswers (5 + k) _ (by change _ < 13; omega) ?_
      rw [htake, hs, answer_uniqueId hp hb, huid]
    · rw [List.getElem?_eq_none (by omega), List.getElem?_eq_none (by omega)]
  refine ⟨t, hrun, ?_⟩
  rw [hresult, hkept, packUid_eq_ofNat]

theorem exec_opReadSfdpRegister_awake {addr : Nat} {v : Byte} (hu : Usable s) (hc : ChipAwake s c) (haddr : addr < 256)
    (hv : c.sfdp[addr]? = some v) : ∃ t, exec (.opReadSfdpRegister addr) s = .next t ∧ t.result = some (.byte v) := by
  obtain ⟨hs, hp, hb⟩ := hc
  obtain ⟨t, ins, hrun, hresult, -, -, hanswers⟩ := exec_replying_result (.frameReadSfdp (BitVec.ofNat 8 addr))
    (i := .opReadSfdpRegister addr) hu (decide_eq_true haddr) rfl
  have hanswer : s.env.answer [0x5A, 0, 0, BitVec.ofNat 8 addr, 0, 0] = some v := by
    rw [hs, answer_sfdp hp hb, BitVec.toNat_ofNat, Nat.mod_eq_of_lt haddr, hv]
  refine ⟨t, hrun, ?_⟩
  rw [hresult, answerAt_of_getElem? (hanswers 5 v (by change 5 < 6; decide) hanswer)]

theorem exec_opBegin_awake (hi : Idle s) (hc : ChipAwake s c) :
    ∃ t, exec .opBegin s = .next t ∧ t.mfrId = some c.mfr ∧ t.devId = some c.dev := by
  obtain ⟨hs, hp, hb⟩ := hc
  obtain ⟨hm, hd⟩ := answer_mfrDeviceId hp hb
  obtain ⟨ins, d, n, hrun, -, hanswers⟩ := exec_opBegin_spec hi
  refine ⟨_, hrun, ?_, ?_⟩
  · exact congrArg some (answerAt_of_getElem? (hanswers 4 _ (by decide) (by rw [hs]; exact hm)))
  · exact congrArg some (answerAt_of_getElem? (hanswers 5 _ (by decide) (by rw [hs]; exact hd)))

/-- The long release reaches a powered-down chip too (R61). -/
theorem exec_opReleasePowerDownId_result (hu : Usable s) (hs : s.env = .responder c) (hb : c.nBusy = .reads 0) :
    ∃ t, exec .opReleasePowerDownId s = .next t ∧ t.result = some (.byte c.dev) := by
  obtain ⟨ins, d, n, hrun, -, hanswers⟩ := oneFrame_spec .frameReleasePowerDownId
    (fun u ins => (delayUs tReleaseUs u, .byte (answerAt ins 5))) hu.1.1
  refine ⟨_, exec_of_body rfl hu.2 hrun, ?_⟩
  rw [setResult_result, answerAt_of_getElem? (hanswers 4 _ (by decide) (by rw [hs]; exact answer_releaseId hb))]

end Awake

/-- Settles O60: every operation returns the answers at its kept positions, which the responder fixes. -/
theorem chipAnswersItsOwnBytes : Obligations.ChipAnswersItsOwnBytes := by
  refine ⟨fun s c hu hc => ⟨exec_opStatusRegister1_ready hu hc, exec_opReady_awake hu hc,
    exec_opStatusRegister2_awake hu hc, exec_opJedecId_awake hu hc, exec_opReadUniqueId_awake hu hc,
    fun addr haddr v hv => exec_opReadSfdpRegister_awake hu hc haddr hv⟩, fun s c i hi hc hbegin => ?_,
    fun s c hu hs hb => exec_opReleasePowerDownId_result hu hs hb⟩
  obtain rfl | ⟨cs, rfl⟩ := hbegin
  · exact exec_opBegin_awake hi hc
  · exact exec_opBegin_awake (s := s.setCsLine cs) hi hc

end Sys2Proof.Proofs
end
